-- ==== Sys2Proof/Word.lean ====
section
/-! DEFINITION. The words and names of the Floater core: a binary64 stack cell, a 24-bit colour, a 4-bit opcode (R6), the
directions, run states, fault causes and modes, and grid positions with their plainest arithmetic. -/

namespace Sys2Proof

/-- A stack cell: one IEEE-754 binary64 value, held as its 64 bits (R6, R29). -/
abbrev F64 := BitVec 64

/-- A grid cell: a 24-bit colour, red in bits 23:16, green in 15:8, blue in 7:0 (R6, R7). -/
abbrev Colour := BitVec 24

/-- An opcode, 0 to 15 (R6). -/
abbrev Opcode := BitVec 4

/-- The travel direction, encoded 0 to 3 in this order (R11, R22). -/
inductive Dir where
  | down | right | up | left
  deriving DecidableEq, Repr

/-- The run state (R23). -/
inductive RunState where
  | running | paused | halted
  deriving DecidableEq, Repr

/-- The two causes of the capacity fault (R24, R262). -/
inductive CapacityKind where
  | stack | grid
  deriving DecidableEq, Repr

/-- The I/O mode (R25). -/
inductive IoMode where
  | character | integer | float
  deriving DecidableEq, Repr

/-- The graphics mode (R26). -/
inductive GfxMode where
  | palette16 | grayscale | bpp6 | bpp12 | bpp18 | bpp24
  deriving DecidableEq, Repr

/-- A pair of integers: internal, 0-based coordinates, or a motion vector (R11, R21). -/
structure Pos where
  x : Int
  y : Int
  deriving DecidableEq, Repr

namespace Pos

/-- The sum of two vectors. -/
def add (p q : Pos) : Pos := ⟨p.x + q.x, p.y + q.y⟩

/-- The opposite vector. -/
def neg (p : Pos) : Pos := ⟨-p.x, -p.y⟩

/-- The vector `k` times as long. -/
def scale (k : Nat) (p : Pos) : Pos := ⟨k * p.x, k * p.y⟩

end Pos

/-- An answer of the host's input source (R130, R181): a character code, an integer, a binary64 value, or none. -/
inductive InputAnswer where
  | unavailable
  | code (n : Nat)
  | int (z : Int)
  | float (v : F64)
  deriving DecidableEq, Repr

/-- One event on the output sink: the I/O mode it was printed in and its payload (R180). -/
inductive OutEvent where
  | character (code : Int)
  | integer (n : Int)
  | float (v : F64)
  deriving DecidableEq, Repr

/-- Cells of a two-dimensional array by (row, column), those that hold its blank value left out. -/
abbrev CellMap (α : Type) := List ((Nat × Nat) × α)

end Sys2Proof
end

