-- ==== Sys2Proof/Machine/Float.lean ====
section
/-! DEFINITION. Binary64 arithmetic, exact first and then rounded once to nearest, ties to even (R217), the rounding primitive
rnd (R10), conversion from integers (R8), square root (R230, R231) and the three IEEE roundings to an integer (R214 to R216).
An operation that has no numeric result delivers the NaN it is given (I10, log entry 2). -/

namespace Sys2Proof

namespace F64

/-! ## The format -/

/-- What a binary64 value is: a NaN, an infinity, or ±m·2^e with `neg` its sign. -/
inductive Unpacked where
  | nan
  | inf (neg : Bool)
  | fin (neg : Bool) (m : Nat) (e : Int)
  deriving DecidableEq, Repr

/-- The sign bit. -/
def neg (a : F64) : Bool := decide (2 ^ 63 ≤ a.toNat)

/-- The biased exponent field. -/
def expField (a : F64) : Nat := a.toNat / 2 ^ 52 % 2 ^ 11

/-- The fraction field. -/
def fracField (a : F64) : Nat := a.toNat % 2 ^ 52

/-- The value of a bit pattern (IEEE-754 binary64, R6). -/
def unpack (a : F64) : Unpacked :=
  if expField a = 2047 then
    if fracField a = 0 then .inf (neg a) else .nan
  else if expField a = 0 then .fin (neg a) (fracField a) (-1074)
  else .fin (neg a) (2 ^ 52 + fracField a) (expField a - 1075)

/-- The bit pattern with a sign and the 63 bits below it. -/
def ofParts (s : Bool) (mag : Nat) : F64 := BitVec.ofNat 64 (mag + if s then 2 ^ 63 else 0)

/-- The 63 bits of an infinity. -/
def infMag : Nat := 0x7FF0000000000000

/-- ±∞. -/
def inf (s : Bool) : F64 := ofParts s infMag

/-- ±0. -/
def zero (s : Bool) : F64 := ofParts s 0

/-- 1.0. -/
def one : F64 := 0x3FF0000000000000

/-- −1.0. -/
def minusOne : F64 := 0xBFF0000000000000

def isNaN (a : F64) : Bool := decide (unpack a = .nan)

/-- Some NaN made of the given bits; every NaN is made of some bits (its own). -/
def nanOf (b : BitVec 64) : F64 :=
  if isNaN b then b else ofParts (neg b) (infMag + max 1 (fracField b))

/-! ## Rounding -/

/-- m / 2^k to the nearest integer, ties to even; exact for k ≤ 0. -/
def shiftRound (m : Nat) (k : Int) : Nat :=
  if k ≤ 0 then m * 2 ^ (-k).toNat
  else
    let d := 2 ^ k.toNat
    if d < 2 * (m % d) ∨ (2 * (m % d) = d ∧ m / d % 2 = 1) then m / d + 1 else m / d

/-- The exponent of the last place of the binary64 nearest to m·2^e. -/
def ulpExp (m : Nat) (e : Int) : Int := max ((m.log2 : Int) + e - 52) (-1074)

/-- The lower 63 bits of the binary64 nearest to m·2^e, ties to even; beyond the range, those of an infinity (R217). -/
def roundMag (m : Nat) (e : Int) : Nat :=
  if m = 0 then 0
  else min ((ulpExp m e + 1074).toNat * 2 ^ 52 + shiftRound m (ulpExp m e - e)) infMag

/-- The binary64 nearest to ±m·2^e; a zero keeps the sign given. -/
def round (s : Bool) (m : Nat) (e : Int) : F64 := ofParts s (roundMag m e)

/-- toF64 (R8). -/
def ofInt (n : Int) : F64 := round (decide (n < 0)) n.natAbs 0

/-- The integer with a sign and a magnitude. -/
def signed (s : Bool) (m : Nat) : Int := if s then -(m : Int) else m

/-! ## The arithmetic of R217: the operands are exact, the result is rounded once -/

/-- ±m·2^e + ±n·2^f. An exact zero sum is −0 only if both operands are negative. -/
def addFin (s : Bool) (m : Nat) (e : Int) (t : Bool) (n : Nat) (f : Int) : F64 :=
  let g := min e f
  let sum := signed s (m * 2 ^ (e - g).toNat) + signed t (n * 2 ^ (f - g).toNat)
  round (if sum = 0 then s && t else decide (sum < 0)) sum.natAbs g

/-- a + b (R218). -/
def add (nan a b : F64) : F64 :=
  match unpack a, unpack b with
  | .nan, _ => nan
  | .inf _, .nan => nan
  | .fin _ _ _, .nan => nan
  | .inf s, .inf t => if s = t then inf s else nan
  | .inf s, .fin _ _ _ => inf s
  | .fin _ _ _, .inf t => inf t
  | .fin s m e, .fin t n f => addFin s m e t n f

/-- The operand with its sign inverted. -/
def negate (a : F64) : F64 := a ^^^ 0x8000000000000000

/-- a − b (R219). -/
def sub (nan a b : F64) : F64 := add nan a (negate b)

/-- a · b (R220). -/
def mul (nan a b : F64) : F64 :=
  match unpack a, unpack b with
  | .nan, _ => nan
  | .inf _, .nan => nan
  | .fin _ _ _, .nan => nan
  | .inf s, .inf t => inf (s != t)
  | .inf s, .fin t n _ => if n = 0 then nan else inf (s != t)
  | .fin s m _, .inf t => if m = 0 then nan else inf (s != t)
  | .fin s m e, .fin t n f => round (s != t) (m * n) (e + f)

/-- One more bit below an integer: set where the exact value lies above it (a quotient or root with a remainder). -/
def sticky (q : Nat) (exact : Bool) : Nat := if exact then 2 * q else 2 * q + 1

/-- (m·2^e) / (n·2^f) for n ≠ 0: the quotient to at least 67 bits, then the sticky bit. -/
def divFin (s : Bool) (m : Nat) (e : Int) (n : Nat) (f : Int) : F64 :=
  let a := m * 2 ^ 120
  round s (sticky (a / n) (decide (a % n = 0))) (e - f - 121)

/-- a / b (R221). -/
def div (nan a b : F64) : F64 :=
  match unpack a, unpack b with
  | .nan, _ => nan
  | .inf _, .nan => nan
  | .fin _ _ _, .nan => nan
  | .inf _, .inf _ => nan
  | .inf s, .fin t _ _ => inf (s != t)
  | .fin s _ _, .inf t => zero (s != t)
  | .fin s m e, .fin t n f =>
    if n = 0 then (if m = 0 then nan else inf (s != t)) else divFin (s != t) m e n f

/-- The integer square root of n: `acc` with the bits below 2^k found from the top. -/
def isqrt (n : Nat) : Nat → Nat → Nat
  | 0, acc => acc
  | k + 1, acc => if (acc + 2 ^ k) * (acc + 2 ^ k) ≤ n then isqrt n k (acc + 2 ^ k) else isqrt n k acc

/-- √(m·2^e): the exponent is made even, the root has at least 64 bits, then the sticky bit. -/
def sqrtFin (m : Nat) (e : Int) : F64 :=
  let odd : Nat := (e % 2).toNat
  let a := m * 2 ^ odd * 2 ^ 128
  let r := isqrt a 92 0
  round false (sticky r (decide (r * r = a))) ((e - odd) / 2 - 65)

/-- F_SQRT, the correctly rounded square root (R230, R231). -/
def sqrt (nan a : F64) : F64 :=
  match unpack a with
  | .nan => nan
  | .inf s => if s then nan else a
  | .fin s m e => if m = 0 then a else if s then nan else sqrtFin m e

/-! ## Integers near a value -/

/-- ⌊(±m·2^e·2 + 1) / 2⌋, the value plus one half, rounded down (0 for a zero). -/
def floorHalf (s : Bool) (m : Nat) (e : Int) : Int :=
  if m = 0 then 0
  else if 0 ≤ e then signed s (m * 2 ^ e.toNat)
  else (2 * signed s m + 2 ^ (-e).toNat) / 2 ^ ((-e).toNat + 1)

/-- rnd (R10): ties toward +∞, NaN to 0, saturating at the ends of the 64-bit integers. -/
def rnd (a : F64) : Int :=
  match unpack a with
  | .nan => 0
  | .inf s => if s then -2 ^ 63 else 2 ^ 63 - 1
  | .fin s m e => max (-2 ^ 63) (min (2 ^ 63 - 1) (floorHalf s m e))

/-- ⌊±m / 2^k⌋. -/
def floorInt (s : Bool) (m k : Nat) : Int := signed s m / 2 ^ k

/-- ⌈±m / 2^k⌉. -/
def ceilInt (s : Bool) (m k : Nat) : Int := -(signed (!s) m / 2 ^ k)

/-- ±m / 2^k rounded toward zero. -/
def truncInt (s : Bool) (m k : Nat) : Int := signed s (m / 2 ^ k)

/-- roundToIntegral with one of the three roundings: a value that is no number or has no fraction is returned unchanged, a
zero result keeps the operand's sign (R214 to R216). -/
def toIntegral (f : Bool → Nat → Nat → Int) (a : F64) : F64 :=
  match unpack a with
  | .nan => a
  | .inf _ => a
  | .fin s m e => if m = 0 ∨ 0 ≤ e then a else round s (f s m (-e).toNat).natAbs 0

/-- FLOOR's rounding (R214). -/
def floor (a : F64) : F64 := toIntegral floorInt a

/-- CEIL's rounding (R215). -/
def ceil (a : F64) : F64 := toIntegral ceilInt a

/-- TRUNC's rounding (R216). -/
def trunc (a : F64) : F64 := toIntegral truncInt a

/-! ## Comparisons with 0 (R166) -/

/-- a = 0.0; both zeros are. -/
def eqZero (a : F64) : Bool :=
  match unpack a with
  | .fin _ m _ => decide (m = 0)
  | .nan => false
  | .inf _ => false

/-- a < 0.0. -/
def ltZero (a : F64) : Bool :=
  match unpack a with
  | .fin s m _ => s && decide (m ≠ 0)
  | .nan => false
  | .inf s => s

/-- a > 0.0. -/
def gtZero (a : F64) : Bool :=
  match unpack a with
  | .fin s m _ => !s && decide (m ≠ 0)
  | .nan => false
  | .inf s => !s

/-- 0 ≤ a < 1 (R210). -/
def inUnit (a : F64) : Bool := eqZero a || (gtZero a && decide (expField a < 1023))

/-- Some value u with 0 ≤ u < 1 made of the given bits; every such value is made of some bits (its own). -/
def unitOf (b : BitVec 64) : F64 := if inUnit b then b else zero false

/-- 2π: the double of the binary64 nearest to π, which is 0x400921FB54442D18 (R230; DEDUCED, log entry 14). -/
def twoPi : F64 := 0x401921FB54442D18

end F64

end Sys2Proof
end

