-- ==== Sys2Proof/Machine/Flags.lean ====
section
/-! DEFINITION. Truth values. The core has no flags and no condition codes (R33): a comparison's result is a value on the
stack, −1.0 or +0.0 (R166). -/

namespace Sys2Proof.Machine

/-- −1.0 for true, +0.0 for false (R166). -/
def boolValue (b : Bool) : F64 := if b then F64.minusOne else F64.zero false

/-- EQ's result (R167). -/
def eqResult (a : F64) : F64 := boolValue (F64.eqZero a)

/-- LT's result (R168). -/
def ltResult (a : F64) : F64 := boolValue (F64.ltZero a)

/-- GT's result (R169). -/
def gtResult (a : F64) : F64 := boolValue (F64.gtZero a)

/-- SIGN's result (R170). -/
def signResult (a : F64) : F64 := if F64.gtZero a then F64.one else if F64.ltZero a then F64.minusOne else a

end Sys2Proof.Machine
end

