-- ==== Sys2Proof/Config.lean ====
section
/-! DEFINITION. What the spec leaves to the implementation: the named parameters of R5 as plain data, and, without a body so
that no proof can see a value, the open functions (R192, R230) and the free values (93_implementation_defined.md). -/

namespace Sys2Proof

/-- P_SEL_OVERFLOW (R5, R102): what a parameter above the family's count selects. `wrap` is a DESIGN CHOICE, log entry 5. -/
inductive SelOverflow where
  | saturate | wrap
  deriving DecidableEq, Repr

/-- P_DEFLECT_TRUE_DELTA (R5, R252): +1 or −1. -/
inductive Delta where
  | minusOne | plusOne
  deriving DecidableEq, Repr

/-- P_AHEAD_TRACE_OFFSET (R5, R89): +d or −d. -/
inductive TraceOffset where
  | plusD | minusD
  deriving DecidableEq, Repr

/-- The implementation parameters of R5. A capacity is `none` where it is at least everything a program reaches
(DESIGN CHOICE, log entry 4). -/
structure Params where
  gridMaxW : Option Nat
  gridMaxH : Option Nat
  stackMax : Option Nat
  resetDir : Dir
  selOverflow : SelOverflow
  negOffsetGet : Int
  negOffsetSet : Int
  deflectTrueDelta : Delta
  aheadTraceOffset : TraceOffset
  modeBase : Int
  deriving DecidableEq, Repr

/-- The default column of R5's table. -/
def Params.default : Params where
  gridMaxW := none
  gridMaxH := none
  stackMax := none
  resetDir := .down
  selOverflow := .saturate
  negOffsetGet := 1
  negOffsetSet := 0
  deflectTrueDelta := .minusOne
  aheadTraceOffset := .plusD
  modeBase := 0

namespace Config

/-! Open functions: total, each depends on its arguments alone, nothing else is known. -/

/-- F_POW (R230, R232). -/
opaque pow : F64 → F64 → F64
/-- F_EXP (R230, R233). -/
opaque exp : F64 → F64
/-- F_LN (R230, R234, R235). -/
opaque ln : F64 → F64
/-- F_SIN (R230, R236). -/
opaque sin : F64 → F64
/-- F_COS (R230, R237). -/
opaque cos : F64 → F64
/-- F_TAN (R230, R238). -/
opaque tan : F64 → F64
/-- F_ATAN (R230, R239). -/
opaque atan : F64 → F64

/-- ENC_Gray (R192). -/
opaque encGray : F64 → Colour
/-- ENC_6 (R192). -/
opaque enc6 : F64 → Colour
/-- ENC_12 (R192). -/
opaque enc12 : F64 → Colour
/-- ENC_18 (R192). -/
opaque enc18 : F64 → Colour
/-- ENC_24 (R192). -/
opaque enc24 : F64 → Colour
/-- DEC_Gray (R192). -/
opaque decGray : Colour → F64
/-- DEC_6 (R192). -/
opaque dec6 : Colour → F64
/-- DEC_12 (R192). -/
opaque dec12 : Colour → F64
/-- DEC_18 (R192). -/
opaque dec18 : Colour → F64
/-- DEC_24 (R192). -/
opaque dec24 : Colour → F64

/-! Free values: the argument is the draw counter of State (log entry 1). -/

/-- The bits from which the NaN an invalid operation delivers is made (I10, log entry 2). -/
opaque nanBits : Nat → BitVec 64
/-- The bits from which the random source's draw is made (R210, I9, log entry 10). -/
opaque randomBits : Nat → BitVec 64
/-- Whether the input source answers a value (R181, I8, log entry 10). -/
opaque inputReady : Nat → Bool
/-- The character code it answers in Character mode. -/
opaque inputCode : Nat → Nat
/-- The integer it answers in Integer mode. -/
opaque inputInt : Nat → Int
/-- The value it answers in Float mode. -/
opaque inputFloat : Nat → F64
/-- The choices that make up the flood's visiting order (R92, I4, log entry 9). -/
opaque floodChoice : Nat → Nat → Nat
/-- The unspecified contents of the scratch map after a growth or a reset (R31, R56, I5, log entry 9). -/
opaque scratchBits : Nat → List ((Nat × Nat) × Int)

end Config

end Sys2Proof
end

