-- ==== Sys2Proof/Syntax.lean ====
section
/-! DEFINITION. The instructions: one constructor per row of spec/opcode_table.json, in the table's order. An operand that is
not popped from the stack is a field: the parameter of PUSH, LOGBASE and ANGBASE, the turn bit of DEFLECT (R103). -/

namespace Sys2Proof

/-- The 45 mnemonics of R101, each with the operands that the fetch delivers. -/
inductive Instr where
  | nop
  | push (n : Nat)
  | dup
  | swap
  | get
  | set
  | pause
  | not
  | and
  | or
  | xor
  | eq
  | lt
  | gt
  | sign
  | print
  | input
  | iomode
  | setPixel
  | getPixel
  | gfxmode
  | rnd
  | pushIp
  | pushSp
  | round
  | floor
  | ceil
  | trunc
  | add
  | sub
  | mul
  | div
  | sqrt
  | pow
  | exp
  | log
  | logbase (n : Nat)
  | sin
  | cos
  | tan
  | atn
  | angbase (n : Nat)
  | reserved
  | forward
  | deflect (turn : Bool)
  deriving DecidableEq, Repr

end Sys2Proof
end

