-- ==== Sys2Proof/WellFormed.lean ====
section
/-! DEFINITION. Which instructions a fetch can deliver: the operand values that the encoding admits (R94, R102, R103). -/

namespace Sys2Proof

/-- A parameter that selects the fifth and last mnemonic of its family (R101, R102): at least 5, and under `wrap` a multiple
of 5. -/
def lastOfFive (sel : SelOverflow) (n : Nat) : Bool :=
  match sel with
  | .saturate => decide (5 ≤ n)
  | .wrap => decide (5 ≤ n) && decide (n % 5 = 0)

/-- PUSH has a parameter of at least 1 (R142); LOGBASE and ANGBASE have one that selects them (R235, R240). -/
def Instr.wellFormed (sel : SelOverflow) : Instr → Bool
  | .push n => decide (1 ≤ n)
  | .logbase n => lastOfFive sel n
  | .angbase n => lastOfFive sel n
  | .nop | .dup | .swap | .get | .set | .pause | .not | .and | .or | .xor | .eq | .lt | .gt | .sign | .print | .input
  | .iomode | .setPixel | .getPixel | .gfxmode | .rnd | .pushIp | .pushSp | .round | .floor | .ceil | .trunc | .add | .sub
  | .mul | .div | .sqrt | .pow | .exp | .log | .sin | .cos | .tan | .atn | .reserved | .forward | .deflect _ => true

end Sys2Proof
end

