-- ==== Sys2Proof/Decode.lean ====
section
/-! DEFINITION. From a codel to an instruction: the colour decoder (R81 to R86), the selection of a mnemonic by opcode and
parameter (R101, R102), then the encoder. The parameter and the turn bit are computed from the grid, in Machine/Region.lean. -/

namespace Sys2Proof

/-! ## The colour palette decoder -/

/-- Bits 23:16 of a colour (R81). -/
def redOf (c : Colour) : Nat := c.toNat / 2 ^ 16

/-- Bits 15:8 of a colour (R81). -/
def greenOf (c : Colour) : Nat := c.toNat / 2 ^ 8 % 2 ^ 8

/-- Bits 7:0 of a colour (R81). -/
def blueOf (c : Colour) : Nat := c.toNat % 2 ^ 8

/-- The 2-bit level of an 8-bit channel (R82). -/
def level (c : Nat) : Nat := (c / 32 * 4 + 3) / 10

/-- The 6-bit index of a colour (R83). -/
def colourIndex (c : Colour) : Nat := level (redOf c) * 16 + level (greenOf c) * 4 + level (blueOf c)

/-- The reverse-palette table, by red level (R84). -/
def lut : List Nat :=
  [0, 1, 1, 9, 2, 3, 1, 9, 2, 2, 3, 11, 10, 10, 11, 11] ++
  [4, 5, 1, 9, 6, 8, 1, 9, 2, 2, 3, 11, 10, 10, 11, 11] ++
  [4, 4, 5, 13, 6, 4, 5, 13, 6, 6, 7, 15, 14, 14, 15, 15] ++
  [12, 12, 13, 13, 12, 12, 13, 13, 14, 14, 15, 15, 14, 14, 15, 15]

/-- The opcode of a colour (R85). -/
def decodeOpcode (c : Colour) : Opcode := BitVec.ofNat 4 (lut.getD (colourIndex c) 0)

/-- The 16 palette colours (R86). -/
def paletteTable : List Colour :=
  [0x000000, 0x0000AA, 0x00AA00, 0x00AAAA, 0xAA0000, 0xAA00AA, 0xAA5500, 0xAAAAAA,
   0x555555, 0x5555FF, 0x55FF55, 0x55FFFF, 0xFF5555, 0xFF55FF, 0xFFFF55, 0xFFFFFF]

/-- `palette[i]` (R86); the index is below 16 wherever it is used. -/
def palette (i : Nat) : Colour := paletteTable.getD i 0

/-! ## The decoded instruction and its mnemonic -/

/-- The decoded instruction: opcode, parameter and turn bit (R32, R100). -/
structure Decoded where
  opcode : Opcode
  param : Nat
  turn : Bool
  deriving DecidableEq, Repr

/-- Why a triple is no instruction. `zeroParam`: parameter 0 with an opcode other than 0, which no fetch yields (R94, R102;
log entry 15). -/
inductive DecodeError where
  | zeroParam
  deriving DecidableEq, Repr

/-- The mnemonics of each opcode in order, each given the parameter and the turn bit (R101). -/
def familyTable : List (List (Nat → Bool → Instr)) :=
  [[fun _ _ => .nop],
   [fun n _ => .push n],
   [fun _ _ => .dup, fun _ _ => .swap],
   [fun _ _ => .get, fun _ _ => .set],
   [fun _ _ => .pause],
   [fun _ _ => .not, fun _ _ => .and, fun _ _ => .or, fun _ _ => .xor],
   [fun _ _ => .eq, fun _ _ => .lt, fun _ _ => .gt, fun _ _ => .sign],
   [fun _ _ => .print, fun _ _ => .input, fun _ _ => .iomode]] ++
  [[fun _ _ => .setPixel, fun _ _ => .getPixel, fun _ _ => .gfxmode],
   [fun _ _ => .rnd, fun _ _ => .pushIp, fun _ _ => .pushSp],
   [fun _ _ => .round, fun _ _ => .floor, fun _ _ => .ceil, fun _ _ => .trunc],
   [fun _ _ => .add, fun _ _ => .sub, fun _ _ => .mul, fun _ _ => .div],
   [fun _ _ => .sqrt, fun _ _ => .pow, fun _ _ => .exp, fun _ _ => .log, fun n _ => .logbase n],
   [fun _ _ => .sin, fun _ _ => .cos, fun _ _ => .tan, fun _ _ => .atn, fun n _ => .angbase n],
   [fun _ _ => .reserved],
   [fun _ _ => .forward, fun _ t => .deflect t]]

/-- The mnemonics of one opcode. -/
def family (op : Opcode) : List (Nat → Bool → Instr) := familyTable.getD op.toNat []

/-- The 1-based index that parameter `p` selects among `n` mnemonics (R102). -/
def selectIndex (sel : SelOverflow) (n p : Nat) : Nat :=
  if n ≤ 1 then 1
  else if p ≤ n then p
  else match sel with
    | .saturate => n
    | .wrap => (p - 1) % n + 1

/-- The instruction a decoded triple selects (R101, R102, R104). -/
def decode (sel : SelOverflow) (d : Decoded) : Except DecodeError Instr :=
  if d.param = 0 ∧ d.opcode ≠ 0 then .error .zeroParam
  else match (family d.opcode)[selectIndex sel (family d.opcode).length d.param - 1]? with
    | some f => .ok (f d.param d.turn)
    | none => .error .zeroParam

/-! ## The encoder -/

/-- The opcode of an instruction (the table's rows, R101). -/
def Instr.opcode : Instr → Opcode
  | .nop => 0x0
  | .push _ => 0x1
  | .dup | .swap => 0x2
  | .get | .set => 0x3
  | .pause => 0x4
  | .not | .and | .or | .xor => 0x5
  | .eq | .lt | .gt | .sign => 0x6
  | .print | .input | .iomode => 0x7
  | .setPixel | .getPixel | .gfxmode => 0x8
  | .rnd | .pushIp | .pushSp => 0x9
  | .round | .floor | .ceil | .trunc => 0xA
  | .add | .sub | .mul | .div => 0xB
  | .sqrt | .pow | .exp | .log | .logbase _ => 0xC
  | .sin | .cos | .tan | .atn | .angbase _ => 0xD
  | .reserved => 0xE
  | .forward | .deflect _ => 0xF

/-- The place of an instruction in its family, from 1 (the table's selector_index, R101). -/
def Instr.selector : Instr → Nat
  | .nop | .push _ | .dup | .get | .pause | .not | .eq | .print | .setPixel | .rnd | .round | .add | .sqrt | .sin
  | .reserved | .forward => 1
  | .swap | .set | .and | .lt | .input | .getPixel | .pushIp | .floor | .sub | .pow | .cos | .deflect _ => 2
  | .or | .gt | .iomode | .gfxmode | .pushSp | .ceil | .mul | .exp | .tan => 3
  | .xor | .sign | .trunc | .div | .log | .atn => 4
  | .logbase _ | .angbase _ => 5

/-- A parameter that selects the instruction: its operand where the parameter is one, 0 for NOP (the background), else its
place in the family (R102, R103, R106). -/
def Instr.param (i : Instr) : Nat :=
  match i with
  | .nop => 0
  | .push n | .logbase n | .angbase n => n
  | .dup | .swap | .get | .set | .pause | .not | .and | .or | .xor | .eq | .lt | .gt | .sign | .print | .input
  | .iomode | .setPixel | .getPixel | .gfxmode | .rnd | .pushIp | .pushSp | .round | .floor | .ceil | .trunc | .add | .sub
  | .mul | .div | .sqrt | .pow | .exp | .log | .sin | .cos | .tan | .atn | .reserved | .forward | .deflect _ => i.selector

/-- The turn bit an instruction carries; it is an operand of DEFLECT only (R103). -/
def Instr.turn (i : Instr) : Bool :=
  match i with
  | .deflect t => t
  | .nop | .push _ | .logbase _ | .angbase _
  | .dup | .swap | .get | .set | .pause | .not | .and | .or | .xor | .eq | .lt | .gt | .sign | .print | .input
  | .iomode | .setPixel | .getPixel | .gfxmode | .rnd | .pushIp | .pushSp | .round | .floor | .ceil | .trunc | .add | .sub
  | .mul | .div | .sqrt | .pow | .exp | .log | .sin | .cos | .tan | .atn | .reserved | .forward => false

/-- The encoding of an instruction: opcode, selecting parameter, turn bit (R106). -/
def encode (i : Instr) : Decoded := ⟨i.opcode, i.param, i.turn⟩

/-- The encoding as one number: the opcode in bits 3:0, where spec/opcode_table.json has it, and the parameter, which the
table gives no bits, above it (DESIGN CHOICE, log entry 8). -/
def tableWord (i : Instr) : Nat := i.opcode.toNat + 16 * i.param

/-- The opcode nibble of a table word. -/
def tableOpcode (nbits w : Nat) : Nat := w % 2 ^ nbits % 16

/-- The parameter of a table word: 0 for opcode 0; for another opcode, which has no parameter 0 (R94), 0 stands for 1
(log entry 8). -/
def tableParam (nbits w : Nat) : Nat :=
  if tableOpcode nbits w = 0 then 0 else max 1 (w % 2 ^ nbits / 16)

/-- The instruction of a table word: its opcode's palette colour goes through the colour decoder, then the selection. -/
def decodeTableWord (nbits w : Nat) : Option Instr :=
  match decode .saturate ⟨decodeOpcode (palette (tableOpcode nbits w)), tableParam nbits w, false⟩ with
  | .ok i => some i
  | .error _ => none

end Sys2Proof
end

