-- ==== Sys2Proof/Machine/State.lean ====
section
/-! DEFINITION. The machine's state as plain data (R20), the reasons a step can stop, and the state after reset (R280). -/

namespace Sys2Proof.Machine

/-- The pixel grid (R30): width, height and its cells by (row, column), those that hold the background colour left out. -/
structure Grid where
  w : Nat
  h : Nat
  cells : CellMap Colour
  deriving DecidableEq, Repr

/-- The architectural state (R20), the parameters of R5 and the draw counter of the free values. -/
structure State where
  /-- The pointer, internal coordinates (R21). -/
  ptr : Pos
  /-- The travel direction (R22). -/
  dir : Dir
  /-- The run state (R23). -/
  run : RunState
  /-- The fault record (R24). -/
  fault : Option CapacityKind
  /-- The I/O mode (R25). -/
  ioMode : IoMode
  /-- The graphics mode (R26). -/
  gfxMode : GfxMode
  /-- The log factor (R27). -/
  logFactor : F64
  /-- The angle factor (R28). -/
  angFactor : F64
  /-- The stack, its top first (R29). -/
  stk : List F64
  /-- The grid (R30); `none` before the first INSTALL (R284). -/
  grid : Option Grid
  /-- The scratch map (R31), the entries that are not 0. -/
  scratch : CellMap Int
  /-- The output events so far, oldest first (R130, R180). -/
  output : List OutEvent
  /-- The implementation's parameters (R5); nothing changes them (log entry 3). -/
  params : Params
  /-- The draws taken so far; the model's own (DESIGN CHOICE, log entry 1). -/
  draws : Nat
  deriving DecidableEq, Repr

/-- Why the machine would stop with a fault: never. The spec's one fault is recorded in the state (R260, R265), and a step
after it changes nothing (R124), so no constructor is needed; safe. -/
inductive Fault where
  deriving DecidableEq, Repr

/-- Why a step or a host command is refused. -/
inductive Refusal where
  /-- Raised by `exec` for an instruction without a meaning. No arm raises it. Safe. -/
  | notModelled (mnemonic : String)
  /-- Raised by STEP, RESET and RESUME before the first INSTALL (R133), and by a grid write with no grid. Safe. -/
  | notInstalled
  /-- Raised by INSTALL of an empty, oversized, misshapen or non-24-bit grid (R126). Safe. -/
  | badInstall
  /-- Raised by `step` for parameter 0 with an opcode other than 0, which no fetch yields (R94). Safe. -/
  | zeroParameter
  deriving DecidableEq, Repr

/-- The state after reset with the default parameters (R280), before any INSTALL: there is no grid (R284), and so the
scratch map, a W×H array, has no entry. -/
def State.reset : State where
  ptr := ⟨0, 0⟩
  dir := .down
  run := .running
  fault := none
  ioMode := .character
  gfxMode := .palette16
  logFactor := 0x3FF0000000000000
  angFactor := 0x3FF0000000000000
  stk := []
  grid := none
  scratch := []
  output := []
  params := Params.default
  draws := 0

end Sys2Proof.Machine
end

