-- ==== Sys2Proof/Machine/Grid.lean ====
section
/-! DEFINITION. The pixel grid memory: its canonical form, reading (R52), growth (R53, R54) and writing (R55). -/

namespace Sys2Proof

namespace CellMap

/-- Row by row, then column by column. -/
def keyLt (a b : Nat × Nat) : Bool := decide (a.1 < b.1) || (decide (a.1 = b.1) && decide (a.2 < b.2))

/-- The cell at a key; an unlisted cell holds `blank`. -/
def find {α : Type} (blank : α) (k : Nat × Nat) : CellMap α → α
  | [] => blank
  | (k', v) :: r => if k = k' then v else find blank k r

/-- Write one cell, keeping the canonical form: writing `blank` removes the entry. -/
def put {α : Type} [DecidableEq α] (blank : α) (k : Nat × Nat) (v : α) : CellMap α → CellMap α
  | [] => if v = blank then [] else [(k, v)]
  | (k', v') :: r =>
    if k = k' then (if v = blank then r else (k, v) :: r)
    else if keyLt k k' then (if v = blank then (k', v') :: r else (k, v) :: (k', v') :: r)
    else (k', v') :: put blank k v r

/-- Write several cells, the first of the list first. -/
def putAll {α : Type} [DecidableEq α] (blank : α) : List ((Nat × Nat) × α) → CellMap α → CellMap α
  | [], m => m
  | (k, v) :: r, m => putAll blank r (put blank k v m)

/-- The canonical form of a W×H array: keys strictly rising and in range, no entry equal to `blank`. -/
def wf {α : Type} [DecidableEq α] (blank : α) (w h : Nat) : CellMap α → Bool
  | [] => true
  | (k, v) :: r =>
    decide (k.1 < h) && decide (k.2 < w) && decide (v ≠ blank) && r.all (fun e => keyLt k e.1) && wf blank w h r

end CellMap

namespace Machine

/-- `n` is within a capacity; no capacity is ever reached where it is `none` (R5, log entry 4). -/
def fits (limit : Option Nat) (n : Nat) : Bool :=
  match limit with
  | none => true
  | some m => decide (n ≤ m)

/-- The key of a position with non-negative coordinates: (row, column). -/
def cellKey (p : Pos) : Nat × Nat := (p.y.toNat, p.x.toNat)

namespace Grid

/-- 0 ≤ x < W and 0 ≤ y < H (R51). -/
def inRange (g : Grid) (p : Pos) : Bool :=
  decide (0 ≤ p.x) && decide (p.x < g.w) && decide (0 ≤ p.y) && decide (p.y < g.h)

/-- GridRead (R52). -/
def read (g : Grid) (p : Pos) : Colour := if g.inRange p then CellMap.find 0 (cellKey p) g.cells else 0

/-- The canonical form of the grid memory, and W, H ≥ 1 (R30). -/
def wf (g : Grid) : Bool := decide (1 ≤ g.w) && decide (1 ≤ g.h) && CellMap.wf 0 g.w g.h g.cells

/-- The growth function (R53); below 6 one more (R54). -/
def bigger (x : Nat) : Nat := if x < 6 then x + 1 else x + 2 ^ (x / 6).log2

/-- `while w ≤ x do w <- bigger(w)` (R55), for at most as many rounds as the first argument says. -/
def growTo : Nat → Nat → Nat → Nat
  | 0, _, w => w
  | n + 1, x, w => if w ≤ x then growTo n x (bigger w) else w

/-- The size a dimension `w` grows to for the coordinate `x` (R55). Every round adds at least 1, so `x + 1` rounds are
enough. -/
def grown (x w : Nat) : Nat := growTo (x + 1) x w

/-- GridWrite (R55). New cells are background, so growing changes W and H only. -/
def write (prm : Params) (g : Grid) (p : Pos) (c : Colour) : Except CapacityKind Grid :=
  if p.x < 0 ∨ p.y < 0 then .ok g
  else
    let w := grown p.x.toNat g.w
    let h := grown p.y.toNat g.h
    if fits prm.gridMaxW w && fits prm.gridMaxH h then .ok ⟨w, h, CellMap.put 0 (cellKey p) c g.cells⟩
    else .error .grid

end Grid

end Machine

end Sys2Proof
end

