-- ==== Sys2Proof/Machine/Region.lean ====
section
/-! DEFINITION. The connected-component analyzer (R88 to R94) and the turn-bit probe (R95): from the grid, the pointer and the
direction to the parameter, the scratch map and the turn bit. -/

namespace Sys2Proof.Machine

/-- mv(dir), the unit motion vector (R11). -/
def mv : Dir → Pos
  | .down => ⟨0, 1⟩
  | .right => ⟨1, 0⟩
  | .up => ⟨0, -1⟩
  | .left => ⟨-1, 0⟩

/-- rh(dir), the right-hand probe offset (R11, R95). -/
def rh : Dir → Pos
  | .down => ⟨-1, 0⟩
  | .right => ⟨0, 1⟩
  | .up => ⟨1, 0⟩
  | .left => ⟨0, -1⟩

/-- lat(d), the two lateral vectors (R11). -/
def lat (d : Pos) : List Pos := [⟨d.y, d.x⟩, ⟨-d.y, -d.x⟩]

/-- One lateral walk of the exclusion rule from `E` along `l` with the trace offset `o` (R91): the marked cells from the
`k`-th on, at most as many as the first argument says. -/
def walk (g : Grid) (c : Colour) (E l o : Pos) : Nat → Nat → List Pos
  | 0, _ => []
  | n + 1, k =>
    let q := E.add (l.scale k)
    if g.read q = c ∧ g.read (q.add o) = c then q :: walk g c E l o n (k + 1) else []

/-- The cells that one of the two cells `E` of the exclusion rule marks (R91). A walk stays inside the grid, so W + H cells
bound it. -/
def excludedFrom (g : Grid) (c : Colour) (d E o : Pos) : List Pos :=
  if g.read E = c then E :: (lat d).flatMap (fun l => walk g c E l o (g.w + g.h) 1) else []

/-- The trace offset of the ahead cell (R89). -/
def aheadOffset (prm : Params) (d : Pos) : Pos :=
  match prm.aheadTraceOffset with
  | .plusD => d
  | .minusD => d.neg

/-- The cells marked −1 (R91); none at the background colour (R88). -/
def excluded (prm : Params) (g : Grid) (P : Pos) (dir : Dir) : List Pos :=
  let c := g.read P
  let d := mv dir
  if c = 0 then []
  else excludedFrom g c d (P.add d.neg) d ++ excludedFrom g c d (P.add d) (aheadOffset prm d)

/-- The cells the flood may visit (R92). -/
def floodable (g : Grid) (c : Colour) (ex : List Pos) (q : Pos) : Bool :=
  g.inRange q && decide (g.read q = c) && !ex.contains q

/-- The four neighbours (R92). -/
def neighbours (q : Pos) : List Pos := [q.add (mv .down), q.add (mv .right), q.add (mv .up), q.add (mv .left)]

/-- The flood's worklist loop (R92): the visited cells, the latest first. Every round takes one cell off the list. -/
def flood (ok : Pos → Bool) : Nat → List Pos → List Pos → List Pos
  | 0, _, vis => vis
  | _ + 1, [], vis => vis
  | n + 1, q :: work, vis =>
    if ok q && !vis.contains q then flood ok n (neighbours q ++ work) (q :: vis) else flood ok n work vis

/-- The cells the flood visits from `P` (R92). Each of at most W·H visits adds four cells to the one at the start, so
4·W·H + 1 rounds empty the list. -/
def region (prm : Params) (g : Grid) (P : Pos) (dir : Dir) : List Pos :=
  if g.read P = 0 then []
  else flood (floodable g (g.read P) (excluded prm g P dir)) (4 * (g.w * g.h) + 1) [P] []

/-- The parameter (R93). -/
def regionParam (prm : Params) (g : Grid) (P : Pos) (dir : Dir) : Nat := (region prm g P dir).length

/-- A rearrangement of a list, each element chosen from those left by `choice` (every rearrangement is some choice's). -/
def rearrange {α : Type} (choice : Nat → Nat) : Nat → List α → List α
  | 0, _ => []
  | n + 1, xs =>
    match xs[choice n % xs.length]? with
    | some x => x :: rearrange choice n (xs.eraseIdx (choice n % xs.length))
    | none => []

/-- The visited cells in the order of their ranks, which the spec leaves open (R92, R93, I4; log entry 9). -/
def visitOrder (draw : Nat) (cells : List Pos) : List Pos :=
  rearrange (Config.floodChoice draw) cells.length cells

/-- Cells with their ranks, from `r` on. -/
def ranked : Nat → List Pos → List ((Nat × Nat) × Int)
  | _, [] => []
  | r, q :: qs => (cellKey q, (r : Int)) :: ranked (r + 1) qs

/-- The scratch map a fetch leaves (R90 to R93): −1 at the excluded cells, the rank from 1 at the visited ones, else 0. -/
def scratchOf (prm : Params) (g : Grid) (P : Pos) (dir : Dir) (draw : Nat) : CellMap Int :=
  CellMap.putAll 0 (ranked 1 (visitOrder draw (region prm g P dir)))
    (CellMap.putAll 0 ((excluded prm g P dir).map (fun q => (cellKey q, -1))) [])

/-- A W×H scratch map with unspecified contents (R31, R56, I5; log entry 9). -/
def scratchFree (g : Grid) (draw : Nat) : CellMap Int :=
  CellMap.putAll 0 ((Config.scratchBits draw).filter (fun e => decide (e.1.1 < g.h) && decide (e.1.2 < g.w))) []

/-- The turn bit (R95). -/
def turnBit (g : Grid) (P : Pos) (dir : Dir) : Bool := decide (g.read (P.add (rh dir)) = g.read P)

end Sys2Proof.Machine
end

