-- ==== Sys2Proof/Machine/Fetch.lean ====
section
/-! DEFINITION. The fetch (R100): the decoded instruction at a pointer, and the program a table word stands for. -/

namespace Sys2Proof.Machine

/-- Fetch(grid, P, dir) (R100). -/
def fetch (prm : Params) (g : Grid) (P : Pos) (dir : Dir) : Decoded :=
  ⟨decodeOpcode (g.read P), regionParam prm g P dir, turnBit g P dir⟩

/-- The instruction the fetch selects (R100, R102). -/
def fetchInstr (prm : Params) (g : Grid) (P : Pos) (dir : Dir) : Except DecodeError Instr :=
  decode prm.selOverflow (fetch prm g P dir)

/-- A line of `n` cells of one colour from `P` along +x or +y, listed in the order of their keys. -/
def lineCells (c : Colour) (P : Pos) (alongX : Bool) : Nat → CellMap Colour
  | 0 => []
  | n + 1 => (cellKey P, c) :: lineCells c (P.add (if alongX then ⟨1, 0⟩ else ⟨0, 1⟩)) alongX n

/-- The pointer nearest to `P` at which a line of `n` cells fits that runs from the pointer away from the right-hand probe. -/
def linePtr (P : Pos) (dir : Dir) (n : Nat) : Pos :=
  match dir with
  | .down | .left => ⟨max 0 P.x, max 0 P.y⟩
  | .right => ⟨max 0 P.x, max (n - 1 : Nat) P.y⟩
  | .up => ⟨max (n - 1 : Nat) P.x, max 0 P.y⟩

/-- A grid whose only codels of colour `c` are a line of `n` cells across the direction of travel, one of them at `P`, none of
them at the right-hand probe of `P`: its region has `n` cells and its turn bit is false. -/
def lineGrid (c : Colour) (P : Pos) (dir : Dir) (n : Nat) : Grid :=
  let cells (start : Pos) (alongX : Bool) : CellMap Colour := if c = 0 then [] else lineCells c start alongX n
  let x := P.x.toNat
  let y := P.y.toNat
  match dir with
  | .down => ⟨x + max 1 n, y + 1, cells P true⟩
  | .left => ⟨x + 1, y + max 1 n, cells P false⟩
  | .right => ⟨x + 1, y + 1, cells ⟨P.x, P.y - (n - 1 : Nat)⟩ false⟩
  | .up => ⟨x + 1, y + 1, cells ⟨P.x - (n - 1 : Nat), P.y⟩ true⟩

end Sys2Proof.Machine
end

