-- ==== Sys2Proof/Machine/Ops.lean ====
section
/-! DEFINITION. The named operations over the state: the stack primitives (R61 to R64), the grid primitives on the state (R52,
R55, R56), taking the capacity fault (R262, R265) and the return from it by a reset (R266, R280), the advance (R123). -/

namespace Sys2Proof.Machine

namespace State

/-! ## The stack -/

/-- The index of the top, −1 on the empty stack (R29). -/
def sp (s : State) : Int := (s.stk.length : Int) - 1

/-- Pop (R62): +0.0 from the empty stack. -/
def pop (s : State) : F64 × State :=
  match s.stk with
  | [] => (F64.zero false, s)
  | v :: rest => (v, { s with stk := rest })

/-- Push (R61): a capacity fault when the stack is full. -/
def push (v : F64) (s : State) : Except CapacityKind State :=
  if fits s.params.stackMax (s.stk.length + 1) then .ok { s with stk := v :: s.stk } else .error .stack

/-- The index an address names: a negative one is relative to the top (R63, R64). -/
def stackIndex (off i : Int) (s : State) : Int := if i < 0 then s.sp + i + off else i

/-- StackGet (R63). -/
def stackGet (i : Int) (s : State) : F64 :=
  let j := s.stackIndex s.params.negOffsetGet i
  if 0 ≤ j ∧ j ≤ s.sp then s.stk.getD (s.sp - j).toNat (F64.zero false) else F64.zero false

/-- StackSet (R64). -/
def stackSet (i : Int) (v : F64) (s : State) : State :=
  let j := s.stackIndex s.params.negOffsetSet i
  if 0 ≤ j ∧ j ≤ s.sp then { s with stk := s.stk.set (s.sp - j).toNat v } else s

/-! ## The grid -/

/-- GridRead on the state (R52); with no grid every coordinate is out of range. -/
def gridRead (s : State) (p : Pos) : Colour :=
  match s.grid with
  | some g => g.read p
  | none => 0

/-- The state with a grid written to `g` (R55); where the size changed, the scratch map has the new size and unspecified
contents (R56, I5). -/
def withGrid (s : State) (old g : Grid) : State :=
  if old.w = g.w ∧ old.h = g.h then { s with grid := some g }
  else { s with grid := some g, scratch := scratchFree g s.draws }

/-! ## The capacity fault -/

/-- Taking the capacity fault (R265): `s` is the state before the faulting work, which is undone; the cause is recorded. No
saved context, no vector, no mode (R265, R267). -/
def takeFault (s : State) (k : CapacityKind) : State := { s with fault := some k }

/-- Every piece of state except the grid at its reset value (R280); this is the only return from a fault (R266). The scratch
map becomes unspecified, for which one draw is taken. -/
def resetRegisters (s : State) (g : Grid) : State :=
  { s with
    ptr := ⟨0, 0⟩
    dir := s.params.resetDir
    run := .running
    fault := none
    ioMode := .character
    gfxMode := .palette16
    logFactor := F64.one
    angFactor := F64.one
    stk := []
    grid := some g
    scratch := scratchFree g s.draws
    output := []
    draws := s.draws + 1 }

/-! ## The end of a step -/

/-- The pointer is inside the grid. -/
def ptrInside (s : State) (p : Pos) : Bool :=
  match s.grid with
  | some g => g.inRange p
  | none => false

/-- Advance (R123), with the direction and the grid as the execute left them. -/
def advance (s : State) : State :=
  let p := s.ptr.add (mv s.dir)
  { s with ptr := p, run := if s.ptrInside p then s.run else .halted }

/-- The state that the execute of a step starts from: the fetch has written the scratch map (R31). -/
def afterFetch (s : State) (g : Grid) : State :=
  { s with scratch := scratchOf s.params g s.ptr s.dir s.draws }

/-- The end of a step that began in `s` and whose execute left `t` (R120): on a capacity fault the step is undone and the
cause recorded, else the pointer advances. The next step's free values are new draws. -/
def finish (s t : State) : State :=
  match t.fault with
  | some k => s.takeFault k
  | none => { t.advance with draws := t.draws + 1 }

/-- A STEP changes nothing (R124). -/
def stopped (s : State) : Bool := decide (s.run = .halted) || s.fault.isSome

end State

/-- What a meaning answers: the state its work left, or, where a primitive raised the capacity fault, the state `s` before it
with the fault taken (R120, R265). -/
def commit (s : State) (r : Except CapacityKind State) : Host.Outcome State Fault Refusal :=
  match r with
  | .ok t => .next t
  | .error k => .next (s.takeFault k)

/-- Push two values, the first one first. -/
def pushTwo (v w : F64) (s : State) : Except CapacityKind State :=
  match s.push v with
  | .ok t => t.push w
  | .error k => .error k

/-- GridWrite on the state (R55), after which `t` is the state to go on with; a fault undoes the work done since `s`. There is
no grid to write before the first INSTALL (R133). -/
def writeCell (s t : State) (p : Pos) (c : Colour) : Host.Outcome State Fault Refusal :=
  match t.grid with
  | none => .refused .notInstalled
  | some g =>
    match g.write t.params p c with
    | .ok g' => .next (t.withGrid g g')
    | .error k => .next (s.takeFault k)

namespace State

/-- The state with the line of codels that encodes a table word installed as the program, its pointer on that line, neither
halted nor faulted: the next step runs the word's instruction (log entries 7 and 8). -/
def loadWord (s : State) (nbits w : Nat) : State :=
  let n := tableParam nbits w
  let p := linePtr s.ptr s.dir n
  { s with
    ptr := p
    run := if s.run = .halted then .running else s.run
    fault := none
    grid := some (lineGrid (palette (tableOpcode nbits w)) p s.dir n) }

end State

end Sys2Proof.Machine
end

