-- ==== Sys2Proof/Machine/Operands.lean ====
section
/-! DEFINITION. The operand forms: one value popped, two popped with the second as the left operand (R217), the integer view of
the bitwise instructions (R161), stack addresses (R145), pixel coordinates (R183), mode numbers (R182, R188), colours of the
graphics modes (R189 to R192) and the free values an instruction takes. -/

namespace Sys2Proof.Machine

/-- Pop a, push f(a). -/
def unary (f : F64 → F64) (s : State) : Host.Outcome State Fault Refusal :=
  commit s (s.pop.2.push (f s.pop.1))

/-- Pop b, pop a, push f(a, b). -/
def binary (f : F64 → F64 → F64) (s : State) : Host.Outcome State Fault Refusal :=
  commit s (s.pop.2.pop.2.push (f s.pop.2.pop.1 s.pop.1))

/-- Push a value that is not made of popped ones. -/
def pushValue (v : F64) (s : State) : Host.Outcome State Fault Refusal := commit s (s.push v)

/-- The 64-bit two's-complement integer rnd(a) (R161). -/
def intView (a : F64) : BitVec 64 := BitVec.ofInt 64 (F64.rnd a)

/-- toF64 of a 64-bit two's-complement integer (R161). -/
def ofIntView (n : BitVec 64) : F64 := F64.ofInt n.toInt

/-- The internal stack address of a user-visible one (R145). -/
def stackAddress (u : F64) : Int := F64.rnd u - 1

/-- The internal coordinates of user-visible ones (R183). -/
def pixelPos (x y : F64) : Pos := ⟨F64.rnd x - 1, F64.rnd y - 1⟩

/-- The I/O mode a number selects (R182). -/
def ioModeOf (r : Int) : Option IoMode :=
  if r = 0 then some .character else if r = 1 then some .integer else if r = 2 then some .float else none

/-- The graphics mode a number selects (R188). -/
def gfxModeOf (r : Int) : Option GfxMode :=
  if r = 0 then some .palette16 else if r = 1 then some .grayscale else if r = 2 then some .bpp6
  else if r = 3 then some .bpp12 else if r = 4 then some .bpp18 else if r = 5 then some .bpp24 else none

/-- ENC(m, v) (R189, R190, R192). -/
def encodePixel (m : GfxMode) (v : F64) : Colour :=
  match m with
  | .palette16 => palette (F64.rnd v % 16).toNat
  | .grayscale => Config.encGray v
  | .bpp6 => Config.enc6 v
  | .bpp12 => Config.enc12 v
  | .bpp18 => Config.enc18 v
  | .bpp24 => Config.enc24 v

/-- DEC(m, c) (R189, R191, R192). -/
def decodePixel (m : GfxMode) (c : Colour) : F64 :=
  match m with
  | .palette16 => F64.ofInt (decodeOpcode c).toNat
  | .grayscale => Config.decGray c
  | .bpp6 => Config.dec6 c
  | .bpp12 => Config.dec12 c
  | .bpp18 => Config.dec18 c
  | .bpp24 => Config.dec24 c

namespace State

/-- The NaN an invalid operation of this step delivers: any NaN (I10, log entry 2). -/
def freeNaN (s : State) : F64 := F64.nanOf (Config.nanBits s.draws)

/-- The random source's draw in this step: any u with 0 ≤ u < 1 (R210, I9). -/
def randomDraw (s : State) : F64 := F64.unitOf (Config.randomBits s.draws)

/-- The input source's answer in this step: any value of the mode's kind, or `unavailable` (R181, I8). -/
def inputDraw (s : State) : InputAnswer :=
  if Config.inputReady s.draws then
    match s.ioMode with
    | .character => .code (Config.inputCode s.draws)
    | .integer => .int (Config.inputInt s.draws)
    | .float => .float (Config.inputFloat s.draws)
  else .unavailable

end State

/-- The value an answer pushes (R181). -/
def answerValue : InputAnswer → F64
  | .unavailable => F64.zero false
  | .code n => F64.ofInt n
  | .int z => F64.ofInt z
  | .float v => v

/-- The event PRINT emits for a value (R180); in Float mode a NaN is emitted as `nan`, since its payload is open (I10). -/
def printEvent (nan : F64) (m : IoMode) (v : F64) : OutEvent :=
  match m with
  | .character => .character (F64.rnd v)
  | .integer => .integer (F64.rnd v)
  | .float => .float (if F64.isNaN v then nan else v)

/-- The direction encoded 0 to 3 (R22). -/
def dirNumber : Dir → Nat
  | .down => 0
  | .right => 1
  | .up => 2
  | .left => 3

/-- The direction with a number, taken mod 4. -/
def dirOfNumber (n : Int) : Dir :=
  if n % 4 = 0 then .down else if n % 4 = 1 then .right else if n % 4 = 2 then .up else .left

/-- P_DEFLECT_TRUE_DELTA as a number. -/
def deltaNumber : Delta → Int
  | .minusOne => -1
  | .plusOne => 1

/-- The direction after DEFLECT with turn bit `t` (R252). -/
def deflected (prm : Params) (t : Bool) (d : Dir) : Dir :=
  dirOfNumber (dirNumber d + (if t then deltaNumber prm.deflectTrueDelta else -deltaNumber prm.deflectTrueDelta))

end Sys2Proof.Machine
end

