-- ==== Sys2Proof/Machine/Arith.lean ====
section
/-! DEFINITION. Opcodes 9 to B: RND, PUSH_IP, PUSH_SP, the roundings and the arithmetic (44_env_round_arith.md). -/

namespace Sys2Proof.Machine

/-- RND with the source's draw (R210). -/
def rndWith (u : F64) (s : State) : Host.Outcome State Fault Refusal := pushValue u s

/-- RND (R210): the draw is a free value in [0, 1). -/
def execRnd (s : State) : Host.Outcome State Fault Refusal := rndWith s.randomDraw s

/-- PUSH_IP (R211): x then y, 1-based, of the executing codel. -/
def execPushIp (s : State) : Host.Outcome State Fault Refusal :=
  commit s (pushTwo (F64.ofInt (s.ptr.x + 1)) (F64.ofInt (s.ptr.y + 1)) s)

/-- PUSH_SP (R212): sp + 1 before the push. -/
def execPushSp (s : State) : Host.Outcome State Fault Refusal := pushValue (F64.ofInt (s.sp + 1)) s

/-- ROUND (R213). -/
def execRound (s : State) : Host.Outcome State Fault Refusal := unary (fun a => F64.ofInt (F64.rnd a)) s

/-- FLOOR (R214). -/
def execFloor (s : State) : Host.Outcome State Fault Refusal := unary F64.floor s

/-- CEIL (R215). -/
def execCeil (s : State) : Host.Outcome State Fault Refusal := unary F64.ceil s

/-- TRUNC (R216). -/
def execTrunc (s : State) : Host.Outcome State Fault Refusal := unary F64.trunc s

/-- ADD (R218). -/
def execAdd (s : State) : Host.Outcome State Fault Refusal := binary (F64.add s.freeNaN) s

/-- SUB (R219). -/
def execSub (s : State) : Host.Outcome State Fault Refusal := binary (F64.sub s.freeNaN) s

/-- MUL (R220). -/
def execMul (s : State) : Host.Outcome State Fault Refusal := binary (F64.mul s.freeNaN) s

/-- DIV (R221). -/
def execDiv (s : State) : Host.Outcome State Fault Refusal := binary (F64.div s.freeNaN) s

end Sys2Proof.Machine
end

