-- ==== Sys2Proof/Machine/Flow.lean ====
section
/-! DEFINITION. Opcodes E and F: the reserved no-op, FORWARD, DEFLECT (46_reserved_flow.md). -/

namespace Sys2Proof.Machine

/-- RESERVED (R250): a no-op, not an illegal instruction. -/
def execReserved (s : State) : Host.Outcome State Fault Refusal := .next s

/-- FORWARD (R251): nothing besides the advance. -/
def execForward (s : State) : Host.Outcome State Fault Refusal := .next s

/-- DEFLECT (R252). -/
def execDeflect (t : Bool) (s : State) : Host.Outcome State Fault Refusal := .next { s with dir := deflected s.params t s.dir }

end Sys2Proof.Machine
end

