-- ==== Sys2Proof/Machine/InOut.lean ====
section
/-! DEFINITION. Opcodes 7 and 8: PRINT, INPUT, IOMODE, SET_PIXEL, GET_PIXEL, GFXMODE (43_io_graphics.md). -/

namespace Sys2Proof.Machine

/-- PRINT (R180); the NaN it emits for a NaN is the free one of the step (log entry 2). -/
def execPrint (s : State) : Host.Outcome State Fault Refusal :=
  .next { s.pop.2 with output := s.output ++ [printEvent s.freeNaN s.ioMode s.pop.1] }

/-- INPUT with the source's answer (R181). -/
def inputWith (ans : InputAnswer) (s : State) : Host.Outcome State Fault Refusal := pushValue (answerValue ans) s

/-- INPUT (R181): the answer is a free value of the mode's kind, or `unavailable`. -/
def execInput (s : State) : Host.Outcome State Fault Refusal := inputWith s.inputDraw s

/-- IOMODE (R182): an unsupported number leaves the mode as it is. -/
def execIomode (s : State) : Host.Outcome State Fault Refusal :=
  .next { s.pop.2 with ioMode := (ioModeOf (F64.rnd s.pop.1 - s.params.modeBase)).getD s.ioMode }

/-- SET_PIXEL (R184): pops y, then x, then the value. -/
def execSetPixel (s : State) : Host.Outcome State Fault Refusal :=
  writeCell s s.pop.2.pop.2.pop.2 (pixelPos s.pop.2.pop.1 s.pop.1) (encodePixel s.gfxMode s.pop.2.pop.2.pop.1)

/-- GET_PIXEL (R186): pops y, then x. -/
def execGetPixel (s : State) : Host.Outcome State Fault Refusal :=
  commit s (s.pop.2.pop.2.push (decodePixel s.gfxMode (s.gridRead (pixelPos s.pop.2.pop.1 s.pop.1))))

/-- GFXMODE (R188): an unsupported number leaves the mode as it is. -/
def execGfxmode (s : State) : Host.Outcome State Fault Refusal :=
  .next { s.pop.2 with gfxMode := (gfxModeOf (F64.rnd s.pop.1 - s.params.modeBase)).getD s.gfxMode }

end Sys2Proof.Machine
end

