-- ==== Sys2Proof/Machine/Logic.lean ====
section
/-! DEFINITION. Opcodes 4 to 6: PAUSE, the bitwise instructions and the comparisons against 0 (42_pause_logic_compare.md). -/

namespace Sys2Proof.Machine

/-- PAUSE (R160). -/
def execPause (s : State) : Host.Outcome State Fault Refusal := .next { s with run := .paused }

/-- NOT (R162). -/
def execNot (s : State) : Host.Outcome State Fault Refusal := unary (fun a => ofIntView (~~~intView a)) s

/-- AND (R163). -/
def execAnd (s : State) : Host.Outcome State Fault Refusal := binary (fun a b => ofIntView (intView a &&& intView b)) s

/-- OR (R164). -/
def execOr (s : State) : Host.Outcome State Fault Refusal := binary (fun a b => ofIntView (intView a ||| intView b)) s

/-- XOR (R165). -/
def execXor (s : State) : Host.Outcome State Fault Refusal := binary (fun a b => ofIntView (intView a ^^^ intView b)) s

/-- EQ (R167). -/
def execEq (s : State) : Host.Outcome State Fault Refusal := unary eqResult s

/-- LT (R168). -/
def execLt (s : State) : Host.Outcome State Fault Refusal := unary ltResult s

/-- GT (R169). -/
def execGt (s : State) : Host.Outcome State Fault Refusal := unary gtResult s

/-- SIGN (R170). -/
def execSign (s : State) : Host.Outcome State Fault Refusal := unary signResult s

end Sys2Proof.Machine
end

