-- ==== Sys2Proof/Machine/Math.lean ====
section
/-! DEFINITION. Opcodes C and D: square root, power, exponential, logarithm, trigonometry and the two factor registers
(45_math_trig.md). The functions F_POW to F_ATAN are open (R230). -/

namespace Sys2Proof.Machine

/-- SQRT (R231). -/
def execSqrt (s : State) : Host.Outcome State Fault Refusal := unary (F64.sqrt s.freeNaN) s

/-- POW (R232): the exponent is on top. -/
def execPow (s : State) : Host.Outcome State Fault Refusal := binary Config.pow s

/-- EXP (R233). -/
def execExp (s : State) : Host.Outcome State Fault Refusal := unary (fun a => Config.exp (F64.mul s.freeNaN a s.logFactor)) s

/-- LOG (R234). -/
def execLog (s : State) : Host.Outcome State Fault Refusal := unary (fun a => F64.div s.freeNaN (Config.ln a) s.logFactor) s

/-- LOGBASE (R235). -/
def execLogbase (n : Nat) (s : State) : Host.Outcome State Fault Refusal := .next { s with logFactor := Config.ln (F64.ofInt n) }

/-- SIN (R236). -/
def execSin (s : State) : Host.Outcome State Fault Refusal := unary (fun a => Config.sin (F64.mul s.freeNaN a s.angFactor)) s

/-- COS (R237). -/
def execCos (s : State) : Host.Outcome State Fault Refusal := unary (fun a => Config.cos (F64.mul s.freeNaN a s.angFactor)) s

/-- TAN (R238). -/
def execTan (s : State) : Host.Outcome State Fault Refusal := unary (fun a => Config.tan (F64.mul s.freeNaN a s.angFactor)) s

/-- ATN (R239). -/
def execAtn (s : State) : Host.Outcome State Fault Refusal := unary (fun a => F64.div s.freeNaN (Config.atan a) s.angFactor) s

/-- ANGBASE (R240). -/
def execAngbase (n : Nat) (s : State) : Host.Outcome State Fault Refusal :=
  .next { s with angFactor := F64.div s.freeNaN F64.twoPi (F64.ofInt n) }

end Sys2Proof.Machine
end

