-- ==== Sys2Proof/Machine/StackOps.lean ====
section
/-! DEFINITION. Opcodes 0 to 3: NOP, PUSH, DUP, SWAP, GET, SET (41_stack_ops.md). -/

namespace Sys2Proof.Machine

/-- NOP (R141). -/
def execNop (s : State) : Host.Outcome State Fault Refusal := .next s

/-- PUSH (R142). -/
def execPush (n : Nat) (s : State) : Host.Outcome State Fault Refusal := pushValue (F64.ofInt n) s

/-- DUP (R143). -/
def execDup (s : State) : Host.Outcome State Fault Refusal := commit s (pushTwo s.pop.1 s.pop.1 s.pop.2)

/-- SWAP (R144). -/
def execSwap (s : State) : Host.Outcome State Fault Refusal := commit s (pushTwo s.pop.1 s.pop.2.pop.1 s.pop.2.pop.2)

/-- GET (R146). -/
def execGet (s : State) : Host.Outcome State Fault Refusal :=
  commit s (s.pop.2.push (s.pop.2.stackGet (stackAddress s.pop.1)))

/-- SET (R147): the address is on top, the value below it. -/
def execSet (s : State) : Host.Outcome State Fault Refusal :=
  .next (s.pop.2.pop.2.stackSet (stackAddress s.pop.1) s.pop.2.pop.1)

end Sys2Proof.Machine
end

