-- ==== Sys2Proof/Machine/Dispatch.lean ====
section
/-! DEFINITION. The dispatcher (R121): one arm per instruction, each one call of its meaning. -/

namespace Sys2Proof.Machine

def exec (i : Instr) (s : State) : Host.Outcome State Fault Refusal :=
  match i with
  | .nop => Sys2Proof.Machine.execNop s
  | .push n => Sys2Proof.Machine.execPush n s
  | .dup => Sys2Proof.Machine.execDup s
  | .swap => Sys2Proof.Machine.execSwap s
  | .get => Sys2Proof.Machine.execGet s
  | .set => Sys2Proof.Machine.execSet s
  | .pause => Sys2Proof.Machine.execPause s
  | .not => Sys2Proof.Machine.execNot s
  | .and => Sys2Proof.Machine.execAnd s
  | .or => Sys2Proof.Machine.execOr s
  | .xor => Sys2Proof.Machine.execXor s
  | .eq => Sys2Proof.Machine.execEq s
  | .lt => Sys2Proof.Machine.execLt s
  | .gt => Sys2Proof.Machine.execGt s
  | .sign => Sys2Proof.Machine.execSign s
  | .print => Sys2Proof.Machine.execPrint s
  | .input => Sys2Proof.Machine.execInput s
  | .iomode => Sys2Proof.Machine.execIomode s
  | .setPixel => Sys2Proof.Machine.execSetPixel s
  | .getPixel => Sys2Proof.Machine.execGetPixel s
  | .gfxmode => Sys2Proof.Machine.execGfxmode s
  | .rnd => Sys2Proof.Machine.execRnd s
  | .pushIp => Sys2Proof.Machine.execPushIp s
  | .pushSp => Sys2Proof.Machine.execPushSp s
  | .round => Sys2Proof.Machine.execRound s
  | .floor => Sys2Proof.Machine.execFloor s
  | .ceil => Sys2Proof.Machine.execCeil s
  | .trunc => Sys2Proof.Machine.execTrunc s
  | .add => Sys2Proof.Machine.execAdd s
  | .sub => Sys2Proof.Machine.execSub s
  | .mul => Sys2Proof.Machine.execMul s
  | .div => Sys2Proof.Machine.execDiv s
  | .sqrt => Sys2Proof.Machine.execSqrt s
  | .pow => Sys2Proof.Machine.execPow s
  | .exp => Sys2Proof.Machine.execExp s
  | .log => Sys2Proof.Machine.execLog s
  | .logbase n => Sys2Proof.Machine.execLogbase n s
  | .sin => Sys2Proof.Machine.execSin s
  | .cos => Sys2Proof.Machine.execCos s
  | .tan => Sys2Proof.Machine.execTan s
  | .atn => Sys2Proof.Machine.execAtn s
  | .angbase n => Sys2Proof.Machine.execAngbase n s
  | .reserved => Sys2Proof.Machine.execReserved s
  | .forward => Sys2Proof.Machine.execForward s
  | .deflect t => Sys2Proof.Machine.execDeflect t s

end Sys2Proof.Machine
end

