-- ==== Sys2Proof/Machine/Step.lean ====
section
/-! DEFINITION. One STEP of the block (R120): fetch, execute and advance as one transition. -/

namespace Sys2Proof.Machine

/-- The end of a step that began in `s`, by what its execute answered (R120). -/
def settle (s : State) (r : Host.Outcome State Fault Refusal) : Host.Outcome State Fault Refusal :=
  match r with
  | .next t => .next (s.finish t)
  | .fault f => .fault f
  | .refused e => .refused e

/-- STEP (R120): refused before the first INSTALL (R133), without effect when halted or faulted (R124), as usual while Paused
(R125). -/
def step (s : State) : Host.Outcome State Fault Refusal :=
  match s.grid with
  | none => .refused .notInstalled
  | some g =>
    if s.stopped then .next s
    else
      match fetchInstr s.params g s.ptr s.dir with
      | .error .zeroParam => .refused .zeroParameter
      | .ok i => settle s (exec i (s.afterFetch g))

/-- The state whose next step fetches and runs the instruction of a table word (log entries 7 and 8). -/
def State.withFetchWord (s : State) (nbits w : Nat) : State := s.loadWord nbits w

end Sys2Proof.Machine
end

