-- ==== Sys2Proof/Machine/HostCommands.lean ====
section
/-! DEFINITION. What the host can do between steps: the commands INSTALL, RESET, RESUME and STEP (R120, R126 to R128, R133) and
the read-outs (R35, R129). -/

namespace Sys2Proof.Machine

/-- A command of the host. INSTALL gives its cells row by row, as numbers that must be 24-bit values (R126). -/
inductive Command where
  | install (w h : Nat) (rows : List (List Nat))
  | reset
  | resume
  | step
  deriving DecidableEq, Repr

/-- The request of an INSTALL is in order (R126): a W0×H0 array of 24-bit values, not empty, within the capacities. -/
def installOk (prm : Params) (w h : Nat) (rows : List (List Nat)) : Bool :=
  decide (1 ≤ w) && decide (1 ≤ h) && fits prm.gridMaxW w && fits prm.gridMaxH h && decide (rows.length = h) &&
    rows.all (fun row => decide (row.length = w) && row.all (fun c => decide (c < 2 ^ 24)))

/-- The cells of one row that are not background, from column `x` on. -/
def rowCells (y : Nat) : Nat → List Nat → CellMap Colour
  | _, [] => []
  | x, c :: r => if c = 0 then rowCells y (x + 1) r else ((y, x), BitVec.ofNat 24 c) :: rowCells y (x + 1) r

/-- The cells of all rows from row `y` on. -/
def rowsCells : Nat → List (List Nat) → CellMap Colour
  | _, [] => []
  | y, row :: r => rowCells y 0 row ++ rowsCells (y + 1) r

/-- The grid an INSTALL gives. -/
def installedGrid (w h : Nat) (rows : List (List Nat)) : Grid := ⟨w, h, rowsCells 0 rows⟩

/-- One command of the host. -/
def command (c : Command) (s : State) : Host.Outcome State Fault Refusal :=
  match c with
  | .install w h rows =>
    if installOk s.params w h rows then .next (s.resetRegisters (installedGrid w h rows)) else .refused .badInstall
  | .reset =>
    match s.grid with
    | some g => .next (s.resetRegisters g)
    | none => .refused .notInstalled
  | .resume =>
    match s.grid with
    | some _ => .next (if s.run = .paused then { s with run := .running } else s)
    | none => .refused .notInstalled
  | .step => Sys2Proof.Machine.step s

/-! ## Read-outs -/

/-- The run state's number on the read-out (R23). -/
def runNumber : RunState → Nat
  | .running => 0
  | .paused => 1
  | .halted => 2

/-- The fault's cause code (R262). -/
def faultCode : CapacityKind → Nat
  | .stack => 1
  | .grid => 2

/-- The I/O mode's number (R25). -/
def ioModeNumber (prm : Params) (m : IoMode) : Int :=
  prm.modeBase + match m with
    | .character => 0
    | .integer => 1
    | .float => 2

/-- The graphics mode's number (R26). -/
def gfxModeNumber (prm : Params) (m : GfxMode) : Int :=
  prm.modeBase + match m with
    | .palette16 => 0
    | .grayscale => 1
    | .bpp6 => 2
    | .bpp12 => 3
    | .bpp18 => 4
    | .bpp24 => 5

/-- The decoded-instruction read-out (R129): the fetch of the current state, while not halted. -/
def decodedReadout (s : State) : Option Decoded :=
  match s.grid with
  | some g => if s.run = .halted then none else some (fetch s.params g s.ptr s.dir)
  | none => none

/-- The scratch read-out (R35, R129): the map that the fetch of the current state leaves; while halted, where R129 names no
fetch, the map that State still holds (DESIGN CHOICE, log entry 25). -/
def scratchReadout (s : State) : Option (CellMap Int) :=
  match s.grid with
  | some g => some (if s.run = .halted then s.scratch else scratchOf s.params g s.ptr s.dir s.draws)
  | none => none

end Sys2Proof.Machine
end

