-- ==== Sys2Proof/Safety.lean ====
section
/-! DEFINITION. The terms the statements use: the invariant of the machine (R21, R24, R29, R30, R31), the popped operands, the
number a binary64 value stands for and correct rounding (R8, R217), 4-connected reach (R93), the selection of a mnemonic
(R101, R102), the state that a capacity fault or a reset leaves. -/

namespace Sys2Proof

namespace F64

/-- The value is a number. -/
def isFinite (a : F64) : Bool := decide (expField a ≠ 2047)

/-- The number a finite value stands for (0 for the others). -/
def val (a : F64) : ℚ :=
  match unpack a with
  | .fin s m e => (if s then -1 else 1) * (m : ℚ) * (2 : ℚ) ^ e
  | .nan => 0
  | .inf _ => 0

/-- `r` is `x` rounded to binary64 to nearest, ties to even (R8, R217): beyond the range an infinity of x's sign; else a finite
value of x's sign that no finite value is nearer than, and with an even last bit if another one is as near. -/
def RoundsTo (x : ℝ) (r : F64) : Prop :=
  ((2 : ℝ) ^ (1024 : ℕ) - 2 ^ (970 : ℕ) ≤ |x| → r = inf (neg r) ∧ (neg r = true ↔ x < 0)) ∧
  (|x| < (2 : ℝ) ^ (1024 : ℕ) - 2 ^ (970 : ℕ) →
    isFinite r = true ∧ (0 < x → neg r = false) ∧ (x < 0 → neg r = true) ∧
    (∀ y : F64, isFinite y = true → |(val r : ℝ) - x| ≤ |(val y : ℝ) - x|) ∧
    (∀ y : F64, isFinite y = true → val y ≠ val r → |(val y : ℝ) - x| = |(val r : ℝ) - x| → r.toNat % 2 = 0))

/-- a < 0 as IEEE-754 compares (R166). -/
def Negative (a : F64) : Prop := a = inf true ∨ (isFinite a = true ∧ val a < 0)

/-- a > 0 as IEEE-754 compares (R166). -/
def Positive (a : F64) : Prop := a = inf false ∨ (isFinite a = true ∧ 0 < val a)

/-- a = 0 as IEEE-754 compares (R166). -/
def IsZero (a : F64) : Prop := isFinite a = true ∧ val a = 0

end F64

/-- Every parameter from `lo` on selects `i` in the family of `op`, up to `hi` where there is one (R101, R102 with the default
P_SEL_OVERFLOW). -/
def SelectedBy (i : Instr) (op : Opcode) (lo : Nat) (hi : Option Nat) : Prop :=
  ∀ p t, lo ≤ p → (∀ m, hi = some m → p ≤ m) → decode .saturate ⟨op, p, t⟩ = .ok i

namespace Machine

/-- Reachable from `P` by steps to 4-neighbours over cells that `ok` admits (R93). -/
inductive Reaches (ok : Pos → Bool) (P : Pos) : Pos → Prop where
  | start : ok P = true → Reaches ok P P
  | next {q : Pos} (r : Pos) : Reaches ok P q → r ∈ neighbours q → ok r = true → Reaches ok P r

/-- The grid memory is in canonical form and within the capacities (R30, R55). -/
def Grid.ok (prm : Params) (g : Grid) : Bool := g.wf && fits prm.gridMaxW g.w && fits prm.gridMaxH g.h

/-- One step outside the grid (R21). -/
def Grid.justOutside (g : Grid) (p : Pos) : Prop :=
  ((p.x = -1 ∨ p.x = g.w) ∧ 0 ≤ p.y ∧ p.y < g.h) ∨ ((p.y = -1 ∨ p.y = g.h) ∧ 0 ≤ p.x ∧ p.x < g.w)

namespace State

/-- The value popped `k`-th, from 0: the k-th from the top, +0.0 once the stack is empty (R62). -/
def operand (s : State) (k : Nat) : F64 := s.stk.getD k (F64.zero false)

/-- The stack after `k` pops (R62). -/
def below (s : State) (k : Nat) : List F64 := s.stk.drop k

/-- The stack within its capacity, which is at least 1 (R61, R262). -/
def StackOk (s : State) : Prop := fits s.params.stackMax s.stk.length = true ∧ fits s.params.stackMax 1 = true

/-- What holds of every state the machine reaches: the stack is within its capacity (R29), the grid memory canonical and
within its capacities (R30), the pointer inside the grid, or one step outside it once halted (R21), a fault only where a step
could run (R265), the scratch map an array of the grid's size (R31). -/
structure Inv (s : State) : Prop where
  stackOk : s.StackOk
  gridOk : ∀ g, s.grid = some g → g.ok s.params = true
  inside : ∀ g, s.grid = some g → s.run ≠ .halted → g.inRange s.ptr = true
  outside : ∀ g, s.grid = some g → s.run = .halted → g.justOutside s.ptr
  faultOk : s.fault ≠ none → s.grid ≠ none ∧ s.run ≠ .halted
  scratchOk : ∀ g, s.grid = some g → CellMap.wf 0 g.w g.h s.scratch = true
  noGrid : s.grid = none → s.scratch = []

/-- A step of the block takes effect: a grid is installed, the block neither halted nor faulted (R120, R124, R133). -/
def Live (s : State) (g : Grid) : Prop := s.grid = some g ∧ s.run ≠ .halted ∧ s.fault = none

/-- Every piece of state but the grid, the scratch map and the model's draw counter as after a reset of `s` (R280); the
parameters stay. -/
def RegistersReset (s t : State) : Prop :=
  t.ptr = ⟨0, 0⟩ ∧ t.dir = s.params.resetDir ∧ t.run = .running ∧ t.fault = none ∧ t.ioMode = .character ∧
    t.gfxMode = .palette16 ∧ F64.val t.logFactor = 1 ∧ F64.val t.angFactor = 1 ∧ t.stk = [] ∧ t.output = [] ∧
    t.params = s.params

end State

/-- A quarter turn clockwise on the screen, toward the right-hand side (R252). -/
def clockwise : Dir → Dir
  | .down => .left
  | .right => .down
  | .up => .right
  | .left => .up

/-- A quarter turn counter-clockwise (R252). -/
def counterClockwise : Dir → Dir
  | .down => .right
  | .right => .up
  | .up => .left
  | .left => .down

/-- The values `E + k·l` with every earlier one on the way still matching, as the exclusion rule walks them (R91). -/
def WalkReaches (g : Grid) (c : Colour) (E l o : Pos) (k : Nat) : Prop :=
  1 ≤ k ∧ ∀ j, 1 ≤ j → j ≤ k → g.read (E.add (l.scale j)) = c ∧ g.read ((E.add (l.scale j)).add o) = c

/-- The log factor is its reset value or a natural logarithm that LOGBASE can store (R27). -/
def LogFactorOk (v : F64) : Prop := v = F64.one ∨ ∃ n : Nat, 5 ≤ n ∧ v = Config.ln (F64.ofInt n)

/-- A request of INSTALL that is in order (R126). -/
def InstallInOrder (prm : Params) (w h : Nat) (rows : List (List Nat)) : Prop :=
  1 ≤ w ∧ 1 ≤ h ∧ fits prm.gridMaxW w = true ∧ fits prm.gridMaxH h = true ∧ rows.length = h ∧
    ∀ row ∈ rows, row.length = w ∧ ∀ c ∈ row, c < 2 ^ 24

end Machine

end Sys2Proof
end

