-- ==== Sys2Proof/Certificates/Slice0/Obligations.lean ====
section
/-! DEFINITION. The statements for the provers, in the order of OBLIGATIONS.json. -/

open Sys2Proof Sys2Proof.Machine

/-! ## Reset and the host's commands -/

/-- The state after reset meets the invariant, and its registers hold their reset values, which they hold before the first
INSTALL by the model's choice (log entry 6); the parameters are the defaults of R5, the capacities among them the model's choice
(log entry 4); no grid is installed and a step is refused. -/
def Obligations.ResetStateMeetsInvariant : Prop :=
  State.reset.Inv ∧ State.reset.RegistersReset State.reset ∧ State.reset.params = Params.default ∧
    Params.default = ⟨none, none, none, .down, .saturate, 1, 0, .minusOne, .plusD, 0⟩ ∧ State.reset.grid = none ∧
    step State.reset = .refused .notInstalled

/-- R127 with R280: RESET gives every register its reset value and keeps the grid. -/
def Obligations.ResetRestoresRegistersAndKeepsGrid : Prop :=
  ∀ (s : State) (g : Grid), s.grid = some g →
    ∃ t, command .reset s = .next t ∧ s.RegistersReset t ∧ t.grid = some g

/-- R126: INSTALL replaces the grid cell by cell and resets; a request that is not in order is refused. That rows of another
shape than W0×H0 are not in order is the model's choice (log entry 18). -/
def Obligations.InstallReplacesGridAndResets : Prop :=
  ∀ (s : State) (w h : Nat) (rows : List (List Nat)),
    (InstallInOrder s.params w h rows →
      ∃ t g, command (.install w h rows) s = .next t ∧ s.RegistersReset t ∧ t.grid = some g ∧ g.w = w ∧ g.h = h ∧
        g.ok s.params = true ∧ ∀ x y : Nat, x < w → y < h → (g.read ⟨x, y⟩).toNat = (rows.getD y []).getD x 0) ∧
    (¬InstallInOrder s.params w h rows → command (.install w h rows) s = .refused .badInstall)

/-- R128, R133: RESUME sets Running from Paused and has no effect otherwise; STEP, RESET and RESUME before the first INSTALL
are refused. -/
def Obligations.ResumeAndCommandsBeforeInstall : Prop :=
  ∀ s : State,
    (s.grid ≠ none → s.run = .paused → command .resume s = .next { s with run := .running }) ∧
    (s.grid ≠ none → s.run ≠ .paused → command .resume s = .next s) ∧
    (s.grid = none → command .step s = .refused .notInstalled ∧ step s = .refused .notInstalled ∧
      command .reset s = .refused .notInstalled ∧ command .resume s = .refused .notInstalled)

/-- R124: a STEP while Halted or with a fault recorded changes nothing. -/
def Obligations.StoppedStepChangesNothing : Prop :=
  ∀ (s : State) (g : Grid), s.grid = some g → s.run = .halted ∨ s.fault ≠ none → step s = .next s

/-- R23, R24: only RESET and INSTALL leave Halted or clear the fault record. -/
def Obligations.HaltAndFaultEndOnlyByResetOrInstall : Prop :=
  ∀ (c : Command) (s t : State), command c s = .next t → c ≠ .reset → (∀ w h rows, c ≠ .install w h rows) →
    (s.run = .halted → t.run = .halted) ∧ (∀ k, s.fault = some k → t.fault = some k)

/-! ## The step -/

/-- R120: a step writes the fetch's scratch map, executes the decoded instruction, and then either, on a capacity fault, goes
back to the state before the step with the fault recorded, or advances. The draw counter is the model's own (log entry 1). -/
def Obligations.StepRunsDecodedInstruction : Prop :=
  ∀ (s : State) (g : Grid) (i : Instr) (t : State), s.Live g → fetchInstr s.params g s.ptr s.dir = .ok i →
    exec i { s with scratch := scratchOf s.params g s.ptr s.dir s.draws } = .next t →
      (∀ k, t.fault = some k → step s = .next { s with fault := some k }) ∧
      (t.fault = none →
        ∃ g', t.grid = some g' ∧ step s = .next
          { t with
            ptr := t.ptr.add (mv t.dir)
            run := if g'.inRange (t.ptr.add (mv t.dir)) then t.run else .halted
            draws := t.draws + 1 })

/-- R123: a step that no fault undoes moves the pointer by the motion vector of the direction it ends with, and ends Halted
exactly when the pointer is then outside the grid it ends with. -/
def Obligations.StepAdvancesAndHaltsOutside : Prop :=
  ∀ (s t : State) (g : Grid), s.Live g → step s = .next t → t.fault = none →
    ∃ g', t.grid = some g' ∧ t.ptr = s.ptr.add (mv t.dir) ∧ (t.run = .halted ↔ g'.inRange t.ptr = false)

/-- R104, R260: with a grid installed, every step of every state answers a next state: no codel is illegal and no
instruction stops the machine. -/
def Obligations.StepAlwaysAnswersNext : Prop :=
  ∀ (s : State) (g : Grid), s.grid = some g → ∃ t, step s = .next t

/-- R265: a step that records a fault leaves everything else as before the step, and no step after it has an effect. -/
def Obligations.FaultUndoesTheStepAndStops : Prop :=
  ∀ (s t : State) (g : Grid) (k : CapacityKind), s.Live g → step s = .next t → t.fault = some k →
    t = { s with fault := some k } ∧ step t = .next t

/-- R262: CapacityFault(Stack) is raised by PUSH, DUP, INPUT, RND, PUSH_IP and PUSH_SP alone, and by SWAP where the stack cannot
hold two values (log entry 13), CapacityFault(Grid) by SET_PIXEL alone, where the stack is within its capacity. -/
def Obligations.OnlyPushesAndSetPixelFault : Prop :=
  ∀ (i : Instr) (s t : State), s.StackOk → s.fault = none → exec i s = .next t →
    (t.fault = some .stack → (∃ n, i = .push n) ∨ i = .dup ∨ i = .input ∨ i = .rnd ∨ i = .pushIp ∨ i = .pushSp ∨
      (i = .swap ∧ fits s.params.stackMax 2 = false)) ∧
    (t.fault = some .grid → i = .setPixel)

/-- R125: a step while Paused does what it does while Running, and stays Paused unless it halts. -/
def Obligations.PausedStepsLikeRunning : Prop :=
  ∀ (s t : State) (g : Grid), s.Live g → s.run = .paused → step { s with run := .running } = .next t →
    step s = .next { t with run := if t.run = .halted then .halted else .paused }

/-- R36: what the scratch map holds changes nothing else in any step. -/
def Obligations.ScratchMapNeverMatters : Prop :=
  ∀ (s t : State) (m : CellMap Int), step s = .next t →
    ∃ u, step { s with scratch := m } = .next u ∧ { u with scratch := t.scratch } = t

/-- R34, R122: what each instruction leaves unchanged. The pointer, the parameters and the draw counter by all; the run state by
all but PAUSE, the direction by all but DEFLECT, each mode and factor by all but its own instruction, the output by all but
PRINT, the grid and the scratch map by all but SET_PIXEL, the stack by the instructions with no operand on it. The fault record
is R262's. -/
def Obligations.EachRegisterHasOneWriter : Prop :=
  ∀ (i : Instr) (s t : State), exec i s = .next t →
    t.ptr = s.ptr ∧ t.params = s.params ∧ t.draws = s.draws ∧
    (i ≠ .pause → t.run = s.run) ∧ ((∀ b, i ≠ .deflect b) → t.dir = s.dir) ∧
    (i ≠ .iomode → t.ioMode = s.ioMode) ∧ (i ≠ .gfxmode → t.gfxMode = s.gfxMode) ∧
    ((∀ n, i ≠ .logbase n) → t.logFactor = s.logFactor) ∧ ((∀ n, i ≠ .angbase n) → t.angFactor = s.angFactor) ∧
    (i ≠ .print → t.output = s.output) ∧ (i ≠ .setPixel → t.grid = s.grid ∧ t.scratch = s.scratch) ∧
    (i ∈ [.nop, .pause, .reserved, .forward] ∨ (∃ n, i = .logbase n ∨ i = .angbase n) ∨ (∃ b, i = .deflect b) →
      t.stk = s.stk)

/-- Every step keeps the invariant (R21, R29, R30, R31, R265), from every state that meets it. -/
def Obligations.StepKeepsInvariant : Prop :=
  ∀ s t : State, s.Inv → step s = .next t → t.Inv

/-- INSTALL, RESET and RESUME keep the invariant, from every state that meets it. -/
def Obligations.HostCommandsKeepInvariant : Prop :=
  ∀ (c : Command) (s t : State), c ≠ .step → s.Inv → command c s = .next t → t.Inv

/-- R27: with the default selection the log factor is 1.0 or F_LN(n) for an integer n of at least 5, step by step. -/
def Obligations.LogFactorStaysALogarithm : Prop :=
  ∀ s t : State, s.params.selOverflow = .saturate → LogFactorOk s.logFactor → step s = .next t → LogFactorOk t.logFactor

/-- R74, R286: the fetch after a SET_PIXEL, at the codel it wrote, sees the colour it wrote: the grid reads as that colour
there, and the opcode fetched is the colour's. -/
def Obligations.NextFetchSeesTheWrittenCodel : Prop :=
  ∀ (s t : State) (g : Grid), s.Inv → s.Live g → fetchInstr s.params g s.ptr s.dir = .ok .setPixel → step s = .next t →
    t.fault = none → t.run ≠ .halted → t.ptr = pixelPos (s.operand 1) (s.operand 0) →
    ∃ g', t.grid = some g' ∧ g'.read t.ptr = encodePixel s.gfxMode (s.operand 2) ∧
      (fetch t.params g' t.ptr t.dir).opcode = decodeOpcode (encodePixel s.gfxMode (s.operand 2))

/-! ## Decoding -/

/-- R82, R86: the level of every channel value, the 16 palette colours as R86 writes them, and the palette round trip. -/
def Obligations.ColourLevelsAndPaletteRoundTrip : Prop :=
  (∀ c : Nat, c < 256 → level c = [0, 0, 1, 1, 1, 2, 2, 3].getD (c / 32) 9) ∧
  (List.range 16).map palette =
    [0x000000, 0x0000AA, 0x00AA00, 0x00AAAA, 0xAA0000, 0xAA00AA, 0xAA5500, 0xAAAAAA,
      0x555555, 0x5555FF, 0x55FF55, 0x55FFFF, 0xFF5555, 0xFF55FF, 0xFFFF55, 0xFFFFFF] ∧
  (∀ i : Nat, i < 16 → (decodeOpcode (palette i)).toNat = i)

/-- R80: bits 23:21, 15:13 and 7:5 alone select the opcode. -/
def Obligations.OpcodeFromTopThreeBitsOfEachChannel : Prop :=
  ∀ c d : Colour, c.extractLsb 23 21 = d.extractLsb 23 21 → c.extractLsb 15 13 = d.extractLsb 15 13 →
    c.extractLsb 7 5 = d.extractLsb 7 5 → decodeOpcode c = decodeOpcode d

/-- R101, R102: the selected mnemonic has the codel's opcode and the parameter's place in the family, at most the last; the
parameter and the turn bit are its operands. -/
def Obligations.ParameterSelectsMnemonic : Prop :=
  ∀ d : Decoded, 1 ≤ d.param ∨ d.opcode = 0 →
    ∃ i, decode .saturate d = .ok i ∧ i.opcode = d.opcode ∧
      i.selector = min (max 1 d.param) ([1, 1, 2, 2, 1, 4, 4, 3, 3, 3, 4, 4, 5, 5, 1, 2].getD d.opcode.toNat 0) ∧
      (∀ n, i = .push n ∨ i = .logbase n ∨ i = .angbase n → n = d.param) ∧ (∀ t, i = .deflect t → t = d.turn)

/-- R101, R102, R106: decoding the encoding of a well-formed instruction gives it back, with every operand. The spec names the
selection `saturate` only; what `wrap` selects is the model's choice (log entry 5). -/
def Obligations.DecodeOfEncodeIsIdentity : Prop :=
  ∀ (sel : SelOverflow) (i : Instr), i.wellFormed sel = true → decode sel (encode i) = .ok i

/-- R104: every codel of every grid, in every direction and wherever the pointer is, decodes to a well-formed instruction. With
the selection `wrap`, which the spec does not name, both selection and well-formedness are the model's choice (log entry 5). -/
def Obligations.EveryCodelDecodes : Prop :=
  ∀ (prm : Params) (g : Grid) (P : Pos) (dir : Dir),
    ∃ i, fetchInstr prm g P dir = .ok i ∧ i.wellFormed prm.selOverflow = true

/-- The program of an instruction's table word is fetched as that instruction: palette colour, flood fill, turn bit and
selection together give back every well-formed instruction (but DEFLECT with a true turn bit, which a line of codels away from
the probe cannot show). The table word is the model's (log entries 7 and 8). -/
def Obligations.TableWordProgramIsFetched : Prop :=
  ∀ (s : State) (i : Instr) (nbits : Nat), s.params.selOverflow = .saturate → i.wellFormed .saturate = true →
    i.turn = false → tableWord i < 2 ^ nbits →
    decodeTableWord nbits (tableWord i) = some i ∧
    ∃ g, (s.withFetchWord nbits (tableWord i)).Live g ∧ g.inRange (s.withFetchWord nbits (tableWord i)).ptr = true ∧
      fetchInstr s.params g (s.withFetchWord nbits (tableWord i)).ptr s.dir = .ok i

/-- Colours and parameters written out from the spec's encodings decode to the instructions they stand for; and R87's map: each
of the 64 indices level(R)·16 + level(G)·4 + level(B) selects the opcode in whose row it stands (R87 derives it from R83, R84). -/
def Obligations.WrittenOutCodelsDecode : Prop :=
  (∀ row ∈ ([(0x0, [0]), (0x1, [1, 2, 6, 18, 22]), (0x2, [4, 8, 9, 24, 25]), (0x3, [5, 10, 26]), (0x4, [16, 32, 33, 37]),
      (0x5, [17, 34, 38]), (0x6, [20, 36, 40, 41]), (0x7, [42])] ++
      [(0x8, [21]), (0x9, [3, 7, 19, 23]), (0xA, [12, 13, 28, 29]), (0xB, [11, 14, 15, 27, 30, 31]), (0xC, [48, 49, 52, 53]),
      (0xD, [35, 39, 50, 51, 54, 55]), (0xE, [44, 45, 56, 57, 60, 61]), (0xF, [43, 46, 47, 58, 59, 62, 63])] :
      List (Opcode × List Nat)),
    ∀ idx ∈ row.2, ∀ c : Colour,
      level (c.extractLsb 23 16).toNat * 16 + level (c.extractLsb 15 8).toNat * 4 + level (c.extractLsb 7 0).toNat = idx →
        decodeOpcode c = row.1) ∧
  [0x1F1F1F, 0x202020, 0x123456, 0x0000A0, 0x404040, 0x9F9F9F, 0xDFDFDF, 0x60A0E0, 0xFF0000, 0xFF00FF, 0xFFFF00, 0xABCDEF].map
      (fun c => (decodeOpcode c).toNat) = [0, 0, 1, 1, 8, 8, 7, 11, 12, 13, 14, 15] ∧
  decode .saturate ⟨decodeOpcode 0x123456, 9, false⟩ = .ok (.push 9) ∧
  decode .saturate ⟨decodeOpcode 0x60A0E0, 3, true⟩ = .ok .mul ∧
  decode .saturate ⟨decodeOpcode 0xFF0000, 10, false⟩ = .ok (.logbase 10) ∧
  decode .saturate ⟨decodeOpcode 0xABCDEF, 50, true⟩ = .ok (.deflect true)

/-! ## The region analyzer and the turn bit -/

/-- R93: the flood visits, each once, exactly the cells of the pointer's 4-connected component among the in-range cells of its
colour that are not excluded; the parameter is their number. -/
def Obligations.FloodVisitsTheComponent : Prop :=
  ∀ (prm : Params) (g : Grid) (P : Pos) (dir : Dir), g.read P ≠ 0 →
    (region prm g P dir).Nodup ∧
    (∀ q, q ∈ region prm g P dir ↔ Reaches (floodable g (g.read P) (excluded prm g P dir)) P q) ∧
    (fetch prm g P dir).param = (region prm g P dir).length

/-- R94: the parameter is 0 exactly at the background colour, else at most W·H, and 1 at an isolated codel. -/
def Obligations.ParameterBoundsAndIsolatedCodel : Prop :=
  ∀ (prm : Params) (g : Grid) (P : Pos) (dir : Dir),
    ((fetch prm g P dir).param = 0 ↔ g.read P = 0) ∧ (fetch prm g P dir).param ≤ g.w * g.h ∧
    (g.read P ≠ 0 → (∀ e : Dir, g.read (P.add (mv e)) ≠ g.read P) → (fetch prm g P dir).param = 1)

/-- R91: a cell is excluded exactly if it is the behind or the ahead cell with the pointer's colour, or is reached from one of
them by a lateral walk along which every cell and its traced counterpart have that colour. That it lies in the grid and is not
the pointer's is what R91 itself derives from R52, R88 and R89. -/
def Obligations.ExclusionRuleMarksTheWalks : Prop :=
  ∀ (prm : Params) (g : Grid) (P : Pos) (dir : Dir) (q : Pos), g.read P ≠ 0 →
    (q ∈ excluded prm g P dir ↔
      ∃ E o, ((E = P.add (mv dir).neg ∧ o = mv dir) ∨
          (E = P.add (mv dir) ∧ o = if prm.aheadTraceOffset = .plusD then mv dir else (mv dir).neg)) ∧
        g.read E = g.read P ∧
        (q = E ∨ ∃ l ∈ [(⟨(mv dir).y, (mv dir).x⟩ : Pos), ⟨-(mv dir).y, -(mv dir).x⟩], ∃ k,
          WalkReaches g (g.read P) E l o k ∧ q = E.add (l.scale k))) ∧
    (q ∈ excluded prm g P dir → g.inRange q = true ∧ q ≠ P)

/-- R95: the turn bit compares the raw colours of the pointer and its right-hand neighbour; it selects no instruction and is an
operand in opcode F only. -/
def Obligations.TurnBitProbesTheRightHandNeighbour : Prop :=
  ∀ (prm : Params) (g : Grid) (x y : Int) (dir : Dir),
    ((fetch prm g ⟨x, y⟩ dir).turn = true ↔
      g.read (match dir with
        | .down => ⟨x - 1, y⟩
        | .right => ⟨x, y + 1⟩
        | .up => ⟨x + 1, y⟩
        | .left => ⟨x, y - 1⟩) = g.read ⟨x, y⟩) ∧
    ∀ (d : Decoded) (t : Bool), d.opcode ≠ 0xF → decode prm.selOverflow { d with turn := t } = decode prm.selOverflow d

/-- R31, R92, I4: whatever the visiting order, the scratch map of a fetch is an array of the grid's size that holds −1 at the
excluded cells, different ranks from 1 to the parameter at the visited ones, and 0 elsewhere. -/
def Obligations.ScratchMapHoldsRanksAndExclusions : Prop :=
  ∀ (prm : Params) (g : Grid) (P : Pos) (dir : Dir) (n : Nat),
    CellMap.wf 0 g.w g.h (scratchOf prm g P dir n) = true ∧
    (∀ q ∈ excluded prm g P dir, CellMap.find 0 (cellKey q) (scratchOf prm g P dir n) = -1) ∧
    (∀ q ∈ region prm g P dir, 1 ≤ CellMap.find 0 (cellKey q) (scratchOf prm g P dir n) ∧
      CellMap.find 0 (cellKey q) (scratchOf prm g P dir n) ≤ (region prm g P dir).length) ∧
    (∀ q ∈ region prm g P dir, ∀ r ∈ region prm g P dir,
      CellMap.find 0 (cellKey q) (scratchOf prm g P dir n) = CellMap.find 0 (cellKey r) (scratchOf prm g P dir n) → q = r) ∧
    (∀ q, g.inRange q = true → q ∉ excluded prm g P dir → q ∉ region prm g P dir →
      CellMap.find 0 (cellKey q) (scratchOf prm g P dir n) = 0)

/-! ## The two memories -/

/-- R52, R55: reading outside gives 0. A write at a negative coordinate changes nothing. Another one replaces each dimension by
`bigger` of it while it is insufficient, then writes; every other coordinate reads as before (new cells as the background); it
faults exactly if a grown dimension passes its capacity. -/
def Obligations.GridWriteGrowsThenWrites : Prop :=
  ∀ (prm : Params) (g : Grid) (p : Pos) (c : Colour), g.wf = true →
    (g.inRange p = false → g.read p = 0) ∧
    (p.x < 0 ∨ p.y < 0 → g.write prm p c = .ok g) ∧
    (0 ≤ p.x → 0 ≤ p.y →
      ∃ j k : Nat, p.x < (Grid.bigger^[j] g.w : Nat) ∧ (∀ i, i < j → (Grid.bigger^[i] g.w : Nat) ≤ p.x) ∧
        p.y < (Grid.bigger^[k] g.h : Nat) ∧ (∀ i, i < k → (Grid.bigger^[i] g.h : Nat) ≤ p.y) ∧
        (fits prm.gridMaxW (Grid.bigger^[j] g.w) = true → fits prm.gridMaxH (Grid.bigger^[k] g.h) = true →
          ∃ g', g.write prm p c = .ok g' ∧ g'.wf = true ∧ g'.w = Grid.bigger^[j] g.w ∧ g'.h = Grid.bigger^[k] g.h ∧
            g.w ≤ g'.w ∧ g.h ≤ g'.h ∧ g'.read p = c ∧ ∀ q, q ≠ p → g'.read q = g.read q) ∧
        (fits prm.gridMaxW (Grid.bigger^[j] g.w) = false ∨ fits prm.gridMaxH (Grid.bigger^[k] g.h) = false →
          g.write prm p c = .error .grid))

/-- R53, R54: `bigger` adds the largest power of two not above a sixth, below 6 it adds 1; it is strictly increasing. -/
def Obligations.BiggerAddsThePowerOfTwo : Prop :=
  (∀ x : Nat, 6 ≤ x → ∃ k, Grid.bigger x = x + 2 ^ k ∧ 2 ^ k ≤ x / 6 ∧ ∀ j, 2 ^ j ≤ x / 6 → j ≤ k) ∧
  (∀ x : Nat, x < 6 → Grid.bigger x = x + 1) ∧
  (∀ x y : Nat, x < y → Grid.bigger x < Grid.bigger y)

/-- R61, R62: a push appends its value, or raises the capacity fault exactly when the stack is full; a pop takes the top value
off and returns it, from the empty stack it returns +0.0 and changes nothing; the top index moves by one. R65's last-in
first-out law for one value: the pop undoes the push. -/
def Obligations.StackIsLastInFirstOut : Prop :=
  ∀ (s : State) (v : F64),
    (s.stk = [] → s.pop = (F64.zero false, s) ∧ s.sp = -1) ∧
    (∀ w rest, s.stk = w :: rest → s.pop = (w, { s with stk := rest }) ∧ s.pop.2.sp = s.sp - 1) ∧
    (fits s.params.stackMax (s.stk.length + 1) = true →
      ∃ t, s.push v = .ok t ∧ t = { s with stk := v :: s.stk } ∧ t.pop = (v, s) ∧ t.sp = s.sp + 1) ∧
    (fits s.params.stackMax (s.stk.length + 1) = false → s.push v = .error .stack)

/-- R63, R64, R65, with the stack read from the bottom: a get reads and a set writes the named cell, a negative address counts
from the top with its own offset, an address outside reads +0.0 and writes nothing, and nothing else changes. -/
def Obligations.StackGetAndSetByAddress : Prop :=
  ∀ (s : State) (i j : Int) (v : F64),
    (j = (if i < 0 then s.sp + i + s.params.negOffsetGet else i) →
      (0 ≤ j → j ≤ s.sp → s.stk.reverse[j.toNat]? = some (s.stackGet i)) ∧
      (¬(0 ≤ j ∧ j ≤ s.sp) → s.stackGet i = F64.zero false)) ∧
    (j = (if i < 0 then s.sp + i + s.params.negOffsetSet else i) →
      (0 ≤ j → j ≤ s.sp → s.stackSet i v = { s with stk := (s.stk.reverse.set j.toNat v).reverse }) ∧
      (¬(0 ≤ j ∧ j ≤ s.sp) → s.stackSet i v = s)) ∧
    (0 ≤ i → i ≤ s.sp → (s.stackSet i v).stackGet i = v)

/-! ## Numbers -/

/-- R10: rnd is the floor of the value plus one half, 0 for a NaN, saturating at the ends of the 64-bit integers. -/
def Obligations.RndIsFloorOfValuePlusHalf : Prop :=
  ∀ a : F64,
    (F64.isNaN a = true → F64.rnd a = 0) ∧ F64.rnd (F64.inf false) = 2 ^ 63 - 1 ∧ F64.rnd (F64.inf true) = -2 ^ 63 ∧
    (F64.isFinite a = true →
      (2 ^ 63 ≤ F64.val a → F64.rnd a = 2 ^ 63 - 1) ∧ (F64.val a ≤ -2 ^ 63 → F64.rnd a = -2 ^ 63) ∧
      (-2 ^ 63 < F64.val a → F64.val a < 2 ^ 63 → F64.rnd a = ⌊F64.val a + 1 / 2⌋))

/-- R8: an integer converts to the nearest binary64, ties to even, exactly up to 2^53. -/
def Obligations.IntegerConversionIsCorrectlyRounded : Prop :=
  ∀ n : Int, F64.RoundsTo (n : ℝ) (F64.ofInt n) ∧ (n.natAbs ≤ 2 ^ 53 → F64.val (F64.ofInt n) = n)

/-- R217, R218, R219: the sum and the difference of numbers are correctly rounded; an exact zero is −0 only if the operands
added are both negative, which is IEEE-754's rule and not the spec's (log entry 17). -/
def Obligations.AdditionIsCorrectlyRounded : Prop :=
  ∀ nan a b : F64, F64.isFinite a = true → F64.isFinite b = true →
    F64.RoundsTo ((F64.val a : ℝ) + F64.val b) (F64.add nan a b) ∧
    F64.RoundsTo ((F64.val a : ℝ) - F64.val b) (F64.sub nan a b) ∧
    (F64.val a + F64.val b = 0 → F64.add nan a b = F64.zero (F64.neg a && F64.neg b)) ∧
    (F64.val a - F64.val b = 0 → F64.sub nan a b = F64.zero (F64.neg a && !F64.neg b))

/-- R217, R220, R221: the product of numbers and their quotient by one that is not 0 are correctly rounded and have the sign of
the operands' signs, zeros included, which is IEEE-754's rule (log entry 17). -/
def Obligations.ProductAndQuotientAreCorrectlyRounded : Prop :=
  ∀ nan a b : F64, F64.isFinite a = true → F64.isFinite b = true →
    F64.RoundsTo ((F64.val a : ℝ) * F64.val b) (F64.mul nan a b) ∧
    F64.neg (F64.mul nan a b) = (F64.neg a != F64.neg b) ∧
    (F64.val b ≠ 0 →
      F64.RoundsTo ((F64.val a : ℝ) / F64.val b) (F64.div nan a b) ∧
      F64.neg (F64.div nan a b) = (F64.neg a != F64.neg b))

/-- R230, R231: the square root of a number is correctly rounded; of −0 it is −0, of +∞ it is +∞, of a negative value or a NaN
the NaN of the step: special values that R231 takes from general knowledge (log entry 17). -/
def Obligations.SquareRootIsCorrectlyRounded : Prop :=
  ∀ nan a : F64,
    (F64.isFinite a = true → 0 ≤ F64.val a → F64.RoundsTo (Real.sqrt (F64.val a : ℝ)) (F64.sqrt nan a)) ∧
    (F64.isFinite a = true → F64.val a = 0 → F64.sqrt nan a = a) ∧
    F64.sqrt nan (F64.inf false) = F64.inf false ∧
    (F64.Negative a ∨ F64.isNaN a = true → F64.sqrt nan a = nan)

/-- R217 where a NaN or an infinity is an operand, or a divisor is zero: ∞ − ∞, 0·∞, 0/0, ∞/∞ and every operation on a NaN
give the NaN of the step, x/±0 an infinity, the other cases an infinity or a zero, with the operands' signs. These are results
of IEEE-754, which R217 marks as general knowledge or leaves to it (log entry 17). -/
def Obligations.ArithmeticOnInfinitiesAndNaN : Prop :=
  ∀ (nan a b : F64) (s t : Bool),
    (F64.isNaN a = true ∨ F64.isNaN b = true →
      F64.add nan a b = nan ∧ F64.sub nan a b = nan ∧ F64.mul nan a b = nan ∧ F64.div nan a b = nan) ∧
    F64.add nan (F64.inf s) (F64.inf t) = (if s = t then F64.inf s else nan) ∧
    F64.sub nan (F64.inf s) (F64.inf t) = (if s = t then nan else F64.inf s) ∧
    F64.mul nan (F64.inf s) (F64.inf t) = F64.inf (s != t) ∧ F64.div nan (F64.inf s) (F64.inf t) = nan ∧
    (F64.isFinite a = true →
      F64.add nan (F64.inf s) a = F64.inf s ∧ F64.add nan a (F64.inf s) = F64.inf s ∧
      F64.sub nan (F64.inf s) a = F64.inf s ∧ F64.sub nan a (F64.inf s) = F64.inf (!s) ∧
      F64.mul nan (F64.inf s) a = (if F64.val a = 0 then nan else F64.inf (s != F64.neg a)) ∧
      F64.mul nan a (F64.inf s) = (if F64.val a = 0 then nan else F64.inf (F64.neg a != s)) ∧
      F64.div nan (F64.inf s) a = F64.inf (s != F64.neg a) ∧ F64.div nan a (F64.inf s) = F64.zero (F64.neg a != s) ∧
      F64.div nan a (F64.zero s) = (if F64.val a = 0 then nan else F64.inf (F64.neg a != s)))

/-- R214, R215, R216: the three roundings of a number are its floor, its ceiling and its integer part, with the number's sign;
infinities and NaNs are returned unchanged (general knowledge in the spec, log entry 17). -/
def Obligations.RoundingsToAnInteger : Prop :=
  ∀ a : F64,
    (F64.isFinite a = true →
      F64.isFinite (F64.floor a) = true ∧ F64.isFinite (F64.ceil a) = true ∧ F64.isFinite (F64.trunc a) = true ∧
      F64.val (F64.floor a) = ⌊F64.val a⌋ ∧ F64.val (F64.ceil a) = ⌈F64.val a⌉ ∧
      F64.val (F64.trunc a) = (if 0 ≤ F64.val a then ⌊F64.val a⌋ else ⌈F64.val a⌉ : ℤ) ∧
      F64.neg (F64.floor a) = F64.neg a ∧ F64.neg (F64.ceil a) = F64.neg a ∧ F64.neg (F64.trunc a) = F64.neg a) ∧
    (F64.isFinite a = false → F64.floor a = a ∧ F64.ceil a = a ∧ F64.trunc a = a)

/-- R230: the model's 2π (log entry 14) is twice the binary64 nearest to π. -/
def Obligations.TwoPiIsTwiceTheNearestToPi : Prop :=
  F64.RoundsTo Real.pi 0x400921FB54442D18 ∧ F64.val F64.twoPi = 2 * F64.val 0x400921FB54442D18

/-! ## The instructions: where each completes, with what result, and what it leaves unchanged -/

/-- R141, R250, R251: NOP, RESERVED and FORWARD change nothing. -/
def Obligations.NopReservedForwardChangeNothing : Prop :=
  SelectedBy .nop 0 0 none ∧ SelectedBy .reserved 0xE 1 none ∧ SelectedBy .forward 0xF 1 (some 1) ∧
  ∀ s : State, exec .nop s = .next s ∧ exec .reserved s = .next s ∧ exec .forward s = .next s

/-- R142: PUSH pushes its parameter; on a full stack it takes the capacity fault. -/
def Obligations.PushPushesItsParameter : Prop :=
  (∀ n t, 1 ≤ n → decode .saturate ⟨1, n, t⟩ = .ok (.push n)) ∧
  ∀ (s : State) (n : Nat),
    (fits s.params.stackMax (s.stk.length + 1) = true → exec (.push n) s = .next { s with stk := F64.ofInt n :: s.stk }) ∧
    (fits s.params.stackMax (s.stk.length + 1) = false → exec (.push n) s = .next { s with fault := some .stack })

/-- R143, R144: DUP doubles the top, or takes the capacity fault; SWAP exchanges the two top values, +0.0 standing in for each
one that is missing. Only where the stack cannot hold two values does a SWAP fault, by R61 (log entry 13). -/
def Obligations.DupAndSwap : Prop :=
  SelectedBy .dup 2 1 (some 1) ∧ SelectedBy .swap 2 2 none ∧
  ∀ s : State,
    (fits s.params.stackMax ((s.below 1).length + 2) = true →
      exec .dup s = .next { s with stk := s.operand 0 :: s.operand 0 :: s.below 1 }) ∧
    (fits s.params.stackMax ((s.below 1).length + 2) = false → exec .dup s = .next { s with fault := some .stack }) ∧
    (fits s.params.stackMax ((s.below 2).length + 2) = true →
      exec .swap s = .next { s with stk := s.operand 1 :: s.operand 0 :: s.below 2 }) ∧
    (fits s.params.stackMax ((s.below 2).length + 2) = false → exec .swap s = .next { s with fault := some .stack })

/-- R145, R146, R147: GET pushes the cell that the popped 1-based address names in the stack left after the pop; SET writes the
popped value there after both pops. -/
def Obligations.GetAndSetAddressTheStack : Prop :=
  SelectedBy .get 3 1 (some 1) ∧ SelectedBy .set 3 2 none ∧
  ∀ s : State,
    (s.StackOk → exec .get s =
      .next { s with stk := { s with stk := s.below 1 }.stackGet (F64.rnd (s.operand 0) - 1) :: s.below 1 }) ∧
    exec .set s = .next ({ s with stk := s.below 2 }.stackSet (F64.rnd (s.operand 0) - 1) (s.operand 1))

/-- R160: PAUSE sets Paused and nothing else. -/
def Obligations.PauseSetsPaused : Prop :=
  SelectedBy .pause 4 1 none ∧ ∀ s : State, exec .pause s = .next { s with run := .paused }

/-- R161 to R165: the bitwise instructions on the 64-bit two's-complement integers of the rounded operands. -/
def Obligations.BitwiseInstructionsOnRoundedIntegers : Prop :=
  SelectedBy .not 5 1 (some 1) ∧ SelectedBy .and 5 2 (some 2) ∧ SelectedBy .or 5 3 (some 3) ∧ SelectedBy .xor 5 4 none ∧
  ∀ s : State, s.StackOk →
    exec .not s = .next { s with stk := F64.ofInt (-F64.rnd (s.operand 0) - 1) :: s.below 1 } ∧
    ∃ n m : BitVec 64, n.toInt = F64.rnd (s.operand 1) ∧ m.toInt = F64.rnd (s.operand 0) ∧
      exec .and s = .next { s with stk := F64.ofInt (n &&& m).toInt :: s.below 2 } ∧
      exec .or s = .next { s with stk := F64.ofInt (n ||| m).toInt :: s.below 2 } ∧
      exec .xor s = .next { s with stk := F64.ofInt (n ^^^ m).toInt :: s.below 2 }

/-- R166 to R170: EQ, LT and GT push −1.0 or +0.0 by the comparison with 0; SIGN pushes ±1.0, or a zero or a NaN as it is. The
comparisons, −0.0 equal to 0 and NaN false, are IEEE-754's, which R166 marks as general knowledge (log entry 17). -/
def Obligations.ComparisonsAgainstZero : Prop :=
  SelectedBy .eq 6 1 (some 1) ∧ SelectedBy .lt 6 2 (some 2) ∧ SelectedBy .gt 6 3 (some 3) ∧ SelectedBy .sign 6 4 none ∧
  ∀ s : State, s.StackOk →
    ∃ e l g n : F64,
      exec .eq s = .next { s with stk := e :: s.below 1 } ∧ exec .lt s = .next { s with stk := l :: s.below 1 } ∧
      exec .gt s = .next { s with stk := g :: s.below 1 } ∧ exec .sign s = .next { s with stk := n :: s.below 1 } ∧
      (F64.IsZero (s.operand 0) → e = F64.ofInt (-1)) ∧ (¬F64.IsZero (s.operand 0) → e = F64.zero false) ∧
      (F64.Negative (s.operand 0) → l = F64.ofInt (-1)) ∧ (¬F64.Negative (s.operand 0) → l = F64.zero false) ∧
      (F64.Positive (s.operand 0) → g = F64.ofInt (-1)) ∧ (¬F64.Positive (s.operand 0) → g = F64.zero false) ∧
      (F64.Positive (s.operand 0) → n = F64.ofInt 1) ∧ (F64.Negative (s.operand 0) → n = F64.ofInt (-1)) ∧
      (¬F64.Positive (s.operand 0) → ¬F64.Negative (s.operand 0) → n = s.operand 0)

/-- R180: PRINT pops one value and appends one event in the current mode; in Float mode it emits some NaN for a NaN. -/
def Obligations.PrintAppendsOneEvent : Prop :=
  SelectedBy .print 7 1 (some 1) ∧
  ∀ s : State, ∃ nan, F64.isNaN nan = true ∧ exec .print s = .next
    { s with
      stk := s.below 1
      output := s.output ++ [match s.ioMode with
        | .character => .character (F64.rnd (s.operand 0))
        | .integer => .integer (F64.rnd (s.operand 0))
        | .float => .float (if F64.isNaN (s.operand 0) then nan else s.operand 0)] }

/-- R181: INPUT pushes the source's answer, a value of the mode's kind or +0.0, or takes the capacity fault. Which answer comes
is a free value of the model (log entry 10). -/
def Obligations.InputPushesAnAnswer : Prop :=
  SelectedBy .input 7 2 (some 2) ∧
  ∀ s : State,
    (fits s.params.stackMax (s.stk.length + 1) = true →
      ∃ v, exec .input s = .next { s with stk := v :: s.stk } ∧
        (v = F64.zero false ∨ (s.ioMode = .character ∧ ∃ n : Nat, v = F64.ofInt n) ∨
          (s.ioMode = .integer ∧ ∃ z : Int, v = F64.ofInt z) ∨ s.ioMode = .float)) ∧
    (fits s.params.stackMax (s.stk.length + 1) = false → exec .input s = .next { s with fault := some .stack })

/-- R182, R188: IOMODE and GFXMODE pop a number and select the mode with that number, from P_MODE_BASE on; another number
leaves the mode as it is. -/
def Obligations.ModeInstructionsSelectByNumber : Prop :=
  SelectedBy .iomode 7 3 none ∧ SelectedBy .gfxmode 8 3 none ∧
  ∀ (s : State) (r : Int), r = F64.rnd (s.operand 0) - s.params.modeBase →
    (∀ k : Nat, k < 3 → r = k →
      exec .iomode s = .next { s with stk := s.below 1, ioMode := [.character, .integer, .float].getD k .character }) ∧
    (¬(0 ≤ r ∧ r ≤ 2) → exec .iomode s = .next { s with stk := s.below 1 }) ∧
    (∀ k : Nat, k < 6 → r = k → exec .gfxmode s = .next
      { s with
        stk := s.below 1
        gfxMode := [.palette16, .grayscale, .bpp6, .bpp12, .bpp18, .bpp24].getD k .palette16 }) ∧
    (¬(0 ≤ r ∧ r ≤ 5) → exec .gfxmode s = .next { s with stk := s.below 1 })

/-- R183, R184: SET_PIXEL pops y, x and the value; it writes the encoded colour at the 0-based coordinates, growing the grid
first, writes nothing at a negative one, and takes the capacity fault if the growth would pass a capacity. Every other
coordinate reads as before, every other register is unchanged; the scratch map may change when the size does (R56). -/
def Obligations.SetPixelWritesOneCell : Prop :=
  SelectedBy .setPixel 8 1 (some 1) ∧
  ∀ (s : State) (g : Grid) (p : Pos) (c : Colour), s.grid = some g → g.wf = true →
    p = ⟨F64.rnd (s.operand 1) - 1, F64.rnd (s.operand 0) - 1⟩ → c = encodePixel s.gfxMode (s.operand 2) →
    (p.x < 0 ∨ p.y < 0 → exec .setPixel s = .next { s with stk := s.below 3 }) ∧
    (0 ≤ p.x → 0 ≤ p.y →
      (fits s.params.gridMaxW (Grid.grown p.x.toNat g.w) = true → fits s.params.gridMaxH (Grid.grown p.y.toNat g.h) = true →
        ∃ t g', exec .setPixel s = .next t ∧
          t = { s with stk := s.below 3, grid := some g', scratch := t.scratch } ∧
          (g'.w = g.w → g'.h = g.h → t.scratch = s.scratch) ∧
          g'.w = Grid.grown p.x.toNat g.w ∧ g'.h = Grid.grown p.y.toNat g.h ∧ p.x < g'.w ∧ p.y < g'.h ∧
          g'.read p = c ∧ ∀ q, q ≠ p → g'.read q = g.read q) ∧
      (fits s.params.gridMaxW (Grid.grown p.x.toNat g.w) = false ∨ fits s.params.gridMaxH (Grid.grown p.y.toNat g.h) = false →
        exec .setPixel s = .next { s with fault := some .grid }))

/-- R183, R186: GET_PIXEL pops y and x and pushes the decoded colour at the 0-based coordinates, the background outside the
grid. -/
def Obligations.GetPixelReadsOneCell : Prop :=
  SelectedBy .getPixel 8 2 (some 2) ∧
  ∀ (s : State) (g : Grid) (p : Pos), s.grid = some g → s.StackOk →
    p = ⟨F64.rnd (s.operand 1) - 1, F64.rnd (s.operand 0) - 1⟩ →
    exec .getPixel s = .next { s with stk := decodePixel s.gfxMode (g.read p) :: s.below 2 } ∧
    (g.inRange p = false → g.read p = 0)

/-- R190, R191: in Palette16 mode a value is written as the palette colour of its rounding modulo 16, and a colour is read as
its opcode. That reading the written colour gives the number back is what R191 itself derives from R190, R191 and R86. -/
def Obligations.Palette16WritesModulo16 : Prop :=
  ∀ v : F64, ∃ k : Nat, k < 16 ∧ (k : Int) = F64.rnd v % 16 ∧ encodePixel .palette16 v = palette k ∧
    decodePixel .palette16 (encodePixel .palette16 v) = F64.ofInt k ∧
    ∀ c, decodePixel .palette16 c = F64.ofInt (decodeOpcode c).toNat

/-- R210, R211, R212: RND pushes some u with 0 ≤ u < 1, PUSH_IP the 1-based x and then y of the executing codel, PUSH_SP the
number of values before the push; each takes the capacity fault where its pushes do not fit. Which u is a free value (log
entry 10). -/
def Obligations.EnvironmentInstructionsPush : Prop :=
  SelectedBy .rnd 9 1 (some 1) ∧ SelectedBy .pushIp 9 2 (some 2) ∧ SelectedBy .pushSp 9 3 none ∧
  ∀ s : State,
    (fits s.params.stackMax (s.stk.length + 1) = true →
      (∃ u, F64.isFinite u = true ∧ 0 ≤ F64.val u ∧ F64.val u < 1 ∧ exec .rnd s = .next { s with stk := u :: s.stk }) ∧
      exec .pushSp s = .next { s with stk := F64.ofInt s.stk.length :: s.stk }) ∧
    (fits s.params.stackMax (s.stk.length + 1) = false →
      exec .rnd s = .next { s with fault := some .stack } ∧ exec .pushSp s = .next { s with fault := some .stack }) ∧
    (fits s.params.stackMax (s.stk.length + 2) = true →
      exec .pushIp s = .next { s with stk := F64.ofInt (s.ptr.y + 1) :: F64.ofInt (s.ptr.x + 1) :: s.stk }) ∧
    (fits s.params.stackMax (s.stk.length + 2) = false → exec .pushIp s = .next { s with fault := some .stack })

/-- R213 to R221: the rounding and arithmetic instructions replace their operands, the second popped on the left, by the result
of the operation; the NaN of the step is some NaN. -/
def Obligations.RoundingAndArithmeticInstructions : Prop :=
  SelectedBy .round 0xA 1 (some 1) ∧ SelectedBy .floor 0xA 2 (some 2) ∧ SelectedBy .ceil 0xA 3 (some 3) ∧
  SelectedBy .trunc 0xA 4 none ∧ SelectedBy .add 0xB 1 (some 1) ∧ SelectedBy .sub 0xB 2 (some 2) ∧
  SelectedBy .mul 0xB 3 (some 3) ∧ SelectedBy .div 0xB 4 none ∧
  ∀ s : State, s.StackOk →
    exec .round s = .next { s with stk := F64.ofInt (F64.rnd (s.operand 0)) :: s.below 1 } ∧
    exec .floor s = .next { s with stk := F64.floor (s.operand 0) :: s.below 1 } ∧
    exec .ceil s = .next { s with stk := F64.ceil (s.operand 0) :: s.below 1 } ∧
    exec .trunc s = .next { s with stk := F64.trunc (s.operand 0) :: s.below 1 } ∧
    ∃ nan, F64.isNaN nan = true ∧
      exec .add s = .next { s with stk := F64.add nan (s.operand 1) (s.operand 0) :: s.below 2 } ∧
      exec .sub s = .next { s with stk := F64.sub nan (s.operand 1) (s.operand 0) :: s.below 2 } ∧
      exec .mul s = .next { s with stk := F64.mul nan (s.operand 1) (s.operand 0) :: s.below 2 } ∧
      exec .div s = .next { s with stk := F64.div nan (s.operand 1) (s.operand 0) :: s.below 2 }

/-- R231 to R234, R236 to R239: SQRT and POW; EXP and LOG scaled by the log factor; SIN, COS and TAN of the scaled angle, ATN
scaled back. The functions are open (R230). -/
def Obligations.PowerLogarithmAndTrigonometry : Prop :=
  SelectedBy .sqrt 0xC 1 (some 1) ∧ SelectedBy .pow 0xC 2 (some 2) ∧ SelectedBy .exp 0xC 3 (some 3) ∧
  SelectedBy .log 0xC 4 (some 4) ∧ SelectedBy .sin 0xD 1 (some 1) ∧ SelectedBy .cos 0xD 2 (some 2) ∧
  SelectedBy .tan 0xD 3 (some 3) ∧ SelectedBy .atn 0xD 4 (some 4) ∧
  ∀ s : State, s.StackOk →
    exec .pow s = .next { s with stk := Config.pow (s.operand 1) (s.operand 0) :: s.below 2 } ∧
    ∃ nan, F64.isNaN nan = true ∧
      exec .sqrt s = .next { s with stk := F64.sqrt nan (s.operand 0) :: s.below 1 } ∧
      exec .exp s = .next { s with stk := Config.exp (F64.mul nan (s.operand 0) s.logFactor) :: s.below 1 } ∧
      exec .log s = .next { s with stk := F64.div nan (Config.ln (s.operand 0)) s.logFactor :: s.below 1 } ∧
      exec .sin s = .next { s with stk := Config.sin (F64.mul nan (s.operand 0) s.angFactor) :: s.below 1 } ∧
      exec .cos s = .next { s with stk := Config.cos (F64.mul nan (s.operand 0) s.angFactor) :: s.below 1 } ∧
      exec .tan s = .next { s with stk := Config.tan (F64.mul nan (s.operand 0) s.angFactor) :: s.below 1 } ∧
      exec .atn s = .next { s with stk := F64.div nan (Config.atan (s.operand 0)) s.angFactor :: s.below 1 }

/-- R235, R240: LOGBASE stores the natural logarithm of its parameter, ANGBASE 2π divided by it, rounded; nothing else changes.
The model's 2π is log entry 14; a parameter beyond the range converts to +∞, and 2π/∞ = 0 is IEEE-754's (log entry 17). -/
def Obligations.BaseInstructionsWriteTheFactors : Prop :=
  (∀ n t, 5 ≤ n → decode .saturate ⟨0xC, n, t⟩ = .ok (.logbase n)) ∧
  (∀ n t, 5 ≤ n → decode .saturate ⟨0xD, n, t⟩ = .ok (.angbase n)) ∧
  ∀ (s : State) (n : Nat),
    exec (.logbase n) s = .next { s with logFactor := Config.ln (F64.ofInt n) } ∧
    ∃ q, exec (.angbase n) s = .next { s with angFactor := q } ∧
      (1 ≤ n → F64.isFinite (F64.ofInt n) = true → F64.RoundsTo ((F64.val F64.twoPi : ℝ) / F64.val (F64.ofInt n)) q) ∧
      (F64.isFinite (F64.ofInt n) = false → q = F64.zero false)

/-- R252: DEFLECT turns a quarter, clockwise on the screen if its turn bit is true and P_DEFLECT_TRUE_DELTA is −1, the other
way with the other bit or the other sign; nothing else changes. -/
def Obligations.DeflectTurnsAQuarter : Prop :=
  (∀ p t, 2 ≤ p → decode .saturate ⟨0xF, p, t⟩ = .ok (.deflect t)) ∧
  ∀ (s : State) (t : Bool),
    (s.params.deflectTrueDelta = .minusOne →
      exec (.deflect t) s = .next { s with dir := if t then clockwise s.dir else counterClockwise s.dir }) ∧
    (s.params.deflectTrueDelta = .plusOne →
      exec (.deflect t) s = .next { s with dir := if t then counterClockwise s.dir else clockwise s.dir })
end

