-- ==== Sys2Proof/Laws/CellMap.lean ====
section
/-! SUPPORT. The laws of the sparse arrays: read after write, the frame of a write, and that a write keeps the canonical form. -/

namespace Sys2Proof.CellMap

variable {α : Type}

theorem keyLt_iff (a b : Nat × Nat) : keyLt a b = true ↔ a.1 < b.1 ∨ (a.1 = b.1 ∧ a.2 < b.2) := by
  simp [keyLt]

theorem keyLt_irrefl (a : Nat × Nat) : keyLt a a = false := by simp [keyLt]

theorem keyLt_trans {a b c : Nat × Nat} (h : keyLt a b = true) (k : keyLt b c = true) : keyLt a c = true := by
  rw [keyLt_iff] at *; omega

theorem keyLt_total {a b : Nat × Nat} (h : a ≠ b) (k : keyLt a b = false) : keyLt b a = true := by
  have hk : ¬(a.1 < b.1 ∨ (a.1 = b.1 ∧ a.2 < b.2)) := by rw [← keyLt_iff]; simp [k]
  rw [keyLt_iff]
  have : a.1 = b.1 → a.2 ≠ b.2 := fun e e' => h (Prod.ext e e')
  omega

/-- A key below every key of the list is not in it. -/
theorem find_of_all_lt (blank : α) {k : Nat × Nat} {m : CellMap α} (h : m.all (fun e => keyLt k e.1) = true) :
    find blank k m = blank := by
  induction m with
  | nil => rfl
  | cons e r ih =>
    obtain ⟨k', v⟩ := e
    simp only [List.all_cons, Bool.and_eq_true] at h
    have hne : k ≠ k' := by rintro rfl; simp [keyLt_irrefl] at h
    simp [find, hne, ih h.2]

variable [DecidableEq α]

theorem wf_cons {blank : α} {w h : Nat} {k : Nat × Nat} {v : α} {r : CellMap α} :
    wf blank w h ((k, v) :: r) = true ↔
      (k.1 < h ∧ k.2 < w) ∧ v ≠ blank ∧ r.all (fun e => keyLt k e.1) = true ∧ wf blank w h r = true := by
  simp only [wf, Bool.and_eq_true, decide_eq_true_eq]; tauto

/-- The bounds of a canonical array may be widened. -/
theorem wf_mono {blank : α} {w h w' h' : Nat} {m : CellMap α} (hw : w ≤ w') (hh : h ≤ h') (hm : wf blank w h m = true) :
    wf blank w' h' m = true := by
  induction m with
  | nil => rfl
  | cons e r ih =>
    obtain ⟨k, v⟩ := e
    rw [wf_cons] at *
    exact ⟨⟨by omega, by omega⟩, hm.2.1, hm.2.2.1, ih hm.2.2.2⟩

/-- A write of another key than those above `k` keeps them above `k`. -/
theorem all_lt_put {blank : α} {k k' : Nat × Nat} {v : α} {m : CellMap α} (h : m.all (fun e => keyLt k e.1) = true)
    (hk : keyLt k k' = true) : (put blank k' v m).all (fun e => keyLt k e.1) = true := by
  induction m with
  | nil => by_cases hv : v = blank <;> simp [put, hv, hk]
  | cons e r ih =>
    obtain ⟨k'', v''⟩ := e
    rw [List.all_cons, Bool.and_eq_true] at h
    simp only [put]
    split
    · split
      · exact h.2
      · rw [List.all_cons, hk, h.2]; rfl
    · split
      · split <;> simp only [List.all_cons, hk, h.1, h.2, Bool.and_self]
      · rw [List.all_cons, h.1, ih h.2]; rfl

/-- A write in range keeps the canonical form. -/
theorem wf_put {blank : α} {w h : Nat} {k : Nat × Nat} {v : α} {m : CellMap α} (hm : wf blank w h m = true)
    (hk : k.1 < h ∧ k.2 < w) : wf blank w h (put blank k v m) = true := by
  induction m with
  | nil => by_cases hv : v = blank <;> simp [put, hv, wf, hk]
  | cons e r ih =>
    obtain ⟨k', v'⟩ := e
    obtain ⟨hr, hv', hlt, hwf⟩ := wf_cons.mp hm
    simp only [put]
    split
    · next heq =>
      subst heq
      split
      · exact hwf
      · next hv => exact wf_cons.mpr ⟨hk, hv, hlt, hwf⟩
    · next hne =>
      split
      · next hlt' =>
        split
        · exact hm
        · next hv =>
          refine wf_cons.mpr ⟨hk, hv, ?_, hm⟩
          simp only [List.all_cons, Bool.and_eq_true, hlt', true_and]
          rw [List.all_eq_true] at *
          exact fun e he => keyLt_trans hlt' (hlt e he)
      · next hnlt =>
        exact wf_cons.mpr ⟨hr, hv', all_lt_put hlt (keyLt_total hne (by simpa using hnlt)), ih hwf⟩

/-- Reading the written key gives the written value. -/
theorem find_put_same {blank : α} {w h : Nat} {k : Nat × Nat} {v : α} {m : CellMap α} (hm : wf blank w h m = true) :
    find blank k (put blank k v m) = v := by
  induction m with
  | nil => by_cases hv : v = blank <;> simp [put, hv, find]
  | cons e r ih =>
    obtain ⟨k', v'⟩ := e
    obtain ⟨hr, hv', hlt, hwf⟩ := wf_cons.mp hm
    simp only [put]
    split
    · next heq =>
      subst heq
      split
      · next hv => rw [find_of_all_lt _ hlt, hv]
      · simp [find]
    · next hne =>
      split
      · next hlt' =>
        split
        · next hv =>
          rw [hv]
          refine find_of_all_lt _ ?_
          simp only [List.all_cons, Bool.and_eq_true, hlt', true_and]
          rw [List.all_eq_true] at *
          exact fun e he => keyLt_trans hlt' (hlt e he)
        · simp [find]
      · simp [find, hne, ih hwf]

/-- A write leaves every other key alone. -/
theorem find_put_other {blank : α} {k k' : Nat × Nat} {v : α} {m : CellMap α} (hne : k' ≠ k) :
    find blank k' (put blank k v m) = find blank k' m := by
  induction m with
  | nil => by_cases hv : v = blank <;> simp [put, hv, find, hne]
  | cons e r ih =>
    obtain ⟨k'', v''⟩ := e
    simp only [put]
    split
    · next heq => subst heq; split <;> simp [find, hne]
    · split
      · split <;> simp [find, hne]
      · simp only [find]; split <;> simp [ih]

/-- Several writes in range keep the canonical form. -/
theorem wf_putAll {blank : α} {w h : Nat} {es : List ((Nat × Nat) × α)} {m : CellMap α} (hm : wf blank w h m = true)
    (hes : ∀ e ∈ es, e.1.1 < h ∧ e.1.2 < w) : wf blank w h (putAll blank es m) = true := by
  induction es generalizing m with
  | nil => exact hm
  | cons e r ih =>
    obtain ⟨k, v⟩ := e
    exact ih (wf_put hm (hes (k, v) (by simp))) (fun e he => hes e (by simp [he]))

/-- An unlisted key of a canonical array is out of range or blank: outside the bounds every key reads blank. -/
theorem find_out {blank : α} {w h : Nat} {k : Nat × Nat} {m : CellMap α} (hm : wf blank w h m = true)
    (hk : ¬(k.1 < h ∧ k.2 < w)) : find blank k m = blank := by
  induction m with
  | nil => rfl
  | cons e r ih =>
    obtain ⟨k', v⟩ := e
    obtain ⟨hr, -, -, hwf⟩ := wf_cons.mp hm
    have hne : k ≠ k' := by rintro rfl; exact hk hr
    simp [find, hne, ih hwf]

end Sys2Proof.CellMap
end

