-- ==== Sys2Proof/Laws/State.lean ====
section
/-! SUPPORT. What each named update of the state does to each field, so that no later proof unfolds a record update. -/

namespace Sys2Proof.Machine.State

/-! ## Taking the capacity fault -/

@[simp] theorem takeFault_ptr (s : State) (k : CapacityKind) : (s.takeFault k).ptr = s.ptr := rfl
@[simp] theorem takeFault_dir (s : State) (k : CapacityKind) : (s.takeFault k).dir = s.dir := rfl
@[simp] theorem takeFault_run (s : State) (k : CapacityKind) : (s.takeFault k).run = s.run := rfl
@[simp] theorem takeFault_fault (s : State) (k : CapacityKind) : (s.takeFault k).fault = some k := rfl
@[simp] theorem takeFault_ioMode (s : State) (k : CapacityKind) : (s.takeFault k).ioMode = s.ioMode := rfl
@[simp] theorem takeFault_gfxMode (s : State) (k : CapacityKind) : (s.takeFault k).gfxMode = s.gfxMode := rfl
@[simp] theorem takeFault_logFactor (s : State) (k : CapacityKind) : (s.takeFault k).logFactor = s.logFactor := rfl
@[simp] theorem takeFault_angFactor (s : State) (k : CapacityKind) : (s.takeFault k).angFactor = s.angFactor := rfl
@[simp] theorem takeFault_stk (s : State) (k : CapacityKind) : (s.takeFault k).stk = s.stk := rfl
@[simp] theorem takeFault_grid (s : State) (k : CapacityKind) : (s.takeFault k).grid = s.grid := rfl
@[simp] theorem takeFault_scratch (s : State) (k : CapacityKind) : (s.takeFault k).scratch = s.scratch := rfl
@[simp] theorem takeFault_output (s : State) (k : CapacityKind) : (s.takeFault k).output = s.output := rfl
@[simp] theorem takeFault_params (s : State) (k : CapacityKind) : (s.takeFault k).params = s.params := rfl
@[simp] theorem takeFault_draws (s : State) (k : CapacityKind) : (s.takeFault k).draws = s.draws := rfl
/-! ## The fetch's write of the scratch map -/

@[simp] theorem afterFetch_ptr (s : State) (g : Grid) : (s.afterFetch g).ptr = s.ptr := rfl
@[simp] theorem afterFetch_dir (s : State) (g : Grid) : (s.afterFetch g).dir = s.dir := rfl
@[simp] theorem afterFetch_run (s : State) (g : Grid) : (s.afterFetch g).run = s.run := rfl
@[simp] theorem afterFetch_fault (s : State) (g : Grid) : (s.afterFetch g).fault = s.fault := rfl
@[simp] theorem afterFetch_ioMode (s : State) (g : Grid) : (s.afterFetch g).ioMode = s.ioMode := rfl
@[simp] theorem afterFetch_gfxMode (s : State) (g : Grid) : (s.afterFetch g).gfxMode = s.gfxMode := rfl
@[simp] theorem afterFetch_logFactor (s : State) (g : Grid) : (s.afterFetch g).logFactor = s.logFactor := rfl
@[simp] theorem afterFetch_angFactor (s : State) (g : Grid) : (s.afterFetch g).angFactor = s.angFactor := rfl
@[simp] theorem afterFetch_stk (s : State) (g : Grid) : (s.afterFetch g).stk = s.stk := rfl
@[simp] theorem afterFetch_grid (s : State) (g : Grid) : (s.afterFetch g).grid = s.grid := rfl
@[simp] theorem afterFetch_scratch (s : State) (g : Grid) : (s.afterFetch g).scratch = scratchOf s.params g s.ptr s.dir s.draws := rfl
@[simp] theorem afterFetch_output (s : State) (g : Grid) : (s.afterFetch g).output = s.output := rfl
@[simp] theorem afterFetch_params (s : State) (g : Grid) : (s.afterFetch g).params = s.params := rfl
@[simp] theorem afterFetch_draws (s : State) (g : Grid) : (s.afterFetch g).draws = s.draws := rfl
/-! ## Pop -/

@[simp] theorem pop_snd_ptr (s : State) : s.pop.2.ptr = s.ptr := by unfold pop; split <;> rfl
@[simp] theorem pop_snd_dir (s : State) : s.pop.2.dir = s.dir := by unfold pop; split <;> rfl
@[simp] theorem pop_snd_run (s : State) : s.pop.2.run = s.run := by unfold pop; split <;> rfl
@[simp] theorem pop_snd_fault (s : State) : s.pop.2.fault = s.fault := by unfold pop; split <;> rfl
@[simp] theorem pop_snd_ioMode (s : State) : s.pop.2.ioMode = s.ioMode := by unfold pop; split <;> rfl
@[simp] theorem pop_snd_gfxMode (s : State) : s.pop.2.gfxMode = s.gfxMode := by unfold pop; split <;> rfl
@[simp] theorem pop_snd_logFactor (s : State) : s.pop.2.logFactor = s.logFactor := by unfold pop; split <;> rfl
@[simp] theorem pop_snd_angFactor (s : State) : s.pop.2.angFactor = s.angFactor := by unfold pop; split <;> rfl
@[simp] theorem pop_snd_stk (s : State) : s.pop.2.stk = s.stk.drop 1 := by unfold pop; split <;> simp_all
@[simp] theorem pop_snd_grid (s : State) : s.pop.2.grid = s.grid := by unfold pop; split <;> rfl
@[simp] theorem pop_snd_scratch (s : State) : s.pop.2.scratch = s.scratch := by unfold pop; split <;> rfl
@[simp] theorem pop_snd_output (s : State) : s.pop.2.output = s.output := by unfold pop; split <;> rfl
@[simp] theorem pop_snd_params (s : State) : s.pop.2.params = s.params := by unfold pop; split <;> rfl
@[simp] theorem pop_snd_draws (s : State) : s.pop.2.draws = s.draws := by unfold pop; split <;> rfl
theorem pop_fst (s : State) : s.pop.1 = s.stk.getD 0 (F64.zero false) := by unfold pop; split <;> simp_all
theorem pop_snd (s : State) : s.pop.2 = { s with stk := s.stk.drop 1 } := by
  unfold pop; split <;> rename_i h <;> cases s <;> simp_all
/-! ## StackSet -/

@[simp] theorem stackSet_ptr (i : Int) (v : F64) (s : State) : (s.stackSet i v).ptr = s.ptr := by
  simp only [stackSet]; split <;> rfl
@[simp] theorem stackSet_dir (i : Int) (v : F64) (s : State) : (s.stackSet i v).dir = s.dir := by
  simp only [stackSet]; split <;> rfl
@[simp] theorem stackSet_run (i : Int) (v : F64) (s : State) : (s.stackSet i v).run = s.run := by
  simp only [stackSet]; split <;> rfl
@[simp] theorem stackSet_fault (i : Int) (v : F64) (s : State) : (s.stackSet i v).fault = s.fault := by
  simp only [stackSet]; split <;> rfl
@[simp] theorem stackSet_ioMode (i : Int) (v : F64) (s : State) : (s.stackSet i v).ioMode = s.ioMode := by
  simp only [stackSet]; split <;> rfl
@[simp] theorem stackSet_gfxMode (i : Int) (v : F64) (s : State) : (s.stackSet i v).gfxMode = s.gfxMode := by
  simp only [stackSet]; split <;> rfl
@[simp] theorem stackSet_logFactor (i : Int) (v : F64) (s : State) : (s.stackSet i v).logFactor = s.logFactor := by
  simp only [stackSet]; split <;> rfl
@[simp] theorem stackSet_angFactor (i : Int) (v : F64) (s : State) : (s.stackSet i v).angFactor = s.angFactor := by
  simp only [stackSet]; split <;> rfl
@[simp] theorem stackSet_grid (i : Int) (v : F64) (s : State) : (s.stackSet i v).grid = s.grid := by
  simp only [stackSet]; split <;> rfl
@[simp] theorem stackSet_scratch (i : Int) (v : F64) (s : State) : (s.stackSet i v).scratch = s.scratch := by
  simp only [stackSet]; split <;> rfl
@[simp] theorem stackSet_output (i : Int) (v : F64) (s : State) : (s.stackSet i v).output = s.output := by
  simp only [stackSet]; split <;> rfl
@[simp] theorem stackSet_params (i : Int) (v : F64) (s : State) : (s.stackSet i v).params = s.params := by
  simp only [stackSet]; split <;> rfl
@[simp] theorem stackSet_draws (i : Int) (v : F64) (s : State) : (s.stackSet i v).draws = s.draws := by
  simp only [stackSet]; split <;> rfl
@[simp] theorem stackSet_length (i : Int) (v : F64) (s : State) : (s.stackSet i v).stk.length = s.stk.length := by
  simp only [stackSet]; split <;> simp
/-! ## A written grid -/

@[simp] theorem withGrid_ptr (s : State) (old g : Grid) : (s.withGrid old g).ptr = s.ptr := by
  simp only [withGrid]; split <;> rfl
@[simp] theorem withGrid_dir (s : State) (old g : Grid) : (s.withGrid old g).dir = s.dir := by
  simp only [withGrid]; split <;> rfl
@[simp] theorem withGrid_run (s : State) (old g : Grid) : (s.withGrid old g).run = s.run := by
  simp only [withGrid]; split <;> rfl
@[simp] theorem withGrid_fault (s : State) (old g : Grid) : (s.withGrid old g).fault = s.fault := by
  simp only [withGrid]; split <;> rfl
@[simp] theorem withGrid_ioMode (s : State) (old g : Grid) : (s.withGrid old g).ioMode = s.ioMode := by
  simp only [withGrid]; split <;> rfl
@[simp] theorem withGrid_gfxMode (s : State) (old g : Grid) : (s.withGrid old g).gfxMode = s.gfxMode := by
  simp only [withGrid]; split <;> rfl
@[simp] theorem withGrid_logFactor (s : State) (old g : Grid) : (s.withGrid old g).logFactor = s.logFactor := by
  simp only [withGrid]; split <;> rfl
@[simp] theorem withGrid_angFactor (s : State) (old g : Grid) : (s.withGrid old g).angFactor = s.angFactor := by
  simp only [withGrid]; split <;> rfl
@[simp] theorem withGrid_stk (s : State) (old g : Grid) : (s.withGrid old g).stk = s.stk := by
  simp only [withGrid]; split <;> rfl
@[simp] theorem withGrid_grid (s : State) (old g : Grid) : (s.withGrid old g).grid = some g := by
  simp only [withGrid]; split <;> rfl
theorem withGrid_scratch (s : State) (old g : Grid) :
    (s.withGrid old g).scratch = if old.w = g.w ∧ old.h = g.h then s.scratch else scratchFree g s.draws := by
  simp only [withGrid]; split <;> rfl
@[simp] theorem withGrid_output (s : State) (old g : Grid) : (s.withGrid old g).output = s.output := by
  simp only [withGrid]; split <;> rfl
@[simp] theorem withGrid_params (s : State) (old g : Grid) : (s.withGrid old g).params = s.params := by
  simp only [withGrid]; split <;> rfl
@[simp] theorem withGrid_draws (s : State) (old g : Grid) : (s.withGrid old g).draws = s.draws := by
  simp only [withGrid]; split <;> rfl
/-! ## The advance -/

@[simp] theorem advance_ptr (s : State) : s.advance.ptr = s.ptr.add (mv s.dir) := rfl
@[simp] theorem advance_dir (s : State) : s.advance.dir = s.dir := rfl
@[simp] theorem advance_run (s : State) : s.advance.run = if s.ptrInside (s.ptr.add (mv s.dir)) then s.run else .halted := rfl
@[simp] theorem advance_fault (s : State) : s.advance.fault = s.fault := rfl
@[simp] theorem advance_ioMode (s : State) : s.advance.ioMode = s.ioMode := rfl
@[simp] theorem advance_gfxMode (s : State) : s.advance.gfxMode = s.gfxMode := rfl
@[simp] theorem advance_logFactor (s : State) : s.advance.logFactor = s.logFactor := rfl
@[simp] theorem advance_angFactor (s : State) : s.advance.angFactor = s.angFactor := rfl
@[simp] theorem advance_stk (s : State) : s.advance.stk = s.stk := rfl
@[simp] theorem advance_grid (s : State) : s.advance.grid = s.grid := rfl
@[simp] theorem advance_scratch (s : State) : s.advance.scratch = s.scratch := rfl
@[simp] theorem advance_output (s : State) : s.advance.output = s.output := rfl
@[simp] theorem advance_params (s : State) : s.advance.params = s.params := rfl
@[simp] theorem advance_draws (s : State) : s.advance.draws = s.draws := rfl
/-! ## The end of a step -/

theorem finish_of_fault (s t : State) (k : CapacityKind) (h : t.fault = some k) : s.finish t = s.takeFault k := by
  simp [finish, h]
theorem finish_of_none (s t : State) (h : t.fault = none) : s.finish t = { t.advance with draws := t.draws + 1 } := by
  simp [finish, h]
/-! ## Reset -/

@[simp] theorem resetRegisters_ptr (s : State) (g : Grid) : (s.resetRegisters g).ptr = ⟨0, 0⟩ := rfl
@[simp] theorem resetRegisters_dir (s : State) (g : Grid) : (s.resetRegisters g).dir = s.params.resetDir := rfl
@[simp] theorem resetRegisters_run (s : State) (g : Grid) : (s.resetRegisters g).run = .running := rfl
@[simp] theorem resetRegisters_fault (s : State) (g : Grid) : (s.resetRegisters g).fault = none := rfl
@[simp] theorem resetRegisters_ioMode (s : State) (g : Grid) : (s.resetRegisters g).ioMode = .character := rfl
@[simp] theorem resetRegisters_gfxMode (s : State) (g : Grid) : (s.resetRegisters g).gfxMode = .palette16 := rfl
@[simp] theorem resetRegisters_logFactor (s : State) (g : Grid) : (s.resetRegisters g).logFactor = F64.one := rfl
@[simp] theorem resetRegisters_angFactor (s : State) (g : Grid) : (s.resetRegisters g).angFactor = F64.one := rfl
@[simp] theorem resetRegisters_stk (s : State) (g : Grid) : (s.resetRegisters g).stk = [] := rfl
@[simp] theorem resetRegisters_grid (s : State) (g : Grid) : (s.resetRegisters g).grid = some g := rfl
@[simp] theorem resetRegisters_scratch (s : State) (g : Grid) : (s.resetRegisters g).scratch = scratchFree g s.draws := rfl
@[simp] theorem resetRegisters_output (s : State) (g : Grid) : (s.resetRegisters g).output = [] := rfl
@[simp] theorem resetRegisters_params (s : State) (g : Grid) : (s.resetRegisters g).params = s.params := rfl
@[simp] theorem resetRegisters_draws (s : State) (g : Grid) : (s.resetRegisters g).draws = s.draws + 1 := rfl
/-! ## The program of a table word -/

@[simp] theorem withFetchWord_ptr (s : State) (nbits w : Nat) : (s.withFetchWord nbits w).ptr =
    linePtr s.ptr s.dir (tableParam nbits w) := rfl
@[simp] theorem withFetchWord_dir (s : State) (nbits w : Nat) : (s.withFetchWord nbits w).dir = s.dir := rfl
@[simp] theorem withFetchWord_run (s : State) (nbits w : Nat) : (s.withFetchWord nbits w).run =
    if s.run = .halted then .running else s.run := rfl
@[simp] theorem withFetchWord_fault (s : State) (nbits w : Nat) : (s.withFetchWord nbits w).fault =
    none := rfl
@[simp] theorem withFetchWord_ioMode (s : State) (nbits w : Nat) : (s.withFetchWord nbits w).ioMode = s.ioMode := rfl
@[simp] theorem withFetchWord_gfxMode (s : State) (nbits w : Nat) : (s.withFetchWord nbits w).gfxMode = s.gfxMode := rfl
@[simp] theorem withFetchWord_logFactor (s : State) (nbits w : Nat) : (s.withFetchWord nbits w).logFactor = s.logFactor := rfl
@[simp] theorem withFetchWord_angFactor (s : State) (nbits w : Nat) : (s.withFetchWord nbits w).angFactor = s.angFactor := rfl
@[simp] theorem withFetchWord_stk (s : State) (nbits w : Nat) : (s.withFetchWord nbits w).stk = s.stk := rfl
@[simp] theorem withFetchWord_grid (s : State) (nbits w : Nat) : (s.withFetchWord nbits w).grid =
    some (lineGrid (palette (tableOpcode nbits w)) (linePtr s.ptr s.dir (tableParam nbits w)) s.dir (tableParam nbits w)) := rfl
@[simp] theorem withFetchWord_scratch (s : State) (nbits w : Nat) : (s.withFetchWord nbits w).scratch = s.scratch := rfl
@[simp] theorem withFetchWord_output (s : State) (nbits w : Nat) : (s.withFetchWord nbits w).output = s.output := rfl
@[simp] theorem withFetchWord_params (s : State) (nbits w : Nat) : (s.withFetchWord nbits w).params = s.params := rfl
@[simp] theorem withFetchWord_draws (s : State) (nbits w : Nat) : (s.withFetchWord nbits w).draws = s.draws := rfl

end Sys2Proof.Machine.State
end

