-- ==== Sys2Proof/Laws/Ops.lean ====
section
/-! SUPPORT. One lemma per shared operation: what it answers where it succeeds, and everything it can answer. -/

namespace Sys2Proof.Machine

/-! ## Capacities -/

@[simp] theorem fits_none (n : Nat) : fits none n = true := rfl

@[simp] theorem fits_some (m n : Nat) : fits (some m) n = true ↔ n ≤ m := by simp [fits]

theorem fits_mono {limit : Option Nat} {m n : Nat} (h : fits limit n = true) (hle : m ≤ n) : fits limit m = true := by
  cases limit with
  | none => rfl
  | some k => rw [fits_some] at *; omega

/-! ## Popped operands -/

theorem pop_value (s : State) : s.pop.1 = s.operand 0 := State.pop_fst s

theorem pop_pop_value (s : State) : s.pop.2.pop.1 = s.operand 1 := by
  rw [State.pop_fst, State.pop_snd_stk]; simp [State.operand]

theorem pop_pop_pop_value (s : State) : s.pop.2.pop.2.pop.1 = s.operand 2 := by
  rw [State.pop_fst, State.pop_snd_stk, State.pop_snd_stk]; simp [State.operand]

theorem pop_state (s : State) : s.pop.2 = { s with stk := s.below 1 } := State.pop_snd s

theorem pop_pop_state (s : State) : s.pop.2.pop.2 = { s with stk := s.below 2 } := by
  rw [State.pop_snd, State.pop_snd]; simp [State.below]

theorem pop_pop_pop_state (s : State) : s.pop.2.pop.2.pop.2 = { s with stk := s.below 3 } := by
  rw [State.pop_snd, pop_pop_state]; simp [State.below]

theorem below_length (s : State) (k : Nat) : (s.below k).length = s.stk.length - k := by simp [State.below]

/-- A value takes the place of at least one popped value. -/
theorem fits_below {s : State} (h : s.StackOk) {k : Nat} (hk : 1 ≤ k) :
    fits s.params.stackMax ((s.below k).length + 1) = true := by
  rw [below_length]
  by_cases hl : s.stk.length = 0
  · simpa [hl] using h.2
  · exact fits_mono h.1 (by omega)

/-! ## Push and commit -/

theorem push_ok {s : State} (v : F64) (h : fits s.params.stackMax (s.stk.length + 1) = true) :
    s.push v = .ok { s with stk := v :: s.stk } := by simp [State.push, h]

theorem push_error {s : State} (v : F64) (h : fits s.params.stackMax (s.stk.length + 1) = false) :
    s.push v = .error .stack := by simp [State.push, h]

@[simp] theorem commit_ok (s t : State) : commit s (.ok t) = .next t := rfl

@[simp] theorem commit_error (s : State) (k : CapacityKind) : commit s (.error k) = .next (s.takeFault k) := rfl

/-- Everything `commit` can answer. -/
theorem commit_next {s t : State} {r : Except CapacityKind State} (h : commit s r = .next t) :
    r = .ok t ∨ ∃ k, r = .error k ∧ t = s.takeFault k := by
  cases r with
  | ok u => exact .inl (by simpa using h)
  | error k => exact .inr ⟨k, rfl, by simpa using h.symm⟩

theorem pushTwo_ok {s : State} (v w : F64) (h : fits s.params.stackMax (s.stk.length + 2) = true) :
    pushTwo v w s = .ok { s with stk := w :: v :: s.stk } := by
  have h1 := fits_mono h (by omega : s.stk.length + 1 ≤ s.stk.length + 2)
  simp only [pushTwo, push_ok v h1]
  exact push_ok (s := { s with stk := v :: s.stk }) w h

theorem pushTwo_error {s : State} (v w : F64) (h : fits s.params.stackMax (s.stk.length + 2) = false) :
    pushTwo v w s = .error .stack := by
  simp only [pushTwo]
  cases hf : fits s.params.stackMax (s.stk.length + 1) with
  | false => rw [push_error v hf]
  | true => rw [push_ok v hf]; exact push_error (s := { s with stk := v :: s.stk }) w h

/-! ## The operand forms -/

theorem unary_spec {s : State} (f : F64 → F64) (h : s.StackOk) :
    unary f s = .next { s with stk := f (s.operand 0) :: s.below 1 } := by
  simp only [unary, pop_value, pop_state]
  rw [push_ok _ (by simpa using fits_below h (k := 1) (by omega))]; rfl

theorem binary_spec {s : State} (f : F64 → F64 → F64) (h : s.StackOk) :
    binary f s = .next { s with stk := f (s.operand 1) (s.operand 0) :: s.below 2 } := by
  rw [binary, pop_pop_value, pop_value, pop_pop_state]
  rw [push_ok _ (by simpa using fits_below h (k := 2) (by omega))]; rfl

theorem pushValue_spec {s : State} (v : F64) (h : fits s.params.stackMax (s.stk.length + 1) = true) :
    pushValue v s = .next { s with stk := v :: s.stk } := by simp [pushValue, push_ok v h]

theorem pushValue_full {s : State} (v : F64) (h : fits s.params.stackMax (s.stk.length + 1) = false) :
    pushValue v s = .next (s.takeFault .stack) := by simp [pushValue, push_error v h]

/-- Everything a push of one value after pops can answer: a state that differs in the stack alone, or the fault. -/
theorem unary_next {s t : State} {f : F64 → F64} (h : unary f s = .next t) :
    t = { s with stk := f (s.operand 0) :: s.below 1 } ∨ t = s.takeFault .stack := by
  simp only [unary, pop_value, pop_state] at h
  cases hf : fits s.params.stackMax ((s.below 1).length + 1) with
  | true => rw [push_ok _ (by simpa using hf)] at h; exact .inl (by simpa using h.symm)
  | false => rw [push_error _ (by simpa using hf)] at h; exact .inr (by simpa using h.symm)

theorem binary_next {s t : State} {f : F64 → F64 → F64} (h : binary f s = .next t) :
    t = { s with stk := f (s.operand 1) (s.operand 0) :: s.below 2 } ∨ t = s.takeFault .stack := by
  rw [binary, pop_pop_value, pop_value, pop_pop_state] at h
  cases hf : fits s.params.stackMax ((s.below 2).length + 1) with
  | true => rw [push_ok _ (by simpa using hf)] at h; exact .inl (by simpa using h.symm)
  | false => rw [push_error _ (by simpa using hf)] at h; exact .inr (by simpa using h.symm)

theorem pushValue_next {s t : State} {v : F64} (h : pushValue v s = .next t) :
    t = { s with stk := v :: s.stk } ∨ t = s.takeFault .stack := by
  cases hf : fits s.params.stackMax (s.stk.length + 1) with
  | true => rw [pushValue_spec v hf] at h; exact .inl (by simpa using h.symm)
  | false => rw [pushValue_full v hf] at h; exact .inr (by simpa using h.symm)

/-! ## The grid -/

theorem inRange_iff (g : Grid) (p : Pos) :
    g.inRange p = true ↔ 0 ≤ p.x ∧ p.x < g.w ∧ 0 ≤ p.y ∧ p.y < g.h := by
  simp only [Grid.inRange, Bool.and_eq_true, decide_eq_true_eq]; tauto

theorem read_out {g : Grid} {p : Pos} (h : g.inRange p = false) : g.read p = 0 := by simp [Grid.read, h]

/-- The growth function never stands still. -/
theorem lt_bigger (x : Nat) : x < Grid.bigger x := by
  unfold Grid.bigger
  split
  · omega
  · have := Nat.two_pow_pos (x / 6).log2; omega

theorem le_growTo (n x w : Nat) : w ≤ Grid.growTo n x w := by
  induction n generalizing w with
  | zero => exact Nat.le_refl w
  | succ n ih =>
    simp only [Grid.growTo]
    split
    · exact Nat.le_trans (Nat.le_of_lt (lt_bigger w)) (ih _)
    · exact Nat.le_refl w

theorem lt_growTo {n x w : Nat} (h : x < w + n) : x < Grid.growTo n x w := by
  induction n generalizing w with
  | zero => simpa [Grid.growTo] using h
  | succ n ih =>
    simp only [Grid.growTo]
    split
    · exact ih (by have := lt_bigger w; omega)
    · omega

/-- Growing reaches the coordinate and never shrinks. -/
theorem grown_spec (x w : Nat) : x < Grid.grown x w ∧ w ≤ Grid.grown x w :=
  ⟨lt_growTo (by omega), le_growTo _ _ _⟩

/-- No growth where the coordinate is inside. -/
theorem grown_inside {x w : Nat} (h : x < w) : Grid.grown x w = w := by
  unfold Grid.grown Grid.growTo
  rw [if_neg (by omega)]

/-- Everything a grid write can do. -/
theorem write_cases (prm : Params) (g : Grid) (p : Pos) (c : Colour) :
    ((p.x < 0 ∨ p.y < 0) ∧ g.write prm p c = .ok g) ∨
    (0 ≤ p.x ∧ 0 ≤ p.y ∧ fits prm.gridMaxW (Grid.grown p.x.toNat g.w) = true ∧
      fits prm.gridMaxH (Grid.grown p.y.toNat g.h) = true ∧
      g.write prm p c = .ok ⟨Grid.grown p.x.toNat g.w, Grid.grown p.y.toNat g.h, CellMap.put 0 (cellKey p) c g.cells⟩) ∨
    (0 ≤ p.x ∧ 0 ≤ p.y ∧ ¬(fits prm.gridMaxW (Grid.grown p.x.toNat g.w) = true ∧
      fits prm.gridMaxH (Grid.grown p.y.toNat g.h) = true) ∧ g.write prm p c = .error .grid) := by
  unfold Grid.write
  by_cases hn : p.x < 0 ∨ p.y < 0
  · exact .inl ⟨hn, by simp [hn]⟩
  · refine .inr ?_
    rw [if_neg hn]
    by_cases hf : fits prm.gridMaxW (Grid.grown p.x.toNat g.w) = true ∧ fits prm.gridMaxH (Grid.grown p.y.toNat g.h) = true
    · exact .inl ⟨by omega, by omega, hf.1, hf.2, by simp [hf.1, hf.2]⟩
    · refine .inr ⟨by omega, by omega, hf, ?_⟩
      have hf' : (fits prm.gridMaxW (Grid.grown p.x.toNat g.w) && fits prm.gridMaxH (Grid.grown p.y.toNat g.h)) = false := by
        rw [Bool.eq_false_iff]; simpa using hf
      simp [hf']

/-- A grid write keeps the canonical form and the capacities. -/
theorem write_keeps_ok {prm : Params} {g g' : Grid} {p : Pos} {c : Colour} (hg : g.ok prm = true)
    (h : g.write prm p c = .ok g') : g'.ok prm = true := by
  rcases write_cases prm g p c with ⟨-, hw⟩ | ⟨hx, hy, hfw, hfh, hw⟩ | ⟨-, -, -, hw⟩
  · rw [hw] at h; obtain rfl : g = g' := by simpa using h
    exact hg
  · rw [hw] at h; obtain rfl : _ = g' := by simpa using h
    have hw' := grown_spec p.x.toNat g.w
    have hh' := grown_spec p.y.toNat g.h
    simp only [Grid.ok, Grid.wf, Bool.and_eq_true, decide_eq_true_eq] at hg ⊢
    exact ⟨⟨⟨⟨by omega, by omega⟩, CellMap.wf_put (CellMap.wf_mono hw'.2 hh'.2 hg.1.1.2) ⟨hh'.1, hw'.1⟩⟩, hfw⟩, hfh⟩
  · rw [hw] at h; simp at h

/-- A cell read after it is written, in a grid that has grown to contain it, gives the colour written. -/
theorem read_put_same {g : Grid} {p : Pos} {c : Colour} {w h : Nat} (hg : g.wf = true) (hx : 0 ≤ p.x) (hy : 0 ≤ p.y)
    (hw : p.x < w) (hh : p.y < h) : (Grid.mk w h (CellMap.put 0 (cellKey p) c g.cells)).read p = c := by
  simp only [Grid.wf, Bool.and_eq_true, decide_eq_true_eq] at hg
  rw [Grid.read, if_pos (by rw [inRange_iff]; exact ⟨hx, hw, hy, hh⟩)]
  exact CellMap.find_put_same hg.2

/-- Every other coordinate reads as before the growth and the write. -/
theorem read_put_other {g : Grid} {p q : Pos} {c : Colour} {w h : Nat} (hg : g.wf = true) (hx : 0 ≤ p.x) (hy : 0 ≤ p.y)
    (hw : g.w ≤ w) (hh : g.h ≤ h) (hq : q ≠ p) : (Grid.mk w h (CellMap.put 0 (cellKey p) c g.cells)).read q = g.read q := by
  simp only [Grid.wf, Bool.and_eq_true, decide_eq_true_eq] at hg
  unfold Grid.read
  by_cases h1 : (Grid.mk w h (CellMap.put 0 (cellKey p) c g.cells)).inRange q = true
  · have hk : cellKey q ≠ cellKey p := by
      intro e; apply hq
      rw [inRange_iff] at h1
      simp only [cellKey, Prod.mk.injEq] at e
      obtain ⟨qx, qy⟩ := q; obtain ⟨px, py⟩ := p
      simp only [Pos.mk.injEq] at *; omega
    rw [if_pos h1, CellMap.find_put_other hk]
    by_cases h2 : g.inRange q = true
    · rw [if_pos h2]
    · rw [if_neg h2]
      refine CellMap.find_out hg.2 ?_
      rw [inRange_iff] at h1 h2; simp only [cellKey] at *; omega
  · rw [if_neg h1, if_neg]
    rw [inRange_iff] at *; simp only at *; omega

/-- Everything a grid write of an instruction can answer. -/
theorem writeCell_next {s t u : State} {p : Pos} {c : Colour} (h : writeCell s t p c = .next u) :
    ∃ g, t.grid = some g ∧
      ((∃ g', g.write t.params p c = .ok g' ∧ u = t.withGrid g g') ∨ (g.write t.params p c = .error .grid ∧ u = s.takeFault .grid)) := by
  unfold writeCell at h
  split at h
  · simp at h
  · next g hg =>
    refine ⟨g, hg, ?_⟩
    rcases write_cases t.params g p c with ⟨-, hw⟩ | ⟨-, -, -, -, hw⟩ | ⟨-, -, -, hw⟩ <;> rw [hw] at h ⊢
    · exact .inl ⟨g, rfl, by simpa using h.symm⟩
    · exact .inl ⟨_, rfl, by simpa using h.symm⟩
    · exact .inr ⟨rfl, by simpa using h.symm⟩

/-! ## The free NaN -/

/-- Made of any bits, it is a NaN. -/
theorem nanOf_isNaN (b : BitVec 64) : F64.isNaN (F64.nanOf b) = true := by
  unfold F64.nanOf
  split
  · assumption
  · have hf : F64.fracField b < 2 ^ 52 := Nat.mod_lt _ (by norm_num)
    generalize hm : max 1 (F64.fracField b) = m
    have ht : (F64.ofParts (F64.neg b) (F64.infMag + m)).toNat = F64.infMag + m + if F64.neg b then 2 ^ 63 else 0 := by
      rw [F64.ofParts, BitVec.toNat_ofNat]
      apply Nat.mod_eq_of_lt
      unfold F64.infMag; split <;> omega
    unfold F64.isNaN F64.unpack F64.expField F64.fracField
    rw [ht]
    unfold F64.infMag
    rw [show (0x7FF0000000000000 + m + if F64.neg b = true then 2 ^ 63 else 0) / 2 ^ 52 % 2 ^ 11 = 2047 by split <;> omega,
      show (0x7FF0000000000000 + m + if F64.neg b = true then 2 ^ 63 else 0) % 2 ^ 52 = m by split <;> omega]
    simp; omega

/-- The NaN of a step is a NaN. -/
@[simp] theorem freeNaN_isNaN (s : State) : F64.isNaN s.freeNaN = true := nanOf_isNaN _

/-! ## The scratch maps -/

theorem cellKey_inRange {g : Grid} {p : Pos} (h : g.inRange p = true) : (cellKey p).1 < g.h ∧ (cellKey p).2 < g.w := by
  rw [inRange_iff] at h; simp only [cellKey]; omega

/-- An unspecified scratch map is an array of the grid's size. -/
theorem scratchFree_wf (g : Grid) (n : Nat) : CellMap.wf 0 g.w g.h (scratchFree g n) = true := by
  refine CellMap.wf_putAll rfl fun e he => ?_
  simpa using (List.mem_filter.mp he).2

/-! ## The step -/

@[simp] theorem settle_next (s t : State) : settle s (.next t) = .next (s.finish t) := rfl

/-- Everything `settle` can answer with a next state. -/
theorem settle_eq_next {s u : State} {r : Host.Outcome State Fault Refusal} (h : settle s r = .next u) :
    ∃ t, r = .next t ∧ u = s.finish t := by
  cases r with
  | next t => exact ⟨t, rfl, by simpa using h.symm⟩
  | fault f => simp [settle] at h
  | refused e => simp [settle] at h

/-- Everything a step can do when it answers a next state: nothing (R124), or the decoded instruction and then the end of the
step (R120). -/
theorem step_cases {s t : State} (h : step s = .next t) :
    ∃ g, s.grid = some g ∧
      ((s.stopped = true ∧ t = s) ∨
        (s.stopped = false ∧ ∃ i u, fetchInstr s.params g s.ptr s.dir = .ok i ∧ exec i (s.afterFetch g) = .next u ∧
          t = s.finish u)) := by
  unfold step at h
  split at h
  · simp at h
  · next g hg =>
    refine ⟨g, hg, ?_⟩
    split at h
    · next hs => exact .inl ⟨hs, by simpa using h.symm⟩
    · next hs =>
      refine .inr ⟨by simpa using hs, ?_⟩
      split at h
      · simp at h
      · next i hi =>
        obtain ⟨u, hu, rfl⟩ := settle_eq_next h
        exact ⟨i, u, hi, hu, rfl⟩

/-- A step with a grid installed, not stopped, of a decoded instruction. -/
theorem step_of_fetch {s : State} {g : Grid} {i : Instr} (hg : s.grid = some g) (hs : s.stopped = false)
    (hi : fetchInstr s.params g s.ptr s.dir = .ok i) : step s = settle s (exec i (s.afterFetch g)) := by
  simp [step, hg, hs, hi]

end Sys2Proof.Machine
end

