-- ==== Sys2Proof/Laws/Meanings.lean ====
section
/-! SUPPORT. What the dispatcher does for each instruction, in terms of the shared operations, and, said once for all 45, every
effect an instruction can have on the state. -/

namespace Sys2Proof.Machine

theorem exec_nop (s : State) : exec .nop s = .next s := rfl

theorem exec_push (n : Nat) (s : State) : exec (.push n) s = pushValue (F64.ofInt n) s := rfl

theorem exec_dup (s : State) : exec .dup s = commit s (pushTwo s.pop.1 s.pop.1 s.pop.2) := rfl

theorem exec_swap (s : State) : exec .swap s = commit s (pushTwo s.pop.1 s.pop.2.pop.1 s.pop.2.pop.2) := rfl

theorem exec_get (s : State) : exec .get s = commit s (s.pop.2.push (s.pop.2.stackGet (stackAddress s.pop.1))) := rfl

theorem exec_set (s : State) : exec .set s = .next (s.pop.2.pop.2.stackSet (stackAddress s.pop.1) s.pop.2.pop.1) := rfl

theorem exec_pause (s : State) : exec .pause s = .next { s with run := .paused } := rfl

theorem exec_not (s : State) : exec .not s = unary (fun a => ofIntView (~~~intView a)) s := rfl

theorem exec_and (s : State) : exec .and s = binary (fun a b => ofIntView (intView a &&& intView b)) s := rfl

theorem exec_or (s : State) : exec .or s = binary (fun a b => ofIntView (intView a ||| intView b)) s := rfl

theorem exec_xor (s : State) : exec .xor s = binary (fun a b => ofIntView (intView a ^^^ intView b)) s := rfl

theorem exec_eq (s : State) : exec .eq s = unary eqResult s := rfl

theorem exec_lt (s : State) : exec .lt s = unary ltResult s := rfl

theorem exec_gt (s : State) : exec .gt s = unary gtResult s := rfl

theorem exec_sign (s : State) : exec .sign s = unary signResult s := rfl

theorem exec_print (s : State) : exec .print s =
    .next { s.pop.2 with output := s.output ++ [printEvent s.freeNaN s.ioMode s.pop.1] } := rfl

theorem exec_input (s : State) : exec .input s = inputWith s.inputDraw s := rfl

theorem exec_iomode (s : State) : exec .iomode s =
    .next { s.pop.2 with ioMode := (ioModeOf (F64.rnd s.pop.1 - s.params.modeBase)).getD s.ioMode } := rfl

theorem exec_setPixel (s : State) : exec .setPixel s =
    writeCell s s.pop.2.pop.2.pop.2 (pixelPos s.pop.2.pop.1 s.pop.1) (encodePixel s.gfxMode s.pop.2.pop.2.pop.1) := rfl

theorem exec_getPixel (s : State) : exec .getPixel s =
    commit s (s.pop.2.pop.2.push (decodePixel s.gfxMode (s.gridRead (pixelPos s.pop.2.pop.1 s.pop.1)))) := rfl

theorem exec_gfxmode (s : State) : exec .gfxmode s =
    .next { s.pop.2 with gfxMode := (gfxModeOf (F64.rnd s.pop.1 - s.params.modeBase)).getD s.gfxMode } := rfl

theorem exec_rnd (s : State) : exec .rnd s = rndWith s.randomDraw s := rfl

theorem exec_pushIp (s : State) : exec .pushIp s =
    commit s (pushTwo (F64.ofInt (s.ptr.x + 1)) (F64.ofInt (s.ptr.y + 1)) s) := rfl

theorem exec_pushSp (s : State) : exec .pushSp s = pushValue (F64.ofInt (s.sp + 1)) s := rfl

theorem exec_round (s : State) : exec .round s = unary (fun a => F64.ofInt (F64.rnd a)) s := rfl

theorem exec_floor (s : State) : exec .floor s = unary F64.floor s := rfl

theorem exec_ceil (s : State) : exec .ceil s = unary F64.ceil s := rfl

theorem exec_trunc (s : State) : exec .trunc s = unary F64.trunc s := rfl

theorem exec_add (s : State) : exec .add s = binary (F64.add s.freeNaN) s := rfl

theorem exec_sub (s : State) : exec .sub s = binary (F64.sub s.freeNaN) s := rfl

theorem exec_mul (s : State) : exec .mul s = binary (F64.mul s.freeNaN) s := rfl

theorem exec_div (s : State) : exec .div s = binary (F64.div s.freeNaN) s := rfl

theorem exec_sqrt (s : State) : exec .sqrt s = unary (F64.sqrt s.freeNaN) s := rfl

theorem exec_pow (s : State) : exec .pow s = binary Config.pow s := rfl

theorem exec_exp (s : State) : exec .exp s = unary (fun a => Config.exp (F64.mul s.freeNaN a s.logFactor)) s := rfl

theorem exec_log (s : State) : exec .log s = unary (fun a => F64.div s.freeNaN (Config.ln a) s.logFactor) s := rfl

theorem exec_logbase (n : Nat) (s : State) : exec (.logbase n) s =
    .next { s with logFactor := Config.ln (F64.ofInt n) } := rfl

theorem exec_sin (s : State) : exec .sin s = unary (fun a => Config.sin (F64.mul s.freeNaN a s.angFactor)) s := rfl

theorem exec_cos (s : State) : exec .cos s = unary (fun a => Config.cos (F64.mul s.freeNaN a s.angFactor)) s := rfl

theorem exec_tan (s : State) : exec .tan s = unary (fun a => Config.tan (F64.mul s.freeNaN a s.angFactor)) s := rfl

theorem exec_atn (s : State) : exec .atn s = unary (fun a => F64.div s.freeNaN (Config.atan a) s.angFactor) s := rfl

theorem exec_angbase (n : Nat) (s : State) : exec (.angbase n) s =
    .next { s with angFactor := F64.div s.freeNaN F64.twoPi (F64.ofInt n) } := rfl

theorem exec_reserved (s : State) : exec .reserved s = .next s := rfl

theorem exec_forward (s : State) : exec .forward s = .next s := rfl

theorem exec_deflect (t : Bool) (s : State) : exec (.deflect t) s = .next { s with dir := deflected s.params t s.dir } := rfl

/-! ## Every effect of an instruction -/

/-- What `exec i s` can leave where it answers a next state. A new stack is within the capacity or no deeper than before. -/
inductive Effect (i : Instr) (s : State) : State → Prop where
  | stackFault : Effect i s (s.takeFault .stack)
  | gridFault : i = .setPixel → Effect i s (s.takeFault .grid)
  | stack (k : List F64) : fits s.params.stackMax k.length = true ∨ k.length ≤ s.stk.length → Effect i s { s with stk := k }
  | pause : i = .pause → Effect i s { s with run := .paused }
  | deflect (t : Bool) : i = .deflect t → Effect i s { s with dir := deflected s.params t s.dir }
  | print (o : List OutEvent) : i = .print → Effect i s { s with stk := s.below 1, output := o }
  | iomode (m : IoMode) : i = .iomode → Effect i s { s with stk := s.below 1, ioMode := m }
  | gfxmode (m : GfxMode) : i = .gfxmode → Effect i s { s with stk := s.below 1, gfxMode := m }
  | logbase (n : Nat) : i = .logbase n → Effect i s { s with logFactor := Config.ln (F64.ofInt n) }
  | angbase (n : Nat) : i = .angbase n → Effect i s { s with angFactor := F64.div s.freeNaN F64.twoPi (F64.ofInt n) }
  | setPixel (g g' : Grid) : i = .setPixel → s.grid = some g →
      g.write s.params (pixelPos (s.operand 1) (s.operand 0)) (encodePixel s.gfxMode (s.operand 2)) = .ok g' →
      Effect i s (State.withGrid { s with stk := s.below 3 } g g')

theorem below_le (s : State) (k : Nat) : (s.below k).length ≤ s.stk.length := by rw [below_length]; omega

/-- A push after `k` pops. -/
theorem effect_push {i : Instr} {s t : State} {k : Nat} {v : F64}
    (h : commit s (State.push v { s with stk := s.below k }) = .next t) : Effect i s t := by
  cases hf : fits s.params.stackMax ((s.below k).length + 1) with
  | true =>
    rw [push_ok _ (by simpa using hf)] at h
    obtain rfl : _ = t := by simpa using h
    exact .stack (v :: s.below k) (.inl (by simpa using hf))
  | false =>
    rw [push_error _ (by simpa using hf)] at h
    obtain rfl : _ = t := by simpa using h
    exact .stackFault

/-- Two pushes after `k` pops. -/
theorem effect_pushTwo {i : Instr} {s t : State} {k : Nat} {v w : F64}
    (h : commit s (pushTwo v w { s with stk := s.below k }) = .next t) : Effect i s t := by
  cases hf : fits s.params.stackMax ((s.below k).length + 2) with
  | true =>
    rw [pushTwo_ok _ _ (by simpa using hf)] at h
    obtain rfl : _ = t := by simpa using h
    exact .stack (w :: v :: s.below k) (.inl (by simpa using hf))
  | false =>
    rw [pushTwo_error _ _ (by simpa using hf)] at h
    obtain rfl : _ = t := by simpa using h
    exact .stackFault

theorem effect_unary {i : Instr} {s t : State} {f : F64 → F64} (h : unary f s = .next t) : Effect i s t := by
  rw [unary, pop_value, pop_state] at h
  exact effect_push h

theorem effect_binary {i : Instr} {s t : State} {f : F64 → F64 → F64} (h : binary f s = .next t) : Effect i s t := by
  rw [binary, pop_pop_value, pop_value, pop_pop_state] at h
  exact effect_push h

theorem effect_pushValue {i : Instr} {s t : State} {v : F64} (h : pushValue v s = .next t) : Effect i s t :=
  effect_push (k := 0) h

theorem effect_same {i : Instr} {s t : State} (h : Host.Outcome.next s = (.next t : Host.Outcome State Fault Refusal)) :
    Effect i s t := by
  obtain rfl : s = t := by simpa using h
  exact .stack s.stk (.inr (Nat.le_refl _))

/-- Everything any instruction can do. -/
theorem exec_effect {i : Instr} {s t : State} (h : exec i s = .next t) : Effect i s t := by
  cases i
  case nop => exact effect_same h
  case reserved => exact effect_same h
  case forward => exact effect_same h
  case push n => exact effect_pushValue h
  case pushSp => exact effect_pushValue h
  case input => exact effect_pushValue h
  case rnd => exact effect_pushValue h
  case pushIp => exact effect_pushTwo (k := 0) h
  case dup => rw [exec_dup, pop_value, pop_state] at h; exact effect_pushTwo h
  case swap => rw [exec_swap, pop_pop_value, pop_value, pop_pop_state] at h; exact effect_pushTwo h
  case get => rw [exec_get, pop_value, pop_state] at h; exact effect_push h
  case getPixel => rw [exec_getPixel, pop_pop_value, pop_value, pop_pop_state] at h; exact effect_push h
  case set =>
    rw [exec_set, pop_pop_state] at h
    obtain rfl : _ = t := by simpa using h
    have e : ∀ (j : Int) (v : F64), Effect .set s (State.stackSet j v { s with stk := s.below 2 }) := fun j v => by
      simp only [State.stackSet]
      split
      · exact .stack _ (.inr (by simpa using below_le s 2))
      · exact .stack _ (.inr (below_le s 2))
    exact e _ _
  case pause => obtain rfl : _ = t := by simpa [exec_pause] using h
                exact .pause rfl
  case deflect b => obtain rfl : _ = t := by simpa [exec_deflect] using h
                    exact .deflect b rfl
  case logbase n => obtain rfl : _ = t := by simpa [exec_logbase] using h
                    exact .logbase n rfl
  case angbase n => obtain rfl : _ = t := by simpa [exec_angbase] using h
                    exact .angbase n rfl
  case print => rw [exec_print, pop_state] at h
                obtain rfl : _ = t := by simpa using h
                exact .print _ rfl
  case iomode => rw [exec_iomode, pop_state] at h
                 obtain rfl : _ = t := by simpa using h
                 exact .iomode _ rfl
  case gfxmode => rw [exec_gfxmode, pop_state] at h
                  obtain rfl : _ = t := by simpa using h
                  exact .gfxmode _ rfl
  case setPixel =>
    rw [exec_setPixel, pop_pop_pop_value, pop_pop_value, pop_value, pop_pop_pop_state] at h
    obtain ⟨g, hg, ⟨g', hw, rfl⟩ | ⟨-, rfl⟩⟩ := writeCell_next h
    · exact .setPixel g g' rfl hg hw
    · exact .gridFault rfl
  case and => rw [exec_and] at h; exact effect_binary h
  case or => rw [exec_or] at h; exact effect_binary h
  case xor => rw [exec_xor] at h; exact effect_binary h
  case add => rw [exec_add] at h; exact effect_binary h
  case sub => rw [exec_sub] at h; exact effect_binary h
  case mul => rw [exec_mul] at h; exact effect_binary h
  case div => rw [exec_div] at h; exact effect_binary h
  case pow => rw [exec_pow] at h; exact effect_binary h
  case not => rw [exec_not] at h; exact effect_unary h
  case eq => rw [exec_eq] at h; exact effect_unary h
  case lt => rw [exec_lt] at h; exact effect_unary h
  case gt => rw [exec_gt] at h; exact effect_unary h
  case sign => rw [exec_sign] at h; exact effect_unary h
  case round => rw [exec_round] at h; exact effect_unary h
  case floor => rw [exec_floor] at h; exact effect_unary h
  case ceil => rw [exec_ceil] at h; exact effect_unary h
  case trunc => rw [exec_trunc] at h; exact effect_unary h
  case sqrt => rw [exec_sqrt] at h; exact effect_unary h
  case exp => rw [exec_exp] at h; exact effect_unary h
  case log => rw [exec_log] at h; exact effect_unary h
  case sin => rw [exec_sin] at h; exact effect_unary h
  case cos => rw [exec_cos] at h; exact effect_unary h
  case tan => rw [exec_tan] at h; exact effect_unary h
  case atn => rw [exec_atn] at h; exact effect_unary h

end Sys2Proof.Machine
end

