-- ==== Sys2Proof/Laws/PerInstr.lean ====
section
/-! SUPPORT. Facts about each instruction as syntax, one lemma per constructor: its place in its family (R101, R102). -/

namespace Sys2Proof.Laws

/-- The instruction's selector is a place in its opcode's family, the family's entry there, given its parameter and turn bit,
is the instruction, and a well-formed instruction has parameter 0 only with opcode 0. -/
def EncodeFields.Statement (i : Instr) : Prop :=
  1 ≤ i.selector ∧ i.selector ≤ (family i.opcode).length ∧
    (∃ f, (family i.opcode)[i.selector - 1]? = some f ∧ f i.param i.turn = i) ∧
    ∀ sel, i.wellFormed sel = true → i.opcode = 0 ∨ 1 ≤ i.param

theorem EncodeFields.nop : EncodeFields.Statement .nop :=
  ⟨by decide, by decide, ⟨_, rfl, rfl⟩, fun _ _ => .inl rfl⟩

theorem EncodeFields.push (n : Nat) : EncodeFields.Statement (.push n) :=
  ⟨Nat.le_refl 1, Nat.le_refl 1, ⟨_, rfl, rfl⟩, fun _ h => .inr (of_decide_eq_true h)⟩

theorem EncodeFields.dup : EncodeFields.Statement .dup :=
  ⟨by decide, by decide, ⟨_, rfl, rfl⟩, fun _ _ => .inr (by decide)⟩

theorem EncodeFields.swap : EncodeFields.Statement .swap :=
  ⟨by decide, by decide, ⟨_, rfl, rfl⟩, fun _ _ => .inr (by decide)⟩

theorem EncodeFields.get : EncodeFields.Statement .get :=
  ⟨by decide, by decide, ⟨_, rfl, rfl⟩, fun _ _ => .inr (by decide)⟩

theorem EncodeFields.set : EncodeFields.Statement .set :=
  ⟨by decide, by decide, ⟨_, rfl, rfl⟩, fun _ _ => .inr (by decide)⟩

theorem EncodeFields.pause : EncodeFields.Statement .pause :=
  ⟨by decide, by decide, ⟨_, rfl, rfl⟩, fun _ _ => .inr (by decide)⟩

theorem EncodeFields.not : EncodeFields.Statement .not :=
  ⟨by decide, by decide, ⟨_, rfl, rfl⟩, fun _ _ => .inr (by decide)⟩

theorem EncodeFields.and : EncodeFields.Statement .and :=
  ⟨by decide, by decide, ⟨_, rfl, rfl⟩, fun _ _ => .inr (by decide)⟩

theorem EncodeFields.or : EncodeFields.Statement .or :=
  ⟨by decide, by decide, ⟨_, rfl, rfl⟩, fun _ _ => .inr (by decide)⟩

theorem EncodeFields.xor : EncodeFields.Statement .xor :=
  ⟨by decide, by decide, ⟨_, rfl, rfl⟩, fun _ _ => .inr (by decide)⟩

theorem EncodeFields.eq : EncodeFields.Statement .eq :=
  ⟨by decide, by decide, ⟨_, rfl, rfl⟩, fun _ _ => .inr (by decide)⟩

theorem EncodeFields.lt : EncodeFields.Statement .lt :=
  ⟨by decide, by decide, ⟨_, rfl, rfl⟩, fun _ _ => .inr (by decide)⟩

theorem EncodeFields.gt : EncodeFields.Statement .gt :=
  ⟨by decide, by decide, ⟨_, rfl, rfl⟩, fun _ _ => .inr (by decide)⟩

theorem EncodeFields.sign : EncodeFields.Statement .sign :=
  ⟨by decide, by decide, ⟨_, rfl, rfl⟩, fun _ _ => .inr (by decide)⟩

theorem EncodeFields.print : EncodeFields.Statement .print :=
  ⟨by decide, by decide, ⟨_, rfl, rfl⟩, fun _ _ => .inr (by decide)⟩

theorem EncodeFields.input : EncodeFields.Statement .input :=
  ⟨by decide, by decide, ⟨_, rfl, rfl⟩, fun _ _ => .inr (by decide)⟩

theorem EncodeFields.iomode : EncodeFields.Statement .iomode :=
  ⟨by decide, by decide, ⟨_, rfl, rfl⟩, fun _ _ => .inr (by decide)⟩

theorem EncodeFields.setPixel : EncodeFields.Statement .setPixel :=
  ⟨by decide, by decide, ⟨_, rfl, rfl⟩, fun _ _ => .inr (by decide)⟩

theorem EncodeFields.getPixel : EncodeFields.Statement .getPixel :=
  ⟨by decide, by decide, ⟨_, rfl, rfl⟩, fun _ _ => .inr (by decide)⟩

theorem EncodeFields.gfxmode : EncodeFields.Statement .gfxmode :=
  ⟨by decide, by decide, ⟨_, rfl, rfl⟩, fun _ _ => .inr (by decide)⟩

theorem EncodeFields.rnd : EncodeFields.Statement .rnd :=
  ⟨by decide, by decide, ⟨_, rfl, rfl⟩, fun _ _ => .inr (by decide)⟩

theorem EncodeFields.pushIp : EncodeFields.Statement .pushIp :=
  ⟨by decide, by decide, ⟨_, rfl, rfl⟩, fun _ _ => .inr (by decide)⟩

theorem EncodeFields.pushSp : EncodeFields.Statement .pushSp :=
  ⟨by decide, by decide, ⟨_, rfl, rfl⟩, fun _ _ => .inr (by decide)⟩

theorem EncodeFields.round : EncodeFields.Statement .round :=
  ⟨by decide, by decide, ⟨_, rfl, rfl⟩, fun _ _ => .inr (by decide)⟩

theorem EncodeFields.floor : EncodeFields.Statement .floor :=
  ⟨by decide, by decide, ⟨_, rfl, rfl⟩, fun _ _ => .inr (by decide)⟩

theorem EncodeFields.ceil : EncodeFields.Statement .ceil :=
  ⟨by decide, by decide, ⟨_, rfl, rfl⟩, fun _ _ => .inr (by decide)⟩

theorem EncodeFields.trunc : EncodeFields.Statement .trunc :=
  ⟨by decide, by decide, ⟨_, rfl, rfl⟩, fun _ _ => .inr (by decide)⟩

theorem EncodeFields.add : EncodeFields.Statement .add :=
  ⟨by decide, by decide, ⟨_, rfl, rfl⟩, fun _ _ => .inr (by decide)⟩

theorem EncodeFields.sub : EncodeFields.Statement .sub :=
  ⟨by decide, by decide, ⟨_, rfl, rfl⟩, fun _ _ => .inr (by decide)⟩

theorem EncodeFields.mul : EncodeFields.Statement .mul :=
  ⟨by decide, by decide, ⟨_, rfl, rfl⟩, fun _ _ => .inr (by decide)⟩

theorem EncodeFields.div : EncodeFields.Statement .div :=
  ⟨by decide, by decide, ⟨_, rfl, rfl⟩, fun _ _ => .inr (by decide)⟩

theorem EncodeFields.sqrt : EncodeFields.Statement .sqrt :=
  ⟨by decide, by decide, ⟨_, rfl, rfl⟩, fun _ _ => .inr (by decide)⟩

theorem EncodeFields.pow : EncodeFields.Statement .pow :=
  ⟨by decide, by decide, ⟨_, rfl, rfl⟩, fun _ _ => .inr (by decide)⟩

theorem EncodeFields.exp : EncodeFields.Statement .exp :=
  ⟨by decide, by decide, ⟨_, rfl, rfl⟩, fun _ _ => .inr (by decide)⟩

theorem EncodeFields.log : EncodeFields.Statement .log :=
  ⟨by decide, by decide, ⟨_, rfl, rfl⟩, fun _ _ => .inr (by decide)⟩

theorem EncodeFields.logbase (n : Nat) : EncodeFields.Statement (.logbase n) := by
  refine ⟨Nat.le_add_left 1 4, Nat.le_refl 5, ⟨_, rfl, rfl⟩, fun sel h => .inr ?_⟩
  cases sel <;> simp [Instr.wellFormed, lastOfFive] at h <;> show 1 ≤ n <;> omega

theorem EncodeFields.sin : EncodeFields.Statement .sin :=
  ⟨by decide, by decide, ⟨_, rfl, rfl⟩, fun _ _ => .inr (by decide)⟩

theorem EncodeFields.cos : EncodeFields.Statement .cos :=
  ⟨by decide, by decide, ⟨_, rfl, rfl⟩, fun _ _ => .inr (by decide)⟩

theorem EncodeFields.tan : EncodeFields.Statement .tan :=
  ⟨by decide, by decide, ⟨_, rfl, rfl⟩, fun _ _ => .inr (by decide)⟩

theorem EncodeFields.atn : EncodeFields.Statement .atn :=
  ⟨by decide, by decide, ⟨_, rfl, rfl⟩, fun _ _ => .inr (by decide)⟩

theorem EncodeFields.angbase (n : Nat) : EncodeFields.Statement (.angbase n) := by
  refine ⟨Nat.le_add_left 1 4, Nat.le_refl 5, ⟨_, rfl, rfl⟩, fun sel h => .inr ?_⟩
  cases sel <;> simp [Instr.wellFormed, lastOfFive] at h <;> show 1 ≤ n <;> omega

theorem EncodeFields.reserved : EncodeFields.Statement .reserved :=
  ⟨by decide, by decide, ⟨_, rfl, rfl⟩, fun _ _ => .inr (by decide)⟩

theorem EncodeFields.forward : EncodeFields.Statement .forward :=
  ⟨by decide, by decide, ⟨_, rfl, rfl⟩, fun _ _ => .inr (by decide)⟩

theorem EncodeFields.deflect (t : Bool) : EncodeFields.Statement (.deflect t) :=
  ⟨Nat.le_add_left 1 1, Nat.le_refl 2, ⟨_, rfl, rfl⟩, fun _ _ => .inr (Nat.le_add_left 1 1)⟩

end Sys2Proof.Laws
end

