-- ==== Sys2Proof/Laws/Region.lean ====
section
/-! SUPPORT. What the analyzer's loops can visit and mark, and that the scratch map a fetch leaves is in canonical form. -/

namespace Sys2Proof.Machine

/-- A coordinate that does not read as the background is in the grid. -/
theorem inRange_of_read {g : Grid} {q : Pos} (h : g.read q ≠ 0) : g.inRange q = true := by
  by_contra hn
  exact h (read_out (by simpa using hn))

/-- Every cell a lateral walk marks has the colour. -/
theorem walk_colour {g : Grid} {c : Colour} {E l o q : Pos} : ∀ {n k : Nat}, q ∈ walk g c E l o n k → g.read q = c
  | 0, _, h => by simp [walk] at h
  | n + 1, k, h => by
    simp only [walk] at h
    split at h
    · next hc =>
      rcases List.mem_cons.mp h with rfl | h
      · exact hc.1
      · exact walk_colour h
    · simp at h

/-- Every excluded cell has the pointer's colour, which is not the background. -/
theorem excluded_colour {prm : Params} {g : Grid} {P q : Pos} {dir : Dir} (h : q ∈ excluded prm g P dir) :
    g.read P ≠ 0 ∧ g.read q = g.read P := by
  have key : ∀ E o : Pos, q ∈ excludedFrom g (g.read P) (mv dir) E o → g.read q = g.read P := by
    intro E o h
    unfold excludedFrom at h
    split at h
    · next hE =>
      rcases List.mem_cons.mp h with rfl | h
      · exact hE
      · obtain ⟨l, -, hl⟩ := List.mem_flatMap.mp h
        exact walk_colour hl
    · simp at h
  simp only [excluded] at h
  split at h
  · simp at h
  · next h0 => exact ⟨h0, (List.mem_append.mp h).elim (key _ _) (key _ _)⟩

/-- Every cell the flood visits was visited before or is admitted. -/
theorem flood_mem {ok : Pos → Bool} {q : Pos} : ∀ {n : Nat} {work vis : List Pos}, q ∈ flood ok n work vis → q ∈ vis ∨ ok q = true
  | 0, _, _, h => .inl (by simpa [flood] using h)
  | _ + 1, [], _, h => .inl (by simpa [flood] using h)
  | n + 1, r :: work, vis, h => by
    simp only [flood] at h
    split at h
    · next hr =>
      rcases flood_mem h with h | h
      · rcases List.mem_cons.mp h with rfl | h
        · exact .inr (by simp_all)
        · exact .inl h
      · exact .inr h
    · exact flood_mem h

/-- Every cell of the region is in the grid, has the pointer's colour and is not excluded. -/
theorem region_mem {prm : Params} {g : Grid} {P q : Pos} {dir : Dir} (h : q ∈ region prm g P dir) :
    g.inRange q = true ∧ g.read q = g.read P ∧ q ∉ excluded prm g P dir := by
  unfold region at h
  split at h
  · simp at h
  · rcases flood_mem h with h | h
    · simp at h
    · simpa [floodable, and_assoc] using h

/-- A rearrangement holds elements of the list only. -/
theorem mem_rearrange {α : Type} {choice : Nat → Nat} {x : α} : ∀ {n : Nat} {xs : List α}, x ∈ rearrange choice n xs → x ∈ xs
  | 0, _, h => by simp [rearrange] at h
  | n + 1, xs, h => by
    simp only [rearrange] at h
    split at h
    · next y hy =>
      rcases List.mem_cons.mp h with rfl | h
      · exact List.mem_of_getElem? hy
      · exact List.mem_of_mem_eraseIdx (mem_rearrange h)
    · simp at h

theorem mem_ranked {e : (Nat × Nat) × Int} : ∀ {r : Nat} {qs : List Pos}, e ∈ ranked r qs → ∃ q ∈ qs, e.1 = cellKey q
  | _, [], h => by simp [ranked] at h
  | r, q :: qs, h => by
    simp only [ranked] at h
    rcases List.mem_cons.mp h with rfl | h
    · exact ⟨q, by simp, rfl⟩
    · obtain ⟨p, hp, he⟩ := mem_ranked h
      exact ⟨p, by simp [hp], he⟩

/-- The scratch map a fetch leaves is an array of the grid's size in canonical form (R31). -/
theorem scratchOf_wf (prm : Params) (g : Grid) (P : Pos) (dir : Dir) (n : Nat) :
    CellMap.wf 0 g.w g.h (scratchOf prm g P dir n) = true := by
  refine CellMap.wf_putAll (CellMap.wf_putAll rfl fun e he => ?_) fun e he => ?_
  · obtain ⟨q, hq, rfl⟩ := List.mem_map.mp he
    have := excluded_colour hq
    exact cellKey_inRange (inRange_of_read (this.2 ▸ this.1))
  · obtain ⟨q, hq, he⟩ := mem_ranked he
    rw [he]
    exact cellKey_inRange (region_mem (mem_rearrange hq)).1

end Sys2Proof.Machine
end

