-- ==== Sys2Proof/Tests/Slice0.lean ====
section
/-! SUPPORT. The model's own tests. Every expected result is the spec's: the vectors of 95_test_vectors.md (named in each comment
by their heading there) or the rule cited. The witness theorems show states that meet a statement's hypotheses. -/

namespace Sys2Proof.Tests

open Sys2Proof.Machine

/-! ## Helpers -/

/-- The reset state with a grid installed and a stack, its bottom first. -/
def onGrid (g : Grid) (stk : List F64) : State := { State.reset with grid := some g, stk := stk.reverse }

/-- A 1×1 grid of the colour of PUSH. -/
def oneCell : Grid := ⟨1, 1, [((0, 0), 0x0000AA)]⟩

/-- The reset state on that grid with a stack of integers, bottom first. -/
def withInts (l : List Int) : State := onGrid oneCell (l.map F64.ofInt)

/-- The reset state on that grid with a stack of values, bottom first. -/
def withVals (l : List F64) : State := onGrid oneCell l

/-- The stack of a next state, bottom first. -/
def stackOf (r : Host.Outcome State Fault Refusal) : Option (List F64) :=
  match r with
  | .next t => some t.stk.reverse
  | .fault _ => none
  | .refused _ => none

/-- One reading of a next state. -/
def readOf {α : Type} (f : State → α) (r : Host.Outcome State Fault Refusal) : Option α :=
  match r with
  | .next t => some (f t)
  | .fault _ => none
  | .refused _ => none

/-- The integers as stack values. -/
def ints (l : List Int) : Option (List F64) := some (l.map F64.ofInt)

def nan1 : F64 := 0x7FF8000000000000
def half : F64 := 0x3FE0000000000000
def twoAndHalf : F64 := 0x4004000000000000
def minusTwoAndHalf : F64 := 0xC004000000000000
def plusInf : F64 := 0x7FF0000000000000
def minusInf : F64 := 0xFFF0000000000000
def minusZero : F64 := 0x8000000000000000

/-- The default parameters with the stack held to one value and the grid to five columns. -/
def narrow : Params := { Params.default with stackMax := some 1, gridMaxW := some 5 }

/-! ## WellFormed refuses ill-formed instructions -/

theorem test_wellFormed_push_zero : Instr.wellFormed .saturate (.push 0) = false := by decide
theorem test_wellFormed_logbase_four : Instr.wellFormed .saturate (.logbase 4) = false := by decide
theorem test_wellFormed_angbase_four : Instr.wellFormed .saturate (.angbase 4) = false := by decide
theorem test_wellFormed_logbase_wrap : Instr.wellFormed .wrap (.logbase 7) = false := by decide
theorem test_wellFormed_angbase_wrap : Instr.wellFormed .wrap (.angbase 360) = true := by decide

/-! ## Decoding: words written out from the spec's encodings -/

/-- 95_test_vectors.md, "CPD: colour decoding", all rows. -/
theorem test_colours : ([0x000000, 0x1F1F1F, 0x202020, 0x404040, 0x7F7F7F, 0x808080, 0x9F9F9F, 0xA0A0A0] ++
      [0xC0C0C0, 0xDFDFDF, 0xE0E0E0, 0xFF0000, 0x00FF00, 0x0000FF, 0xFFFF00, 0x00FFFF, 0xFF00FF] ++
      [0x0000A0, 0x0000AB, 0x123456, 0xABCDEF, 0x60A0E0]).map (fun c => (decodeOpcode c).toNat) =
    [0, 0, 0, 8, 8, 8, 8, 7] ++ [7, 7, 15, 12, 10, 9, 14, 11, 13] ++ [1, 1, 1, 15, 11] := by decide

/-- R101, every mnemonic by its opcode and parameter; the opcode comes from a colour of R86 written out. -/
theorem test_decode_0_to_4 : [(0x000000, 0), (0x0000AA, 5), (0x00AA00, 1), (0x00AA00, 2), (0x00AAAA, 1), (0x00AAAA, 2),
      (0xAA0000, 3)].map (fun w : Colour × Nat => (decode .saturate ⟨decodeOpcode w.1, w.2, false⟩).toOption) =
    [some .nop, some (.push 5), some .dup, some .swap, some .get, some .set, some .pause] := by decide

theorem test_decode_5_to_7 : [(0xAA00AA, 1), (0xAA00AA, 2), (0xAA00AA, 3), (0xAA00AA, 4), (0xAA5500, 1), (0xAA5500, 2),
      (0xAA5500, 3), (0xAA5500, 4), (0xAAAAAA, 1), (0xAAAAAA, 2), (0xAAAAAA, 3)].map
      (fun w : Colour × Nat => (decode .saturate ⟨decodeOpcode w.1, w.2, true⟩).toOption) =
    [some .not, some .and, some .or, some .xor, some .eq, some .lt, some .gt, some .sign, some .print, some .input,
      some .iomode] := by decide

theorem test_decode_8_to_A : [(0x555555, 1), (0x555555, 2), (0x555555, 3), (0x5555FF, 1), (0x5555FF, 2), (0x5555FF, 3),
      (0x55FF55, 1), (0x55FF55, 2), (0x55FF55, 3), (0x55FF55, 4)].map
      (fun w : Colour × Nat => (decode .saturate ⟨decodeOpcode w.1, w.2, false⟩).toOption) =
    [some .setPixel, some .getPixel, some .gfxmode, some .rnd, some .pushIp, some .pushSp, some .round, some .floor, some .ceil,
      some .trunc] := by decide

theorem test_decode_B_C : [(0x55FFFF, 1), (0x55FFFF, 2), (0x55FFFF, 3), (0x55FFFF, 4), (0xFF5555, 1), (0xFF5555, 2),
      (0xFF5555, 3), (0xFF5555, 4), (0xFF5555, 5)].map
      (fun w : Colour × Nat => (decode .saturate ⟨decodeOpcode w.1, w.2, false⟩).toOption) =
    [some .add, some .sub, some .mul, some .div, some .sqrt, some .pow, some .exp, some .log, some (.logbase 5)] := by decide

theorem test_decode_D_E_F : [(0xFF55FF, 1), (0xFF55FF, 2), (0xFF55FF, 3), (0xFF55FF, 4), (0xFF55FF, 360), (0xFFFF55, 3),
      (0xFFFFFF, 1), (0xFFFFFF, 2)].map
      (fun w : Colour × Nat => (decode .saturate ⟨decodeOpcode w.1, w.2, true⟩).toOption) =
    [some .sin, some .cos, some .tan, some .atn, some (.angbase 360), some .reserved, some .forward,
      some (.deflect true)] := by decide

/-- "Selection": parameters above a family's count. -/
theorem test_selection_saturates : [(2, 7), (5, 100), (7, 4), (9, 9), (0xC, 10), (0xF, 50)].map
      (fun w : Opcode × Nat => (decode .saturate ⟨w.1, w.2, false⟩).toOption) =
    [some .swap, some .xor, some .iomode, some .pushSp, some (.logbase 10), some (.deflect false)] := by decide

theorem test_zero_parameter_refused : decode .saturate ⟨0x2, 0, false⟩ = .error .zeroParam := by rfl

/-! ## The region, the turn bit, the step's fetch -/

/-- A 3×3 grid of 0x0000AA. -/
def allA : Grid := installedGrid 3 3 (List.replicate 3 (List.replicate 3 0xAA))

/-- "RPA": 3×3 all A, and its excluded cells. -/
theorem test_region_allA : regionParam Params.default allA ⟨1, 1⟩ .down = 5 ∧ regionParam Params.default allA ⟨1, 1⟩ .right = 5 ∧
    regionParam Params.default allA ⟨0, 0⟩ .down = 3 := by decide

theorem test_excluded_allA : (excluded Params.default allA ⟨0, 0⟩ .down) = [⟨0, 1⟩, ⟨1, 1⟩, ⟨2, 1⟩] := by decide

/-- "RPA": the doubted trace offset, both ways. -/
theorem test_region_ahead_offset :
    let g := installedGrid 5 3 [[0xAA, 0xAA, 0xAA, 0xAA, 0xAA], [0xAA, 0xAA, 0xAA, 0, 0], [0x55FFFF, 0, 0, 0, 0]]
    regionParam Params.default g ⟨0, 0⟩ .down = 7 ∧
      regionParam { Params.default with aheadTraceOffset := .minusD } g ⟨0, 0⟩ .down = 5 := by decide

/-- "RPA": rows and columns of five, and different raw colours. -/
theorem test_region_runs :
    regionParam Params.default (installedGrid 1 5 (List.replicate 5 [0xAA])) ⟨0, 2⟩ .down = 1 ∧
      regionParam Params.default (installedGrid 5 1 [List.replicate 5 0xAA]) ⟨2, 0⟩ .down = 5 ∧
      regionParam Params.default (installedGrid 5 1 [List.replicate 5 0xAA]) ⟨2, 0⟩ .right = 1 ∧
      regionParam Params.default (installedGrid 3 1 [[0xA0, 0xAA, 0xA0]]) ⟨1, 0⟩ .down = 1 ∧
      regionParam Params.default (installedGrid 2 2 [[0, 0xAA], [0xAA, 0xAA]]) ⟨0, 0⟩ .down = 0 := by decide

/-- "TBP", all rows. -/
theorem test_turn_bits : [(0, 0), (1, 0), (0, 1), (1, 1)].map (fun p : Int × Int =>
      [Dir.down, .right, .up, .left].map (turnBit (installedGrid 2 2 [[0xAA, 0xAA], [0xAA, 0xAA]]) ⟨p.1, p.2⟩)) =
    [[false, true, true, false], [true, true, false, false], [false, false, true, true], [true, false, false, true]] := by
  decide

/-- "GRID": growth. -/
theorem test_growth : [(2, 1), (9, 1), (20, 6), (4, 4), (12, 12), (24, 24)].map (fun p : Nat × Nat => Grid.grown p.1 p.2) =
    [3, 10, 22, 5, 14, 28] := by decide

/-- R94: a table word's program is fetched as the word's instruction, first after reset. -/
theorem test_table_word : decodeTableWord 8 0x3B = some .mul ∧
    readOf State.ptr (step (State.reset.withFetchWord 8 0x3B)) = some ⟨0, 1⟩ := by decide

/-! ## Instructions -/

theorem test_nop : stackOf (exec .nop (withInts [5])) = ints [5] := by decide
theorem test_push : stackOf (exec (.push 5) (withInts [])) = ints [5] := by decide
theorem test_push_full : readOf State.fault (exec (.push 1) { withInts [7] with params := narrow }) = some (some .stack) := by
  decide
theorem test_dup : stackOf (exec .dup (withInts [7])) = ints [7, 7] := by decide
theorem test_dup_empty : stackOf (exec .dup (withInts [])) = ints [0, 0] := by decide
theorem test_swap : stackOf (exec .swap (withInts [1, 2])) = ints [2, 1] := by decide
theorem test_swap_one : stackOf (exec .swap (withInts [3])) = ints [3, 0] := by decide
theorem test_get : [1, 4, 0, -1, -3].map (fun u => stackOf (exec .get (withInts [10, 20, 30, u]))) =
    [10, 0, 30, 20, 0].map (fun v => ints [10, 20, 30, v]) := by decide +kernel
theorem test_get_rounds : stackOf (exec .get (withVals (([10, 20, 30].map F64.ofInt) ++ [twoAndHalf]))) =
    ints [10, 20, 30, 30] := by decide
theorem test_set : [1, 3, 0, -2, 5].map (fun u => stackOf (exec .set (withInts [10, 20, 30, 99, u]))) =
    [ints [99, 20, 30], ints [10, 20, 99], ints [10, 99, 30], ints [10, 20, 30], ints [10, 20, 30]] := by decide +kernel
theorem test_set_one : stackOf (exec .set (withInts [4])) = ints [] := by decide
theorem test_pause : readOf State.run (exec .pause (withInts [5])) = some .paused := by decide
theorem test_not : [withInts [1], withInts [], withVals [twoAndHalf], withVals [nan1]].map (fun s => stackOf (exec .not s)) =
    [ints [-2], ints [-1], ints [-4], ints [-1]] := by decide +kernel
theorem test_not_infinity : stackOf (exec .not (withVals [plusInf])) = some [0xC3E0000000000000] := by decide
theorem test_and : stackOf (exec .and (withInts [12, 10])) = ints [8] := by decide
theorem test_and_one : stackOf (exec .and (withInts [5])) = ints [0] := by decide +kernel
theorem test_or : stackOf (exec .or (withInts [12, 10])) = ints [14] := by decide
theorem test_or_signs : stackOf (exec .or (withInts [-2, 1])) = ints [-1] := by decide
theorem test_xor : stackOf (exec .xor (withInts [12, 10])) = ints [6] := by decide
theorem test_xor_minus_one : stackOf (exec .xor (withInts [7, -1])) = ints [-8] := by decide
theorem test_eq : [F64.zero false, minusZero, F64.ofInt 3, nan1].map (fun a => stackOf (exec .eq (withVals [a]))) =
    [ints [-1], ints [-1], ints [0], ints [0]] := by decide
theorem test_lt : [F64.ofInt (-2), minusZero, minusInf, nan1].map (fun a => stackOf (exec .lt (withVals [a]))) =
    [ints [-1], ints [0], ints [-1], ints [0]] := by decide
theorem test_gt : [F64.ofInt 3, F64.zero false, plusInf, nan1].map (fun a => stackOf (exec .gt (withVals [a]))) =
    [ints [-1], ints [0], ints [-1], ints [0]] := by decide
theorem test_sign : [0xC01E000000000000, F64.ofInt 4, plusInf, minusZero, nan1].map
      (fun a => stackOf (exec .sign (withVals [a]))) =
    [ints [-1], ints [1], ints [1], some [minusZero], some [nan1]] := by decide
theorem test_print : readOf (fun t => (t.output, t.stk)) (exec .print { withInts [4, 6, 9] with ioMode := .integer }) =
    some ([.integer 9], [F64.ofInt 6, F64.ofInt 4]) ∧
      readOf State.output (exec .print (withVals [0x405059999999999A])) = some [.character 65] := by decide
/-- R180: in Float mode a number is emitted as it is, a NaN as a free NaN; in Character mode a NaN as 0. -/
theorem test_print_nan : readOf State.output (exec .print { withVals [twoAndHalf] with ioMode := .float }) =
      some [.float twoAndHalf] ∧
    readOf State.output (exec .print { withVals [nan1] with ioMode := .float }) = some [.float (withVals [nan1]).freeNaN] ∧
    readOf State.output (exec .print (withVals [nan1])) = some [.character 0] := ⟨by decide, rfl, by decide⟩
theorem test_input_answers : stackOf (inputWith (.int 42) (withInts [])) = ints [42] := by decide
theorem test_input_unavailable : stackOf (inputWith .unavailable (withInts [1])) = ints [1, 0] := by decide
theorem test_iomode : readOf State.ioMode (exec .iomode (withInts [4, 6, 9, 1])) = some .integer := by decide
theorem test_iomode_unsupported : readOf (fun t => (t.ioMode, t.stk)) (exec .iomode { withInts [3] with ioMode := .integer }) =
    some (.integer, []) := by decide
theorem test_setPixel : [[17, 2, 1], [-1, 1, 1]].map (fun l =>
      readOf (fun t => (t.gridRead ⟨1, 0⟩, t.gridRead ⟨0, 0⟩)) (exec .setPixel (onGrid ⟨2, 1, []⟩ (l.map F64.ofInt)))) =
    [some (0x0000AA, 0), some (0, 0xFFFFFF)] := by decide
theorem test_setPixel_grows : readOf (fun t => (t.grid, t.stk)) (exec .setPixel (onGrid ⟨1, 1, []⟩ ([1, 3, 10].map F64.ofInt))) =
    some (some ⟨3, 10, [((9, 2), 0x0000AA)]⟩, []) := by decide
theorem test_getPixel : stackOf (exec .getPixel (onGrid ⟨2, 1, [((0, 1), 0x0000A0)]⟩ ([2, 1].map F64.ofInt))) = ints [1] := by
  decide
theorem test_getPixel_outside : stackOf (exec .getPixel (withInts [0, 0])) = ints [0] := by decide +kernel
theorem test_gfxmode : readOf State.gfxMode (exec .gfxmode (withInts [5])) = some .bpp24 := by decide
theorem test_gfxmode_unsupported : readOf State.gfxMode (exec .gfxmode (withInts [6])) = some .palette16 := by decide
theorem test_rnd : stackOf (rndWith 0x3FD0000000000000 (withInts [])) = some [0x3FD0000000000000] := by decide
theorem test_pushIp : stackOf (exec .pushIp { withInts [] with ptr := ⟨2, 0⟩ }) = ints [3, 1] := by decide
theorem test_pushIp_full : readOf (fun t => (t.fault, t.stk)) (exec .pushIp { withInts [] with params := narrow }) =
    some (some .stack, []) := by decide
theorem test_pushSp : stackOf (exec .pushSp (withInts [7, 8, 9])) = ints [7, 8, 9, 3] := by decide
theorem test_pushSp_empty : stackOf (exec .pushSp (withInts [])) = ints [0] := by decide
theorem test_round : [0x3FF8000000000000, twoAndHalf, minusTwoAndHalf, nan1].map (fun a => stackOf (exec .round (withVals [a]))) =
    [ints [2], ints [3], ints [-2], ints [0]] := by decide
theorem test_round_infinity : stackOf (exec .round (withVals [plusInf])) = some [0x43E0000000000000] := by decide
theorem test_floor : [minusTwoAndHalf, 0xBFE0000000000000, minusZero, plusInf].map
      (fun a => stackOf (exec .floor (withVals [a]))) =
    [ints [-3], ints [-1], some [minusZero], some [plusInf]] := by decide +kernel
theorem test_ceil : [0x4000CCCCCCCCCCCD, 0xBFE0000000000000, nan1].map (fun a => stackOf (exec .ceil (withVals [a]))) =
    [ints [3], some [minusZero], some [nan1]] := by decide
theorem test_trunc : [0xC00599999999999A, 0x400599999999999A, 0xBFE0000000000000].map
      (fun a => stackOf (exec .trunc (withVals [a]))) = [ints [-2], ints [2], some [minusZero]] := by decide
theorem test_add : stackOf (exec .add (withInts [5, 3])) = ints [8] := by decide
theorem test_add_zeros : stackOf (exec .add (withVals [F64.zero false, minusZero])) = ints [0] := by decide
theorem test_sub : stackOf (exec .sub (withInts [5, 3])) = ints [2] := by decide
theorem test_sub_one : stackOf (exec .sub (withInts [3])) = ints [-3] := by decide +kernel
theorem test_mul : stackOf (exec .mul (withInts [2, 3])) = ints [6] := by decide
theorem test_mul_signed_zero : stackOf (exec .mul (withInts [-1, 0])) = some [minusZero] := by decide
theorem test_div : stackOf (exec .div (withInts [7, 2])) = some [0x400C000000000000] := by decide
theorem test_div_zero : [[F64.ofInt 1, F64.ofInt 0], [F64.ofInt (-1), F64.ofInt 0], [F64.ofInt 1, minusZero]].map
      (fun l => stackOf (exec .div (withVals l))) = [some [plusInf], some [minusInf], some [minusInf]] := by decide
theorem test_sqrt : stackOf (exec .sqrt (withInts [9])) = ints [3] := by decide
theorem test_sqrt_minus_zero : stackOf (exec .sqrt (withVals [minusZero])) = some [minusZero] := by decide
theorem test_pow : stackOf (exec .pow (withInts [2, 10])) = some [Config.pow (F64.ofInt 2) (F64.ofInt 10)] := by rfl
theorem test_exp : stackOf (exec .exp (withInts [0])) =
    some [Config.exp (F64.mul (withInts []).freeNaN (F64.ofInt 0) F64.one)] := by rfl
theorem test_log : stackOf (exec .log { withInts [1] with logFactor := nan1 }) =
    some [F64.div (withInts [1]).freeNaN (Config.ln (F64.ofInt 1)) nan1] := by rfl
theorem test_logbase : readOf (fun t => (t.logFactor, t.stk)) (exec (.logbase 10) (withInts [5])) =
    some (Config.ln (F64.ofInt 10), [F64.ofInt 5]) := by rfl
theorem test_sin : stackOf (exec .sin (withInts [0])) =
    some [Config.sin (F64.mul (withInts []).freeNaN (F64.zero false) F64.one)] := by rfl
theorem test_cos : stackOf (exec .cos (withInts [])) =
    some [Config.cos (F64.mul (withInts []).freeNaN (F64.zero false) F64.one)] := by rfl
theorem test_tan : stackOf (exec .tan (withInts [0])) =
    some [Config.tan (F64.mul (withInts []).freeNaN (F64.zero false) F64.one)] := by rfl
theorem test_atn : stackOf (exec .atn { withInts [1] with angFactor := nan1 }) =
    some [F64.div (withInts [1]).freeNaN (Config.atan (F64.ofInt 1)) nan1] := by rfl
/-- 0.017453292519943295 and 0.015707963267948967 (R240's example and "Opcode C, D"). -/
theorem test_angbase : [360, 400].map (fun n => readOf State.angFactor (exec (.angbase n) (withInts [7]))) =
    [some 0x3F91DF46A2529D39, some 0x3F9015BF9217271A] := by decide
theorem test_reserved : stackOf (exec .reserved (withInts [5])) = ints [5] := by decide
theorem test_forward : readOf State.dir (exec .forward (withInts [5])) = some .down := by decide
theorem test_deflect : [true, false].map (fun t => [Dir.down, .right, .up, .left].map (fun d =>
      readOf State.dir (exec (.deflect t) { withInts [] with dir := d }))) =
    [[some .left, some .down, some .right, some .up], [some .right, some .up, some .left, some .down]] := by decide
theorem test_deflect_plus_one : readOf State.dir
      (exec (.deflect true) { withInts [] with params := { Params.default with deflectTrueDelta := .plusOne } }) =
    some .right := by decide

/-! ## Steps and host commands -/

/-- Scenario A: the step pushes 1.0 and halts. -/
theorem test_scenario_A : readOf (fun t => (t.stk, t.ptr, t.run)) (step (withInts [])) = some ([F64.ofInt 1], ⟨0, 1⟩, .halted) := by
  decide
/-- P7's faulting step: the state before it, with the fault recorded. -/
theorem test_faulting_step : readOf (fun t => (t.stk, t.ptr, t.run, t.fault))
      (step { withInts [7] with params := narrow }) = some ([F64.ofInt 7], ⟨0, 0⟩, .running, some .stack) := by decide
/-- PAUSE at the last row: Halted wins. -/
theorem test_pause_at_edge : readOf State.run (step (onGrid ⟨1, 1, [((0, 0), 0xAA0000)]⟩ [])) = some .halted := by decide
/-- The scratch read-out while halted is the map that State holds (log entry 25). -/
theorem test_scratch_readout_halted :
    scratchReadout { withInts [] with run := .halted, scratch := [((0, 0), 1)] } = some [((0, 0), 1)] := by decide
theorem test_install_empty_refused : command (.install 0 3 [[], [], []]) State.reset = .refused .badInstall := by rfl
theorem test_install : readOf State.grid (command (.install 2 1 [[0xAA, 0]]) State.reset) = some (some ⟨2, 1, [((0, 0), 0xAA)]⟩) := by
  decide

/-! ## Witnesses: for each statement with hypotheses, states and operands that meet them, each clause at its boundaries -/

theorem val_zero (s : Bool) : F64.val (F64.zero s) = 0 := by
  cases s <;> simp [F64.val, show F64.unpack (F64.zero false) = .fin false 0 (-1074) by decide,
    show F64.unpack (F64.zero true) = .fin true 0 (-1074) by decide]

theorem val_two_pow (k : Nat) (v : F64) (h : F64.unpack v = .fin false (2 ^ 52) (k - 52)) : F64.val v = 2 ^ k := by
  rw [F64.val, h]
  simp only [Bool.false_eq_true, if_false, one_mul]
  rw [show ((2 ^ 52 : ℕ) : ℚ) = (2 : ℚ) ^ (52 : ℤ) by norm_num, ← zpow_add₀ two_ne_zero]
  simp

theorem val_one : F64.val (F64.ofInt 1) = 1 := val_two_pow 0 _ (by decide)

theorem val_minus_one : F64.val (F64.ofInt (-1)) = -1 := by
  rw [F64.val, show F64.unpack (F64.ofInt (-1)) = .fin true (2 ^ 52) (-52) by decide]
  norm_num [zpow_neg]

/-- A state that meets the invariant, with a PUSH under its pointer. -/
theorem live_inv (stk : List F64) (g : Grid) (hg : g.ok Params.default = true) (h0 : g.inRange ⟨0, 0⟩ = true) :
    (onGrid g stk).Inv where
  stackOk := ⟨rfl, rfl⟩
  gridOk := by rintro _ ⟨⟩; exact hg
  inside := by rintro _ ⟨⟩ _; exact h0
  outside := by rintro _ _ h; cases h
  faultOk h := absurd rfl h
  scratchOk := by rintro _ ⟨⟩; rfl
  noGrid := by rintro ⟨⟩

theorem witness_ResetRestoresRegistersAndKeepsGrid : (withInts []).grid = some oneCell := rfl

theorem witness_InstallReplacesGridAndResets : InstallInOrder Params.default 2 1 [[0xFFFFFF, 0]] ∧
    ¬InstallInOrder Params.default 0 3 [[], [], []] ∧ ¬InstallInOrder Params.default 1 1 [[0x1000000]] ∧
    InstallInOrder narrow 5 1 [[0, 0, 0, 0, 0]] ∧ ¬InstallInOrder narrow 6 1 [[0, 0, 0, 0, 0, 0]] := by
  unfold InstallInOrder; decide

theorem witness_ResumeAndCommandsBeforeInstall :
    ((withInts []).grid ≠ none ∧ (withInts []).run ≠ .paused) ∧ State.reset.grid = none ∧
      ({ withInts [] with run := .paused }).grid ≠ none := by decide

theorem witness_StoppedStepChangesNothing : ({ withInts [] with run := .halted }).run = .halted ∧
    ({ withInts [] with fault := some .grid }).fault ≠ none := by decide

theorem witness_HaltAndFaultEndOnlyByResetOrInstall :
    command .resume { withInts [] with run := .halted } = .next { withInts [] with run := .halted } ∧
      command .step { withInts [] with fault := some .stack } = .next { withInts [] with fault := some .stack } := ⟨rfl, rfl⟩

theorem live_withInts (l : List Int) : (withInts l).Live oneCell := ⟨rfl, nofun, rfl⟩

theorem fetch_oneCell : fetchInstr Params.default oneCell ⟨0, 0⟩ .down = .ok (.push 1) := by rfl

theorem witness_StepRunsDecodedInstruction :
    (∃ t, exec (.push 1) { withInts [] with scratch := scratchOf Params.default oneCell ⟨0, 0⟩ .down 0 } = .next t ∧ t.fault = none) ∧
      ∃ t, exec (.push 1) { withInts [7] with
        params := narrow, scratch := scratchOf narrow oneCell ⟨0, 0⟩ .down 0 } = .next t ∧ t.fault = some .stack :=
  ⟨⟨_, rfl, rfl⟩, _, rfl, rfl⟩

theorem step_withInts : ∃ t, step (withInts []) = .next t ∧ t.fault = none ∧ t.run = .halted := ⟨_, rfl, rfl, rfl⟩

/-- A NOP on a 1×2 grid: the step stays inside. -/
theorem witness_StepAdvancesAndHaltsOutside : (∃ t, step (withInts []) = .next t ∧ t.fault = none ∧ t.run = .halted) ∧
    ∃ t, step (onGrid ⟨1, 2, []⟩ []) = .next t ∧ t.fault = none ∧ t.run ≠ .halted :=
  ⟨step_withInts, _, rfl, rfl, by decide⟩

theorem witness_StepAlwaysAnswersNext : (withInts []).grid = some oneCell := rfl

theorem witness_FaultUndoesTheStepAndStops : ({ withInts [7] with params := narrow }).Live oneCell ∧
    ∃ t, step { withInts [7] with params := narrow } = .next t ∧ t.fault = some .stack :=
  ⟨⟨rfl, by decide, rfl⟩, _, rfl, rfl⟩

theorem witness_OnlyPushesAndSetPixelFault :
    (∃ t, exec .dup { withInts [7] with params := narrow } = .next t ∧ t.fault = some .stack) ∧
      (∃ t, exec .swap { withInts [7] with params := narrow } = .next t ∧ t.fault = some .stack) ∧
      (∃ t, exec .setPixel { onGrid ⟨5, 5, []⟩ ([1, 6, 1].map F64.ofInt) with
        params := { Params.default with gridMaxW := some 5 } } = .next t ∧ t.fault = some .grid) ∧
      ({ withInts [7] with params := narrow }).StackOk ∧ (withInts [7]).StackOk :=
  ⟨⟨_, rfl, rfl⟩, ⟨_, rfl, rfl⟩, ⟨_, rfl, rfl⟩, ⟨rfl, rfl⟩, rfl, rfl⟩

theorem witness_PausedStepsLikeRunning : ({ withInts [] with run := .paused }).Live oneCell ∧
    ∃ t, step { { withInts [] with run := .paused } with run := .running } = .next t :=
  ⟨⟨rfl, by decide, rfl⟩, _, rfl⟩

theorem witness_ScratchMapNeverMatters : ∃ t, step (withInts []) = .next t := ⟨_, rfl⟩

theorem witness_EachRegisterHasOneWriter : (∃ t, exec .pause (withInts []) = .next t) ∧ (∃ t, exec .dup (withInts []) = .next t) ∧
    ∃ t, exec (.logbase 5) (withInts []) = .next t := ⟨⟨_, rfl⟩, ⟨_, rfl⟩, _, rfl⟩

theorem witness_StepKeepsInvariant : (withInts []).Inv ∧ ∃ t, step (withInts []) = .next t :=
  ⟨live_inv _ _ (by decide) (by decide), _, rfl⟩

theorem witness_HostCommandsKeepInvariant : (withInts []).Inv ∧ ∃ t, command .reset (withInts []) = .next t :=
  ⟨live_inv _ _ (by decide) (by decide), _, rfl⟩

theorem witness_LogFactorStaysALogarithm : LogFactorOk (withInts []).logFactor ∧ (withInts []).params.selOverflow = .saturate ∧
    ∃ t, step (withInts []) = .next t := ⟨.inl rfl, rfl, _, rfl⟩

/-- A SET_PIXEL codel above the cell (0, 1) that it writes: value 1, x 1, y 2. -/
def selfWriting : State := onGrid ⟨1, 2, [((0, 0), 0x555555)]⟩ ([1, 1, 2].map F64.ofInt)

theorem witness_NextFetchSeesTheWrittenCodel : selfWriting.Inv ∧ selfWriting.Live ⟨1, 2, [((0, 0), 0x555555)]⟩ ∧
    fetchInstr selfWriting.params ⟨1, 2, [((0, 0), 0x555555)]⟩ selfWriting.ptr selfWriting.dir = .ok .setPixel ∧
    ∃ t, step selfWriting = .next t ∧ t.fault = none ∧ t.run ≠ .halted ∧
      t.ptr = pixelPos (selfWriting.operand 1) (selfWriting.operand 0) :=
  ⟨live_inv _ _ (by decide) (by decide), ⟨rfl, by decide, rfl⟩, rfl, _, rfl, rfl, by decide, by decide⟩

theorem witness_ColourLevelsAndPaletteRoundTrip : level 0x3F = 0 ∧ level 0x40 = 1 ∧ level 0x9F = 1 ∧ level 0xA0 = 2 ∧
    level 0xDF = 2 ∧ level 0xE0 = 3 := by decide

/-- The first and the last index of R87's map: the background and white. -/
theorem witness_WrittenOutCodelsDecode : [(0x000000 : Colour), 0xFFFFFF].map (fun c =>
      level (c.extractLsb 23 16).toNat * 16 + level (c.extractLsb 15 8).toNat * 4 + level (c.extractLsb 7 0).toNat) =
    [0, 63] := by decide

theorem witness_OpcodeFromTopThreeBitsOfEachChannel : (0x0000A0 : Colour).extractLsb 23 21 = (0x0000BF : Colour).extractLsb 23 21 ∧
    (0x0000A0 : Colour).extractLsb 15 13 = (0x0000BF : Colour).extractLsb 15 13 ∧
    (0x0000A0 : Colour).extractLsb 7 5 = (0x0000BF : Colour).extractLsb 7 5 := by decide

theorem witness_ParameterSelectsMnemonic : (1 ≤ (⟨0xC, 10, true⟩ : Decoded).param) ∧ (⟨0, 0, false⟩ : Decoded).opcode = 0 := by
  decide

theorem witness_DecodeOfEncodeIsIdentity : Instr.wellFormed .saturate (.logbase 5) = true ∧
    Instr.wellFormed .wrap (.angbase 10) = true ∧ Instr.wellFormed .wrap (.push 1) = true := by decide

theorem witness_TableWordProgramIsFetched : Instr.wellFormed .saturate (.angbase 360) = true ∧ (Instr.angbase 360).turn = false ∧
    tableWord (.angbase 360) < 2 ^ 16 ∧ Instr.wellFormed .saturate .nop = true ∧ tableWord .nop < 2 ^ 0 := by decide

theorem witness_region : allA.read ⟨1, 1⟩ ≠ 0 ∧ ⟨1, 0⟩ ∈ excluded Params.default allA ⟨1, 1⟩ .down ∧
    ⟨0, 1⟩ ∈ region Params.default allA ⟨1, 1⟩ .down := by decide

theorem witness_ParameterBoundsAndIsolatedCodel : oneCell.read ⟨0, 0⟩ ≠ 0 ∧
    ∀ e : Dir, oneCell.read ((⟨0, 0⟩ : Pos).add (mv e)) ≠ oneCell.read ⟨0, 0⟩ :=
  ⟨by decide, fun e => by cases e <;> decide⟩

theorem witness_TurnBitProbesTheRightHandNeighbour : (⟨0xE, 1, true⟩ : Decoded).opcode ≠ 0xF := by decide

theorem witness_GridWriteGrowsThenWrites : oneCell.wf = true ∧ oneCell.inRange ⟨-1, 0⟩ = false ∧ oneCell.inRange ⟨1, 0⟩ = false ∧
    oneCell.write narrow ⟨4, 0⟩ 1 = .ok ⟨5, 1, [((0, 0), 0x0000AA), ((0, 4), 1)]⟩ ∧
    oneCell.write narrow ⟨5, 0⟩ 1 = .error .grid ∧ oneCell.write narrow ⟨0, -1⟩ 1 = .ok oneCell :=
  ⟨by decide, by decide, by decide, rfl, rfl, rfl⟩

theorem witness_StackIsLastInFirstOut : (withInts []).stk = [] ∧ fits narrow.stackMax (0 + 1) = true ∧
    fits narrow.stackMax (1 + 1) = false ∧ (withInts [7]).stk = [F64.ofInt 7] := by decide

/-- R64's corner: SET of user address 0 names the cell below the top, GET of it the top. -/
theorem witness_StackGetAndSetByAddress : (withInts [10, 20, 30]).sp = 2 ∧ (withInts [10, 20, 30]).stackGet (-1) = F64.ofInt 30 ∧
    (withInts [10, 20, 30]).stackGet (-4) = F64.zero false ∧ (withInts [10, 20, 30]).stackGet 3 = F64.zero false ∧
    ((withInts [10, 20, 30]).stackSet (-1) nan1).stk = [F64.ofInt 30, nan1, F64.ofInt 10] := by decide

theorem witness_RndIsFloorOfValuePlusHalf : F64.isNaN nan1 = true ∧ F64.isFinite 0x43E0000000000000 = true ∧
    2 ^ 63 ≤ F64.val 0x43E0000000000000 ∧ F64.val (F64.zero false) < 2 ^ 63 ∧ F64.rnd 0x43DFFFFFFFFFFFFF = 2 ^ 63 - 1024 :=
  ⟨by decide, by decide, le_of_eq (val_two_pow 63 _ (by decide)).symm, by rw [val_zero]; norm_num, by decide⟩

theorem witness_IntegerConversionIsCorrectlyRounded : (-2 ^ 53 : Int).natAbs ≤ 2 ^ 53 ∧
    F64.ofInt (2 ^ 53 + 1) = F64.ofInt (2 ^ 53) ∧ F64.ofInt (2 ^ 53 + 3) = F64.ofInt (2 ^ 53 + 4) := by decide

theorem witness_AdditionIsCorrectlyRounded : F64.isFinite minusZero = true ∧ F64.isFinite (F64.ofInt 1) = true ∧
    F64.val minusZero + F64.val (F64.zero false) = 0 := ⟨by decide, by decide, by rw [show minusZero = F64.zero true by decide]; simp [val_zero]⟩

theorem witness_ProductAndQuotientAreCorrectlyRounded : F64.isFinite (F64.ofInt 1) = true ∧ F64.val (F64.ofInt 1) ≠ 0 :=
  ⟨by decide, by rw [val_one]; exact one_ne_zero⟩

theorem witness_SquareRootIsCorrectlyRounded : F64.isFinite (F64.ofInt 1) = true ∧ 0 ≤ F64.val (F64.ofInt 1) ∧
    F64.val (F64.zero true) = 0 ∧ F64.Negative (F64.inf true) ∧ F64.Negative (F64.ofInt (-1)) ∧ F64.isNaN nan1 = true :=
  ⟨by decide, by rw [val_one]; norm_num, val_zero _, .inl rfl, .inr ⟨by decide, by rw [val_minus_one]; norm_num⟩, by decide⟩

theorem witness_ArithmeticOnInfinitiesAndNaN : F64.isNaN nan1 = true ∧ F64.isFinite (F64.ofInt (-1)) = true ∧
    F64.isFinite minusZero = true := by decide

theorem witness_RoundingsToAnInteger : F64.isFinite minusTwoAndHalf = true ∧ F64.isFinite plusInf = false ∧
    F64.isFinite nan1 = false := by decide

/-- Each value with one family place, or its bounds (`SelectedBy`). -/
theorem witness_SelectedBy : (2 ≤ 2 ∧ ∀ m : Nat, (none : Option Nat) = some m → 2 ≤ m) ∧
    (2 ≤ 2 ∧ ∀ m : Nat, some 2 = some m → 2 ≤ m) := by
  refine ⟨⟨by decide, fun m h => by cases h⟩, by decide, fun m h => by cases h; decide⟩

/-- PUSH, DUP, INPUT, RND, PUSH_IP, PUSH_SP and SWAP, with room and without: a stack of one value, none, and three with the
default capacity. -/
theorem witness_pushes_fit : fits narrow.stackMax ((withInts []).stk.length + 1) = true ∧
    fits narrow.stackMax ((withInts [7]).stk.length + 1) = false ∧ fits narrow.stackMax ((withInts [7]).stk.length + 2) = false ∧
    fits Params.default.stackMax ((withInts [7, 8, 9]).stk.length + 2) = true ∧
    fits (some 2) (((withInts [7]).below 1).length + 2) = true ∧ fits narrow.stackMax (((withInts [7]).below 1).length + 2) = false := by
  decide

/-- GET, the bitwise, comparison, rounding, arithmetic and math instructions: a stack within its capacity. -/
theorem witness_StackOk : (withInts [12, 10]).StackOk ∧ ({ withInts [7] with params := narrow }).StackOk :=
  ⟨⟨rfl, rfl⟩, rfl, rfl⟩

theorem witness_ComparisonsAgainstZero : F64.IsZero minusZero ∧ ¬F64.IsZero nan1 ∧ F64.Negative (F64.ofInt (-1)) ∧
    F64.Positive (F64.ofInt 1) ∧ F64.Positive (F64.inf false) ∧ ¬F64.Positive nan1 ∧ ¬F64.Negative nan1 :=
  ⟨⟨by decide, by rw [show minusZero = F64.zero true by decide]; exact val_zero _⟩, fun h => absurd h.1 (by decide),
    .inr ⟨by decide, by rw [val_minus_one]; norm_num⟩, .inr ⟨by decide, by rw [val_one]; norm_num⟩, .inl rfl,
    fun h => h.elim (by decide) fun h => absurd h.1 (by decide), fun h => h.elim (by decide) fun h => absurd h.1 (by decide)⟩

theorem witness_ModeInstructionsSelectByNumber :
    [-1, 0, 2, 3, 5, 6].map (fun n => F64.rnd ((withInts [n]).operand 0) - (withInts [n]).params.modeBase) = [-1, 0, 2, 3, 5, 6] := by
  decide +kernel

theorem witness_SetPixelWritesOneCell : (withInts [1, 1, 1]).grid = some oneCell ∧ oneCell.wf = true ∧
    (⟨F64.rnd ((withInts [1, 0, 1]).operand 1) - 1, F64.rnd ((withInts [1, 0, 1]).operand 0) - 1⟩ : Pos) = ⟨-1, 0⟩ ∧
    (⟨F64.rnd ((withInts [1, 5, 1]).operand 1) - 1, F64.rnd ((withInts [1, 5, 1]).operand 0) - 1⟩ : Pos) = ⟨4, 0⟩ ∧
    fits narrow.gridMaxW (Grid.grown 4 oneCell.w) = true ∧ fits narrow.gridMaxW (Grid.grown 5 oneCell.w) = false := by
  decide +kernel

theorem witness_GetPixelReadsOneCell : (withInts [1, 1]).grid = some oneCell ∧ (withInts [1, 1]).StackOk ∧
    oneCell.inRange ⟨0, 1⟩ = false := ⟨rfl, ⟨rfl, rfl⟩, by decide⟩

theorem witness_BaseInstructionsWriteTheFactors : F64.isFinite (F64.ofInt (5 : Nat)) = true ∧
    F64.isFinite (F64.ofInt ((2 ^ 1024 : Nat) : Int)) = false := by decide +kernel

theorem witness_DeflectTurnsAQuarter : Params.default.deflectTrueDelta = .minusOne ∧
    ({ Params.default with deflectTrueDelta := .plusOne }).deflectTrueDelta = .plusOne := by decide

end Sys2Proof.Tests
end

section
/-! PROOFS. The number a bit pattern stands for, read off its sign and its 63 magnitude bits: magnitudes are in the order of
their numbers, and every finite value is a sign and a magnitude below that of an infinity (R6, R8). -/

namespace Sys2Proof.F64

/-! ## A finite value's parts -/

/-- What unpacking a number gives: its significand has at most 53 bits. -/
theorem unpack_of_isFinite {a : F64} (h : isFinite a = true) : ∃ s m e, unpack a = .fin s m e ∧ m < 2 ^ 53 := by
  have hfrac : fracField a < 2 ^ 52 := Nat.mod_lt _ (by norm_num)
  have hexp : expField a ≠ 2047 := of_decide_eq_true h
  by_cases h0 : expField a = 0
  · exact ⟨neg a, fracField a, -1074, by simp [unpack, h0], by omega⟩
  · exact ⟨neg a, 2 ^ 52 + fracField a, expField a - 1075, by simp [unpack, hexp, h0], by omega⟩

theorem val_of_unpack {a : F64} {s : Bool} {m : Nat} {e : Int} (h : unpack a = .fin s m e) :
    val a = (signed s m : ℚ) * 2 ^ e := by
  cases s <;> simp [val, h, signed]

/-! ## Magnitudes -/

/-- The significand of the lower 63 bits of a value. -/
def magSig (n : Nat) : Nat := if n / 2 ^ 52 = 0 then n % 2 ^ 52 else 2 ^ 52 + n % 2 ^ 52

/-- The exponent of the lower 63 bits of a value. -/
def magExp (n : Nat) : Int := if n / 2 ^ 52 = 0 then -1074 else (n / 2 ^ 52 : Nat) - 1075

/-- The number that the lower 63 bits of a finite value stand for; the pattern of an infinity, and those above it, continue
the scale of exponents upwards. -/
def magVal (n : Nat) : ℚ := magSig n * 2 ^ magExp n

section
variable {s : Bool} {n : Nat}

theorem toNat_ofParts (h : n < 2 ^ 63) : (ofParts s n).toNat = n + if s then 2 ^ 63 else 0 := by
  rw [ofParts, BitVec.toNat_ofNat]
  exact Nat.mod_eq_of_lt (by split <;> omega)

theorem neg_ofParts (h : n < 2 ^ 63) : neg (ofParts s n) = s := by
  rw [neg, toNat_ofParts h]
  cases s
  · simpa using h
  · simp

theorem expField_ofParts (h : n < 2 ^ 63) : expField (ofParts s n) = n / 2 ^ 52 := by
  rw [expField, toNat_ofParts h]; split <;> omega

theorem fracField_ofParts (h : n < 2 ^ 63) : fracField (ofParts s n) = n % 2 ^ 52 := by
  rw [fracField, toNat_ofParts h]; split <;> omega

theorem isFinite_ofParts (h : n < infMag) : isFinite (ofParts s n) = true := by
  unfold infMag at h
  rw [isFinite, expField_ofParts (by omega), decide_eq_true_eq]
  omega

theorem unpack_ofParts (h : n < infMag) : unpack (ofParts s n) = .fin s (magSig n) (magExp n) := by
  unfold infMag at h
  have hn : n < 2 ^ 63 := by omega
  rw [unpack, expField_ofParts hn, fracField_ofParts hn, neg_ofParts hn, if_neg (by omega), magSig, magExp]
  split <;> rfl

theorem val_ofParts (h : n < infMag) : val (ofParts s n) = (if s then -1 else 1) * magVal n := by
  simp only [val, unpack_ofParts h, magVal, mul_assoc]

end

/-- Every number is a sign and a magnitude below that of an infinity. -/
theorem exists_ofParts {a : F64} (h : isFinite a = true) : ∃ s n, n < infMag ∧ a = ofParts s n := by
  have hexp : expField a ≠ 2047 := of_decide_eq_true h
  have ha : a.toNat < 2 ^ 64 := a.isLt
  unfold expField at hexp
  refine ⟨neg a, a.toNat % 2 ^ 63, by unfold infMag; omega, BitVec.eq_of_toNat_eq ?_⟩
  rw [toNat_ofParts (Nat.mod_lt _ (by norm_num)), neg]
  simp only [decide_eq_true_eq]
  split <;> omega

/-- The magnitude with the significand q at the exponent of j. A significand of 2^53 is the first one of the next exponent. -/
theorem magVal_mul_add {j q : Nat} (hq : q ≤ 2 ^ 53) (hj : j = 0 ∨ 2 ^ 52 ≤ q) :
    magVal (j * 2 ^ 52 + q) = q * 2 ^ ((j : Int) - 1074) := by
  rcases Nat.lt_or_ge q (2 ^ 52) with hlt | hge
  · obtain rfl : j = 0 := by omega
    rw [zero_mul, zero_add, magVal, magSig, magExp, Nat.div_eq_of_lt hlt, Nat.mod_eq_of_lt hlt, if_pos rfl, if_pos rfl]
    norm_num
  rcases hq.lt_or_eq with hlt | rfl
  · have hdiv : (j * 2 ^ 52 + q) / 2 ^ 52 = j + 1 := by omega
    have hmod : 2 ^ 52 + (j * 2 ^ 52 + q) % 2 ^ 52 = q := by omega
    rw [magVal, magSig, magExp, hdiv, if_neg (by omega), if_neg (by omega), hmod]
    congr 2; push_cast; ring
  · have hdiv : (j * 2 ^ 52 + 2 ^ 53) / 2 ^ 52 = j + 2 := by omega
    have hmod : (j * 2 ^ 52 + 2 ^ 53) % 2 ^ 52 = 0 := by omega
    rw [magVal, magSig, magExp, hdiv, if_neg (by omega), if_neg (by omega), hmod,
      show ((j + 2 : Nat) : Int) - 1075 = (j - 1074) + 1 by push_cast; ring, zpow_add_one₀ two_ne_zero]
    push_cast; ring

/-- Every magnitude has a significand below 2^53, and one of at least 2^52 but at the least exponent. -/
theorem exists_significand (n : Nat) : ∃ j q, n = j * 2 ^ 52 + q ∧ q < 2 ^ 53 ∧ (j = 0 ∨ 2 ^ 52 ≤ q) := by
  rcases Nat.lt_or_ge n (2 ^ 52) with h | h
  · exact ⟨0, n, by omega, by omega, .inl rfl⟩
  · exact ⟨n / 2 ^ 52 - 1, 2 ^ 52 + n % 2 ^ 52, by omega, by omega, .inr (by omega)⟩

@[simp] theorem magVal_zero : magVal 0 = 0 := by simp [magVal, magSig]

/-- A larger magnitude is a larger number. -/
theorem magVal_strictMono : StrictMono magVal := by
  refine strictMono_nat_of_lt_succ fun n => ?_
  obtain ⟨j, q, rfl, hq, hj⟩ := exists_significand n
  rw [add_assoc, magVal_mul_add hq.le hj, magVal_mul_add hq (hj.imp_right (by omega))]
  gcongr
  exact q.lt_succ_self

theorem magVal_nonneg (n : Nat) : 0 ≤ magVal n := magVal_zero ▸ magVal_strictMono.monotone n.zero_le

/-- The magnitudes from one exponent on are multiples of its last place. -/
theorem magVal_eq_mul_of_le {j n : Nat} (h : j = 0 ∨ (j + 1) * 2 ^ 52 ≤ n) :
    ∃ t : Nat, magVal n = t * 2 ^ ((j : Int) - 1074) := by
  obtain ⟨i, q, rfl, hq, hi⟩ := exists_significand n
  have hji : j ≤ i := by omega
  refine ⟨q * 2 ^ (i - j), ?_⟩
  rw [magVal_mul_add hq.le hi, show (i : Int) - 1074 = (i - j : Nat) + (j - 1074) by omega, zpow_add₀ two_ne_zero]
  push_cast [zpow_natCast]; ring

end Sys2Proof.F64
end

section
/-! PROOFS. rnd is the floor of the value plus one half (R10). -/

namespace Sys2Proof.F64

theorem floorHalf_eq_floor (s : Bool) (m : Nat) (e : Int) : floorHalf s m e = ⌊(signed s m : ℚ) * 2 ^ e + 1 / 2⌋ := by
  unfold floorHalf
  split_ifs with hm he
  · subst hm
    cases s <;> norm_num [signed]
  · obtain ⟨k, rfl⟩ := Int.eq_ofNat_of_zero_le he
    have hint : (signed s m : ℚ) * 2 ^ (k : Int) = (signed s (m * 2 ^ k) : Int) := by
      cases s <;> simp [signed]
    rw [hint, Int.floor_intCast_add]
    norm_num
  · obtain ⟨k, rfl⟩ : ∃ k : Nat, e = -k := ⟨(-e).toNat, by omega⟩
    rw [neg_neg, Int.toNat_natCast, show (2 : Int) ^ (k + 1) = ((2 ^ (k + 1) : Nat) : Int) by push_cast; rfl,
      ← Rat.floor_intCast_div_natCast]
    congr 1
    rw [zpow_neg, zpow_natCast]
    push_cast
    field_simp
    ring

/-- rnd of a number, before the saturation is resolved. -/
theorem rnd_eq_clamp_floor {a : F64} (h : isFinite a = true) :
    rnd a = max (-2 ^ 63) (min (2 ^ 63 - 1) ⌊val a + 1 / 2⌋) := by
  obtain ⟨s, m, e, hu, -⟩ := unpack_of_isFinite h
  rw [rnd, hu, val_of_unpack hu, ← floorHalf_eq_floor]

/-- No number lies strictly between 2^63 − 1 and 2^63: from 2^53 on, all of them are integers. -/
theorem val_le_of_lt_two_pow_63 {a : F64} (h : isFinite a = true) (hlt : val a < 2 ^ 63) : val a ≤ 2 ^ 63 - 1 := by
  obtain ⟨s, m, e, hu, hm⟩ := unpack_of_isFinite h
  rw [val_of_unpack hu] at hlt ⊢
  rcases le_or_gt 0 e with he | he
  · obtain ⟨k, rfl⟩ := Int.eq_ofNat_of_zero_le he
    have hint : (signed s m : ℚ) * 2 ^ (k : Int) = (signed s m * 2 ^ k : Int) := by simp
    rw [hint] at hlt ⊢
    have hint_lt : signed s m * 2 ^ k < 2 ^ 63 := by exact_mod_cast hlt
    calc ((signed s m * 2 ^ k : Int) : ℚ) ≤ (2 ^ 63 - 1 : Int) := Int.cast_le.2 (by omega)
      _ = 2 ^ 63 - 1 := by norm_num
  · have hsig : (signed s m : ℚ) ≤ 2 ^ 53 := by
      have : signed s m ≤ 2 ^ 53 := by unfold signed; split <;> omega
      exact_mod_cast this
    have hpow : (2 : ℚ) ^ e ≤ 1 := zpow_le_one_of_nonpos₀ one_le_two he.le
    calc (signed s m : ℚ) * 2 ^ e ≤ 2 ^ 53 * 1 := by gcongr
      _ ≤ 2 ^ 63 - 1 := by norm_num

theorem rnd_of_isNaN {a : F64} (h : isNaN a = true) : rnd a = 0 := by
  rw [rnd, show unpack a = .nan from of_decide_eq_true h]

/-- Settles O35: the value of a number is turned into ⌊v + 1/2⌋ exactly, and the saturation acts at the ends alone. -/
theorem rndIsFloorOfValuePlusHalf : Obligations.RndIsFloorOfValuePlusHalf := by
  intro a
  refine ⟨rnd_of_isNaN, by decide, by decide, fun h => ?_⟩
  rw [rnd_eq_clamp_floor h]
  refine ⟨fun hge => ?_, fun hle => ?_, fun hlo hhi => ?_⟩
  · have hfloor : 2 ^ 63 ≤ ⌊val a + 1 / 2⌋ := Int.le_floor.2 (by push_cast; linarith)
    omega
  · have hfloor : ⌊val a + 1 / 2⌋ < -2 ^ 63 + 1 := Int.floor_lt.2 (by push_cast; linarith)
    omega
  · have hlower : -2 ^ 63 ≤ ⌊val a + 1 / 2⌋ := Int.le_floor.2 (by push_cast; linarith)
    have hupper : ⌊val a + 1 / 2⌋ < 2 ^ 63 := Int.floor_lt.2 (by push_cast; linarith [val_le_of_lt_two_pow_63 h hhi])
    omega

end Sys2Proof.F64
end

section
/-! PROOFS. Rounding once to nearest, ties to even (R8, R217): a magnitude nearest to |x| gives the binary64 that `RoundsTo` asks
for, and `roundMag` finds it, since it takes the nearest integer, ties to even, in units of the last place. -/

namespace Sys2Proof.F64

/-! ## The nearest magnitude -/

/-- No magnitude is nearer to x than N, the scale of exponents going on beyond the range, and N is even if another one is as
near. -/
def NearestMag (x : ℝ) (N : Nat) : Prop :=
  ∀ n, |(magVal N : ℝ) - x| ≤ |(magVal n : ℝ) - x| ∧ (n ≠ N → |(magVal n : ℝ) - x| = |(magVal N : ℝ) - x| → N % 2 = 0)

/-- An odd magnitude is passed from halfway to the next one on. -/
theorem NearestMag.lt_iff_of_odd {x : ℝ} {N n : Nat} (h : NearestMag x N) (hn : n % 2 = 1) :
    n < N ↔ (magVal n : ℝ) + magVal (n + 1) ≤ 2 * x := by
  have hmono : StrictMono fun n => (magVal n : ℝ) := fun _ _ hlt => Rat.cast_lt.2 (magVal_strictMono hlt)
  have hstep : (magVal n : ℝ) < magVal (n + 1) := hmono n.lt_succ_self
  constructor
  · intro hN
    by_contra! hx
    have hle : (magVal (n + 1) : ℝ) ≤ magVal N := hmono.monotone hN
    have hnear := (h n).1
    rw [abs_of_nonneg (a := (magVal N : ℝ) - x) (by linarith)] at hnear
    rcases le_abs'.1 hnear with hfar | hfar <;> linarith
  · intro hx
    by_contra! hN
    have hle : (magVal N : ℝ) ≤ magVal n := hmono.monotone hN
    obtain ⟨hnear, htie⟩ := h (n + 1)
    rw [abs_of_nonpos (a := (magVal N : ℝ) - x) (by linarith)] at hnear htie
    rcases le_abs.1 hnear with hfar | hfar
    · have hNn : N = n := hmono.injective (by linarith)
      have heven := htie (by omega) (by rw [abs_of_nonneg] <;> linarith)
      omega
    · linarith

/-- R217's bound of the range is halfway between the largest number and the next magnitude. -/
theorem NearestMag.infMag_le_iff {x : ℝ} {N : Nat} (h : NearestMag x N) :
    infMag ≤ N ↔ (2 : ℝ) ^ (1024 : ℕ) - 2 ^ (970 : ℕ) ≤ x := by
  have hmax : magVal (infMag - 1) = (2 ^ 53 - 1) * 2 ^ (971 : ℤ) := by
    rw [show infMag - 1 = 2045 * 2 ^ 52 + (2 ^ 53 - 1) by decide, magVal_mul_add (by norm_num) (.inr (by norm_num))]
    norm_num
  have hinf : magVal (infMag - 1 + 1) = 2 ^ 52 * 2 ^ (972 : ℤ) := by
    rw [show infMag - 1 + 1 = 2046 * 2 ^ 52 + 2 ^ 52 by decide, magVal_mul_add (by norm_num) (.inr le_rfl)]
    norm_num
  rw [show infMag ≤ N ↔ infMag - 1 < N by unfold infMag; omega, h.lt_iff_of_odd (by decide), hmax, hinf]
  rw [show (2 : ℝ) ^ (1024 : ℕ) = 2 ^ 54 * 2 ^ (970 : ℕ) by rw [← pow_add],
    show (2 : ℚ) ^ (971 : ℤ) = 2 * 2 ^ (970 : ℕ) by rw [← pow_succ']; rfl,
    show (2 : ℚ) ^ (972 : ℤ) = 4 * 2 ^ (970 : ℕ) by rw [show (4 : ℚ) = 2 ^ 2 by norm_num, ← pow_add]; rfl]
  push_cast
  generalize (2 : ℝ) ^ (970 : ℕ) = u
  constructor <;> intro hx <;> linarith

theorem NearestMag.eq_zero {N : Nat} (h : NearestMag 0 N) : N = 0 := by
  have hnear := (h 0).1
  rw [magVal_zero, Rat.cast_zero, sub_zero, sub_zero, abs_zero, abs_nonpos_iff, Rat.cast_eq_zero] at hnear
  exact magVal_strictMono.injective (hnear.trans magVal_zero.symm)

theorem abs_val_ofParts {s : Bool} {n : Nat} (h : n < infMag) : |val (ofParts s n)| = magVal n := by
  rw [val_ofParts h]
  cases s <;> simp [abs_of_nonneg (magVal_nonneg n)]

theorem val_ofParts_not {s : Bool} {n : Nat} (h : n < infMag) : val (ofParts (!s) n) = -val (ofParts s n) := by
  rw [val_ofParts h, val_ofParts h]
  cases s <;> simp

/-- A number with a sign of x is as far from x as its magnitude is from |x|. -/
theorem abs_val_ofParts_sub {x : ℝ} {s : Bool} {n : Nat} (h : n < infMag) (hpos : 0 < x → s = false)
    (hneg : x < 0 → s = true) : |(val (ofParts s n) : ℝ) - x| = |(magVal n : ℝ) - abs x| := by
  rw [val_ofParts h]
  rcases lt_trichotomy x 0 with hx | rfl | hx
  · rw [hneg hx, abs_of_neg hx, ← abs_neg]
    congr 1; push_cast; simp; ring
  · cases s <;> simp
  · rw [hpos hx, abs_of_pos hx]; simp

/-- A number with any sign is at least that far. -/
theorem le_abs_val_ofParts_sub {s : Bool} {n : Nat} (x : ℝ) (h : n < infMag) :
    |(magVal n : ℝ) - abs x| ≤ |(val (ofParts s n) : ℝ) - x| := by
  rw [← abs_val_ofParts (s := s) h, Rat.cast_abs]
  exact abs_abs_sub_abs_le _ _

/-- A nearest magnitude, an infinity's beyond the range, with a sign of x is x rounded. -/
theorem NearestMag.roundsTo {x : ℝ} {N : Nat} {s : Bool} (h : NearestMag |x| N) (hpos : 0 < x → s = false)
    (hneg : x < 0 → s = true) : RoundsTo x (ofParts s (min N infMag)) := by
  have hsign : neg (ofParts s (min N infMag)) = s := neg_ofParts (by unfold infMag; omega)
  have hzero : x = 0 → N = 0 := by rintro rfl; exact NearestMag.eq_zero (by simpa using h)
  unfold RoundsTo
  rw [hsign, ← h.infMag_le_iff, ← not_le (b := |x|), ← h.infMag_le_iff]
  refine ⟨fun hN => ?_, fun hN => ?_⟩
  · rw [min_eq_right hN]
    refine ⟨rfl, fun hs => ?_, hneg⟩
    have hx0 : x ≠ 0 := fun hx => absurd (hzero hx) (by unfold infMag at hN; omega)
    have hxpos : ¬0 < x := fun hx => by simp [hpos hx] at hs
    exact lt_of_le_of_ne (not_lt.1 hxpos) hx0
  · rw [not_le] at hN
    rw [min_eq_left hN.le]
    have hr := abs_val_ofParts_sub hN hpos hneg
    refine ⟨isFinite_ofParts hN, hpos, hneg, fun y hfin => ?_, fun y hfin hne htie => ?_⟩
    · obtain ⟨t, n, hn, rfl⟩ := exists_ofParts hfin
      exact hr.trans_le ((h n).1.trans (le_abs_val_ofParts_sub x hn))
    · obtain ⟨t, n, hn, rfl⟩ := exists_ofParts hfin
      have heven : N % 2 = 0 := by
        by_cases hnN : n = N
        · subst hnN
          obtain rfl : t = !s := Bool.eq_not.2 fun hts => hne (hts ▸ rfl)
          rw [val_ofParts_not hn] at hne htie
          push_cast at htie
          rcases abs_eq_abs.1 htie with hval | hval
          · have : (val (ofParts s n) : ℝ) = 0 := by linarith
            simp [Rat.cast_eq_zero.1 this] at hne
          · rw [hzero (by linarith)]
        · exact (h n).2 hnN (le_antisymm (hr ▸ htie ▸ le_abs_val_ofParts_sub x hn) (h n).1)
      rw [toNat_ofParts (by unfold infMag at hN; omega)]
      split <;> omega

/-- A number is what it rounds to. -/
theorem RoundsTo.val_eq {y r : F64} (hy : isFinite y = true) (h : RoundsTo (val y) r) : val r = val y := by
  obtain ⟨s, n, hn, rfl⟩ := exists_ofParts hy
  have hself : NearestMag (magVal n) n := fun k => ⟨by simp, fun hk heq => by
    rw [sub_self, abs_zero, abs_eq_zero, sub_eq_zero, Rat.cast_inj] at heq
    exact absurd (magVal_strictMono.injective heq) hk⟩
  have hrange : |(val (ofParts s n) : ℝ)| < 2 ^ (1024 : ℕ) - 2 ^ (970 : ℕ) := by
    rw [← Rat.cast_abs, abs_val_ofParts hn, ← not_le, ← hself.infMag_le_iff, not_le]
    exact hn
  obtain ⟨-, -, -, hnear, -⟩ := h.2 hrange
  have hdist := hnear _ hy
  rw [sub_self, abs_zero, abs_nonpos_iff, sub_eq_zero, Rat.cast_inj] at hdist
  exact hdist

/-! ## Units in the last place -/

/-- A multiple of u within half of u from x is a nearest one, and another one is as near only from exactly half. -/
theorem abs_mul_sub_le_of_near {x u : ℝ} {q : Nat} (hu : 0 < u) (hnear : 2 * |q * u - x| ≤ u) (t : Nat) :
    |q * u - x| ≤ |t * u - x| ∧ (t ≠ q → |t * u - x| = |q * u - x| → 2 * |q * u - x| = u) := by
  rcases eq_or_ne t q with rfl | htq
  · exact ⟨le_rfl, fun h => absurd rfl h⟩
  have hint : (1 : ℝ) ≤ |(t : ℝ) - q| := by
    exact_mod_cast Int.one_le_abs (sub_ne_zero.2 (Nat.cast_injective.ne htq))
  have hgap : u ≤ |t * u - q * u| := by
    rw [← sub_mul, abs_mul, abs_of_pos hu]
    exact le_mul_of_one_le_left hu.le hint
  have htriangle := abs_sub_le (t * u) x (q * u)
  rw [abs_sub_comm x] at htriangle
  exact ⟨by linarith, fun _ htie => by linarith⟩

/-- The nearest integer q, ties to even, in units of the last place of x gives the nearest magnitude. -/
theorem nearestMag_mul_add {x : ℝ} {j q : Nat} (hlo : j = 0 ∨ 2 ^ 52 * 2 ^ ((j : Int) - 1074) ≤ x)
    (hhi : x < 2 ^ 53 * 2 ^ ((j : Int) - 1074)) (hnear : 2 * |q * 2 ^ ((j : Int) - 1074) - x| ≤ 2 ^ ((j : Int) - 1074))
    (heven : 2 * |q * 2 ^ ((j : Int) - 1074) - x| = 2 ^ ((j : Int) - 1074) → q % 2 = 0) :
    NearestMag x (j * 2 ^ 52 + q) := by
  have hval {q : Nat} (hq : q ≤ 2 ^ 53) (hj : j = 0 ∨ 2 ^ 52 ≤ q) :
      (magVal (j * 2 ^ 52 + q) : ℝ) = q * 2 ^ ((j : Int) - 1074) := by
    rw [magVal_mul_add hq hj]; push_cast; rfl
  have hmult {n : Nat} (hn : j = 0 ∨ (j + 1) * 2 ^ 52 ≤ n) : ∃ t : Nat, (magVal n : ℝ) = t * 2 ^ ((j : Int) - 1074) := by
    obtain ⟨t, ht⟩ := magVal_eq_mul_of_le hn
    exact ⟨t, by rw [ht]; push_cast; rfl⟩
  have hu : (0 : ℝ) < 2 ^ ((j : Int) - 1074) := by positivity
  generalize (2 : ℝ) ^ ((j : Int) - 1074) = u at *
  obtain ⟨hbelow, habove⟩ := abs_le.1 ((le_div_iff₀' two_pos).2 hnear)
  have hq : q ≤ 2 ^ 53 := by
    have : (q : ℝ) < (2 ^ 53 + 1 : Nat) := lt_of_mul_lt_mul_right (a := u) (by push_cast; linarith) hu.le
    exact Nat.le_of_lt_succ (by exact_mod_cast this)
  have hj : j = 0 ∨ 2 ^ 52 ≤ q := hlo.imp_right fun hx => by
    have : ((2 ^ 52 : Nat) : ℝ) < (q + 1 : Nat) := lt_of_mul_lt_mul_right (a := u) (by push_cast; linarith) hu.le
    exact Nat.le_of_lt_succ (by exact_mod_cast this)
  intro n
  by_cases hn : j = 0 ∨ (j + 1) * 2 ^ 52 ≤ n
  · obtain ⟨t, ht⟩ := hmult hn
    obtain ⟨hle, htie⟩ := abs_mul_sub_le_of_near hu hnear t
    rw [hval hq hj, ht]
    refine ⟨hle, fun hne heq => ?_⟩
    have htq : t ≠ q := by
      rintro rfl
      exact hne (magVal_strictMono.injective (Rat.cast_injective (α := ℝ) (ht.trans (hval hq hj).symm)))
    have := heven (htie htq heq)
    omega
  · push Not at hn
    have hx := hlo.resolve_left hn.1
    have hlt : (magVal n : ℝ) < (2 ^ 52 : Nat) * u := by
      rw [← hval (by norm_num) (.inr le_rfl), Rat.cast_lt]
      exact magVal_strictMono (by omega)
    have hbase := (abs_mul_sub_le_of_near hu hnear (2 ^ 52)).1
    rw [abs_of_nonpos (a := (2 ^ 52 : Nat) * u - x) (by push_cast; linarith)] at hbase
    push_cast at hbase hlt
    rw [hval hq hj, abs_of_neg (a := (magVal n : ℝ) - x) (by linarith)]
    exact ⟨by linarith, fun _ heq => by linarith⟩

/-- m / 2^k rounded is within one half of it, and even at exactly one half. -/
theorem shiftRound_near (m : Nat) (k : Int) :
    2 * |(shiftRound m k : ℝ) * 2 ^ k - m| ≤ 2 ^ k ∧
      (2 * |(shiftRound m k : ℝ) * 2 ^ k - m| = 2 ^ k → shiftRound m k % 2 = 0) := by
  rcases le_or_gt k 0 with hk | hk
  · obtain ⟨i, rfl⟩ : ∃ i : Nat, k = -i := ⟨(-k).toNat, by omega⟩
    have hexact : (shiftRound m (-i) : ℝ) * 2 ^ (-i : Int) = m := by
      rw [shiftRound, if_pos hk, neg_neg, Int.toNat_natCast, zpow_neg, zpow_natCast]
      push_cast; field_simp
    have hu : (0 : ℝ) < 2 ^ (-i : Int) := by positivity
    rw [hexact, sub_self, abs_zero, mul_zero]
    exact ⟨hu.le, fun h => absurd h hu.ne⟩
  · obtain ⟨i, rfl⟩ := Int.eq_ofNat_of_zero_le hk.le
    simp only [shiftRound, not_le.2 hk, if_false, Int.toNat_natCast, zpow_natCast]
    have hm : (m : ℝ) = (m / 2 ^ i : Nat) * (2 ^ i : Nat) + (m % 2 ^ i : Nat) := by
      exact_mod_cast (Nat.div_add_mod' m (2 ^ i)).symm
    have hlt : m % 2 ^ i < 2 ^ i := Nat.mod_lt m (Nat.two_pow_pos i)
    rw [show (2 : ℝ) ^ i = (2 ^ i : Nat) by push_cast; rfl, hm]
    generalize m / 2 ^ i = q at *
    generalize m % 2 ^ i = r at *
    generalize 2 ^ i = d at *
    split_ifs with hup
    · have hdist : |((q + 1 : Nat) : ℝ) * d - (q * d + r)| = (d : ℝ) - r := by
        have : (r : ℝ) ≤ d := by exact_mod_cast hlt.le
        rw [← abs_of_nonneg (sub_nonneg.2 this)]
        congr 1; push_cast; ring
      have hle : (d : ℝ) ≤ 2 * r := by exact_mod_cast (show d ≤ 2 * r by omega)
      rw [hdist]
      refine ⟨by linarith, fun heq => ?_⟩
      have : d = 2 * r := by exact_mod_cast (show (d : ℝ) = 2 * r by linarith)
      omega
    · have hdist : |(q : ℝ) * d - (q * d + r)| = r := by simp
      rw [hdist]
      exact ⟨by exact_mod_cast (show 2 * r ≤ d by omega), fun heq => by
        have : 2 * r = d := by exact_mod_cast heq
        omega⟩

/-! ## Rounding -/

/-- The magnitude of `round` is a nearest one to m·2^e, an infinity's beyond the range. -/
theorem roundMag_nearest (m : Nat) (e : Int) : ∃ N, NearestMag (m * 2 ^ e) N ∧ roundMag m e = min N infMag := by
  by_cases hm : m = 0
  · subst hm
    exact ⟨0, fun n => ⟨by simp, fun _ _ => rfl⟩, by simp [roundMag]⟩
  have hulp : ulpExp m e = max ((m.log2 : Int) + e - 52) (-1074) := rfl
  obtain ⟨j, hj⟩ : ∃ j : Nat, ulpExp m e = j - 1074 := ⟨(ulpExp m e + 1074).toNat, by omega⟩
  refine ⟨j * 2 ^ 52 + shiftRound m (ulpExp m e - e), ?_, by rw [roundMag, if_neg hm, hj]; simp⟩
  have he : (0 : ℝ) < 2 ^ e := by positivity
  have hmul (a : Nat) (b : Int) : (2 : ℝ) ^ a * 2 ^ b = 2 ^ (a + b) := by rw [zpow_add₀ two_ne_zero, zpow_natCast]
  have hscale : (2 : ℝ) ^ ((j : Int) - 1074) = 2 ^ (ulpExp m e - e) * 2 ^ e := by
    rw [← zpow_add₀ two_ne_zero, hj, sub_add_cancel]
  have hdist : 2 * |(shiftRound m (ulpExp m e - e) : ℝ) * 2 ^ ((j : Int) - 1074) - m * 2 ^ e| =
      2 * |(shiftRound m (ulpExp m e - e) : ℝ) * 2 ^ (ulpExp m e - e) - m| * 2 ^ e := by
    rw [hscale, ← mul_assoc, ← sub_mul, abs_mul, abs_of_pos he, mul_assoc]
  obtain ⟨hnear, heven⟩ := shiftRound_near m (ulpExp m e - e)
  refine nearestMag_mul_add ?_ ?_ ?_ ?_
  · refine or_iff_not_imp_left.2 fun hj0 => ?_
    calc (2 : ℝ) ^ 52 * 2 ^ ((j : Int) - 1074) = 2 ^ m.log2 * 2 ^ e := by rw [hmul, hmul]; congr 1; omega
      _ ≤ m * 2 ^ e := by gcongr; exact_mod_cast Nat.log2_self_le hm
  · calc (m : ℝ) * 2 ^ e < 2 ^ (m.log2 + 1) * 2 ^ e := by gcongr; exact_mod_cast Nat.lt_log2_self
      _ ≤ 2 ^ 53 * 2 ^ ((j : Int) - 1074) := by
        rw [hmul, hmul]; exact zpow_le_zpow_right₀ one_le_two (by push_cast; omega)
  · rw [hdist, hscale]
    gcongr
  · rw [hdist, hscale]
    exact fun h => heven (mul_right_cancel₀ he.ne' h)

/-- Rounding is correct for every exact ±m·2^e (R217). -/
theorem round_roundsTo (s : Bool) (m : Nat) (e : Int) : RoundsTo (signed s m * 2 ^ e) (round s m e) := by
  obtain ⟨N, hN, hround⟩ := roundMag_nearest m e
  have he : (0 : ℝ) < 2 ^ e := by positivity
  rw [round, hround]
  refine NearestMag.roundsTo ?_ ?_ ?_
  · convert hN using 1
    cases s <;> simp [signed, abs_mul, abs_of_pos he]
  · cases s
    · simp
    · simp [signed]; positivity
  · cases s
    · simp [signed]; positivity
    · simp

theorem signed_natAbs (n : Int) : signed (decide (n < 0)) n.natAbs = n := by
  rcases lt_or_ge n 0 with hn | hn
  · simp [signed, hn, abs_of_neg hn]
  · simp [signed, not_lt.2 hn, abs_of_nonneg hn]

/-- Every integer up to 2^53 is the value of a number: it has at most 53 significant bits, or is 2^53. -/
theorem exists_val_eq_intCast {n : Int} (h : n.natAbs ≤ 2 ^ 53) : ∃ y, isFinite y = true ∧ val y = n := by
  suffices ∃ N < infMag, magVal N = n.natAbs by
    obtain ⟨N, hN, hval⟩ := this
    refine ⟨ofParts (decide (n < 0)) N, isFinite_ofParts hN, ?_⟩
    rw [val_ofParts hN, hval]
    conv_rhs => rw [← signed_natAbs n]
    unfold signed
    split <;> simp
  generalize n.natAbs = m at *
  rcases Nat.eq_zero_or_pos m with rfl | hm
  · exact ⟨0, by decide, by simp⟩
  obtain ⟨l, hl, hlo, hhi⟩ : ∃ l ≤ 52, 2 ^ l ≤ m ∧ m ≤ 2 ^ (l + 1) := by
    rcases h.lt_or_eq with hlt | rfl
    · have : m.log2 < 53 := (Nat.log2_lt hm.ne').2 hlt
      exact ⟨m.log2, by omega, Nat.log2_self_le hm.ne', Nat.lt_log2_self.le⟩
    · exact ⟨52, le_rfl, by norm_num, le_rfl⟩
  have hqlo : 2 ^ 52 ≤ m * 2 ^ (52 - l) := by
    calc 2 ^ 52 = 2 ^ l * 2 ^ (52 - l) := by rw [← pow_add]; congr 1; omega
      _ ≤ m * 2 ^ (52 - l) := by gcongr
  have hqhi : m * 2 ^ (52 - l) ≤ 2 ^ 53 := by
    calc m * 2 ^ (52 - l) ≤ 2 ^ (l + 1) * 2 ^ (52 - l) := by gcongr
      _ = 2 ^ 53 := by rw [← pow_add]; congr 1; omega
  refine ⟨(1022 + l) * 2 ^ 52 + m * 2 ^ (52 - l), by unfold infMag; omega, ?_⟩
  rw [magVal_mul_add hqhi (.inr hqlo), show ((1022 + l : Nat) : Int) - 1074 = -(52 - l : Nat) by omega, zpow_neg, zpow_natCast]
  push_cast
  field_simp

theorem ofInt_roundsTo (n : Int) : RoundsTo n (ofInt n) := by
  have h := round_roundsTo (decide (n < 0)) n.natAbs 0
  rwa [signed_natAbs, zpow_zero, mul_one] at h

/-- Settles O36: the conversion is the one rounding of n·2^0, and an integer up to 2^53 is a number already. -/
theorem integerConversionIsCorrectlyRounded : Obligations.IntegerConversionIsCorrectlyRounded := by
  refine fun n => ⟨ofInt_roundsTo n, fun hn => ?_⟩
  obtain ⟨y, hy, hval⟩ := exists_val_eq_intCast hn
  rw [← hval]
  exact RoundsTo.val_eq hy (by rw [hval]; exact_mod_cast ofInt_roundsTo n)

end Sys2Proof.F64
end

section
/-! PROOFS. The step: what each instruction leaves unchanged (R34, R122), that the scratch map it starts with is never read (R31,
R36), and that a halted or faulted block stays so (R23, R24, R266). -/

namespace Sys2Proof.Machine

/-! ## What every effect leaves unchanged -/

namespace Effect

variable {i : Instr} {s t : State}

theorem ptr_eq (h : Effect i s t) : t.ptr = s.ptr := by cases h <;> simp

theorem params_eq (h : Effect i s t) : t.params = s.params := by cases h <;> simp

theorem draws_eq (h : Effect i s t) : t.draws = s.draws := by cases h <;> simp

theorem run_eq (h : Effect i s t) (hi : i ≠ .pause) : t.run = s.run := by
  cases h with
  | pause hp => exact absurd hp hi
  | _ => simp

theorem dir_eq (h : Effect i s t) (hi : ∀ b, i ≠ .deflect b) : t.dir = s.dir := by
  cases h with
  | deflect b hb => exact absurd hb (hi b)
  | _ => simp

theorem ioMode_eq (h : Effect i s t) (hi : i ≠ .iomode) : t.ioMode = s.ioMode := by
  cases h with
  | iomode m hm => exact absurd hm hi
  | _ => simp

theorem gfxMode_eq (h : Effect i s t) (hi : i ≠ .gfxmode) : t.gfxMode = s.gfxMode := by
  cases h with
  | gfxmode m hm => exact absurd hm hi
  | _ => simp

theorem logFactor_eq (h : Effect i s t) (hi : ∀ n, i ≠ .logbase n) : t.logFactor = s.logFactor := by
  cases h with
  | logbase n hn => exact absurd hn (hi n)
  | _ => simp

theorem angFactor_eq (h : Effect i s t) (hi : ∀ n, i ≠ .angbase n) : t.angFactor = s.angFactor := by
  cases h with
  | angbase n hn => exact absurd hn (hi n)
  | _ => simp

theorem output_eq (h : Effect i s t) (hi : i ≠ .print) : t.output = s.output := by
  cases h with
  | print o ho => exact absurd ho hi
  | _ => simp

theorem grid_scratch_eq (h : Effect i s t) (hi : i ≠ .setPixel) : t.grid = s.grid ∧ t.scratch = s.scratch := by
  cases h with
  | setPixel g g' hp => exact absurd hp hi
  | _ => simp

end Effect

/-- The instructions with no operand on the stack leave it alone. -/
theorem exec_stk_eq {i : Instr} {s t : State} (h : exec i s = .next t)
    (hi : i ∈ [.nop, .pause, .reserved, .forward] ∨ (∃ n, i = .logbase n ∨ i = .angbase n) ∨ ∃ b, i = .deflect b) :
    t.stk = s.stk := by
  simp only [List.mem_cons, List.not_mem_nil, or_false] at hi
  obtain (rfl | rfl | rfl | rfl) | ⟨n, rfl | rfl⟩ | ⟨b, rfl⟩ := hi <;>
    obtain rfl := Host.Outcome.next.inj h <;> rfl

/-- Settles O14: every effect of an instruction changes the fault record, the stack and its own register alone. -/
theorem eachRegisterHasOneWriter : Obligations.EachRegisterHasOneWriter := by
  intro i s t h
  have e := exec_effect h
  exact ⟨e.ptr_eq, e.params_eq, e.draws_eq, e.run_eq, e.dir_eq, e.ioMode_eq, e.gfxMode_eq, e.logFactor_eq, e.angFactor_eq,
    e.output_eq, e.grid_scratch_eq, exec_stk_eq h⟩

/-! ## A stopped block -/

theorem stopped_eq_false_iff (s : State) : s.stopped = false ↔ s.run ≠ .halted ∧ s.fault = none := by
  simp [State.stopped]

theorem step_of_stopped {s : State} {g : Grid} (hg : s.grid = some g) (hs : s.stopped = true) : step s = .next s := by
  simp [step, hg, hs]

theorem command_resume_cases {s t : State} (h : command .resume s = .next t) :
    t = s ∨ (s.run = .paused ∧ t = { s with run := .running }) := by
  simp only [command] at h
  split at h
  · obtain rfl := Host.Outcome.next.inj h
    split
    · next hp => exact .inr ⟨hp, rfl⟩
    · exact .inl rfl
  · simp at h

/-- Settles O6: a STEP that takes effect begins neither halted nor faulted, and RESUME acts on a paused block alone. -/
theorem haltAndFaultEndOnlyByResetOrInstall : Obligations.HaltAndFaultEndOnlyByResetOrInstall := by
  intro c s t h hreset hinstall
  cases c with
  | reset => exact absurd rfl hreset
  | install w₀ h₀ rows => exact absurd rfl (hinstall w₀ h₀ rows)
  | resume =>
    obtain rfl | ⟨hp, rfl⟩ := command_resume_cases h
    · exact ⟨id, fun _ => id⟩
    · exact ⟨fun hh => by simp [hp] at hh, fun _ => id⟩
  | step =>
    obtain ⟨g, -, ⟨-, rfl⟩ | ⟨hs, -⟩⟩ := step_cases h
    · exact ⟨id, fun _ => id⟩
    · obtain ⟨hrun, hfault⟩ := (stopped_eq_false_iff s).1 hs
      exact ⟨fun hh => absurd hh hrun, fun k hk => by simp [hfault] at hk⟩

/-! ## The scratch map a step starts with -/

/-- A step that began with another scratch map ends alike: a rollback restores the map it began with, an advance keeps the one
the execute left. -/
theorem finish_scratch_congr (s u : State) (m : CellMap Int) :
    { State.finish { s with scratch := m } u with scratch := (s.finish u).scratch } = s.finish u := by
  cases hu : u.fault with
  | none => rw [s.finish_of_none u hu, State.finish_of_none _ u hu]
  | some k => rw [s.finish_of_fault u k hu, State.finish_of_fault _ u k hu]; rfl

/-- Settles O13: the fetch overwrites the whole map before the execute, which so starts from the same state. -/
theorem scratchMapNeverMatters : Obligations.ScratchMapNeverMatters := by
  intro s t m h
  obtain ⟨g, hg, ⟨hs, rfl⟩ | ⟨hs, i, u, hi, hu, rfl⟩⟩ := step_cases h
  · exact ⟨_, step_of_stopped (s := { t with scratch := m }) hg hs, rfl⟩
  · have hfetch : State.afterFetch { s with scratch := m } g = s.afterFetch g := rfl
    refine ⟨State.finish { s with scratch := m } u, ?_, finish_scratch_congr s u m⟩
    rw [step_of_fetch (s := { s with scratch := m }) hg hs hi, hfetch, hu, settle_next]

end Sys2Proof.Machine
end

section
/-! PROOFS. Every step keeps the invariant (R21, R29, R30, R31, R265): the fetch, the execute, the advance and the rollback each
do. -/

namespace Sys2Proof.Machine

/-! ## A written grid -/

/-- A grid write never shrinks the grid. -/
theorem write_size_le {prm : Params} {g g' : Grid} {p : Pos} {c : Colour} (h : g.write prm p c = .ok g') :
    g.w ≤ g'.w ∧ g.h ≤ g'.h := by
  rcases write_cases prm g p c with ⟨-, hw⟩ | ⟨-, -, -, -, hw⟩ | ⟨-, -, -, hw⟩ <;> rw [hw] at h
  · obtain rfl := Except.ok.inj h
    exact ⟨le_rfl, le_rfl⟩
  · obtain rfl := Except.ok.inj h
    exact ⟨(grown_spec _ _).2, (grown_spec _ _).2⟩
  · simp at h

theorem inRange_mono {g g' : Grid} {p : Pos} (hw : g.w ≤ g'.w) (hh : g.h ≤ g'.h) (hp : g.inRange p = true) :
    g'.inRange p = true := by
  rw [inRange_iff] at *; omega

/-! ## The advance -/

/-- One step from inside the grid ends inside it or just outside. -/
theorem justOutside_of_not_inRange {g : Grid} {p : Pos} {d : Dir} (hp : g.inRange p = true)
    (hq : g.inRange (p.add (mv d)) = false) : g.justOutside (p.add (mv d)) := by
  rw [← Bool.not_eq_true, inRange_iff] at hq
  rw [inRange_iff] at hp
  unfold Grid.justOutside
  cases d <;> simp only [Pos.add, mv] at hq ⊢ <;> omega

namespace State.Inv

variable {s : State} {g : Grid}

/-! ## Each part of a step -/

theorem takeFault (h : s.Inv) (hg : s.grid = some g) (hrun : s.run ≠ .halted) (k : CapacityKind) : (s.takeFault k).Inv :=
  { h with faultOk := fun _ => ⟨by simp [hg], hrun⟩ }

theorem afterFetch (h : s.Inv) (hg : s.grid = some g) : (s.afterFetch g).Inv :=
  { h with
    scratchOk := fun g' hg' => by
      obtain rfl := Option.some.inj (hg.symm.trans hg')
      exact scratchOf_wf _ _ _ _ _
    noGrid := fun hn => by simp [hg] at hn }

theorem withStk (h : s.Inv) {k : List F64} (hk : fits s.params.stackMax k.length = true ∨ k.length ≤ s.stk.length) :
    State.Inv { s with stk := k } :=
  { h with stackOk := ⟨hk.elim id (fits_mono h.stackOk.1), h.stackOk.2⟩ }

theorem withBelow (h : s.Inv) (n : Nat) : State.Inv { s with stk := s.below n } := h.withStk (.inr (below_le s n))

theorem withGrid (h : s.Inv) (hg : s.grid = some g) (hrun : s.run ≠ .halted) {p : Pos} {c : Colour} {g' : Grid}
    (hw : g.write s.params p c = .ok g') : (s.withGrid g g').Inv where
  stackOk := by simpa [State.StackOk] using h.stackOk
  gridOk := by simpa using write_keeps_ok (h.gridOk g hg) hw
  inside := by
    obtain ⟨hle, hle'⟩ := write_size_le hw
    simpa using fun _ => inRange_mono hle hle' (h.inside g hg hrun)
  outside := fun _ _ hh => absurd (by simpa using hh) hrun
  faultOk := fun _ => by simpa using hrun
  scratchOk := by
    simp only [withGrid_grid, Option.some.injEq, forall_eq', withGrid_scratch]
    split
    · next hsize => exact hsize.1 ▸ hsize.2 ▸ h.scratchOk g hg
    · exact scratchFree_wf _ _
  noGrid := by simp

/-- No effect of an instruction breaks the invariant while the block is not halted. -/
theorem ofEffect {i : Instr} {t : State} (h : s.Inv) (hg : s.grid = some g) (hrun : s.run ≠ .halted)
    (e : Effect i s t) : t.Inv := by
  cases e with
  | stackFault => exact h.takeFault hg hrun .stack
  | gridFault => exact h.takeFault hg hrun .grid
  | stack k hk => exact h.withStk hk
  | pause =>
    exact { h with
      inside := fun g' hg' _ => h.inside g' hg' hrun
      outside := nofun
      faultOk := fun hf => ⟨(h.faultOk hf).1, nofun⟩ }
  | deflect b => exact { h with }
  | print o => exact { h.withBelow 1 with }
  | iomode m => exact { h.withBelow 1 with }
  | gfxmode m => exact { h.withBelow 1 with }
  | logbase n => exact { h with }
  | angbase n => exact { h with }
  | setPixel g₀ g' _ hg₀ hw => exact (h.withBelow 3).withGrid hg₀ hrun hw

theorem advance (h : s.Inv) (hg : s.grid = some g) (hrun : s.run ≠ .halted) (hfault : s.fault = none) :
    s.advance.Inv := by
  have hin := h.inside g hg hrun
  have hptr : s.ptrInside (s.ptr.add (mv s.dir)) = g.inRange (s.ptr.add (mv s.dir)) := by simp [ptrInside, hg]
  refine { h with inside := fun g' hg' hr => ?_, outside := fun g' hg' hr => ?_, faultOk := fun hf => absurd hfault hf }
  all_goals
    obtain rfl := Option.some.inj (hg.symm.trans hg')
    rw [advance_run, hptr] at hr
  · by_contra hout
    exact hr (if_neg hout)
  · refine justOutside_of_not_inRange hin (by_contra fun hout => hrun ?_)
    rwa [if_pos (by simpa using hout)] at hr

end State.Inv

/-! ## The step -/

theorem Effect.run_ne_halted {i : Instr} {s t : State} (e : Effect i s t) (hrun : s.run ≠ .halted) : t.run ≠ .halted := by
  cases e with
  | pause => nofun
  | setPixel => rwa [State.withGrid_run]
  | _ => exact hrun

theorem Effect.exists_grid {i : Instr} {s t : State} {g : Grid} (e : Effect i s t) (hg : s.grid = some g) :
    ∃ g', t.grid = some g' := by
  cases e with
  | setPixel _ g' => exact ⟨g', State.withGrid_grid ..⟩
  | _ => exact ⟨g, hg⟩

/-- Settles O15, part by part: the fetch and the execute keep the invariant, and so does the end of the step, which advances or
rolls back. -/
theorem stepKeepsInvariant : Obligations.StepKeepsInvariant := by
  intro s t hinv h
  obtain ⟨g, hg, ⟨-, rfl⟩ | ⟨hs, i, u, -, hu, rfl⟩⟩ := step_cases h
  · exact hinv
  have hrun := ((stopped_eq_false_iff s).1 hs).1
  have e := exec_effect hu
  obtain ⟨g', hg'⟩ := e.exists_grid hg
  have huinv : u.Inv := (hinv.afterFetch hg).ofEffect hg hrun e
  cases hf : u.fault with
  | none =>
    rw [s.finish_of_none u hf]
    exact { huinv.advance hg' (e.run_ne_halted hrun) hf with }
  | some k =>
    rw [s.finish_of_fault u k hf]
    exact hinv.takeFault hg hrun k

end Sys2Proof.Machine
end

section
/-! PROOFS. The log factor (R27): with saturation only a parameter of at least 5 selects LOGBASE, the fifth mnemonic of its
family (R101, R102). -/

namespace Sys2Proof

/-- What `decode` answers is an entry of a family, given the parameter and the turn bit. -/
theorem decode_ok {sel : SelOverflow} {d : Decoded} {i : Instr} (h : decode sel d = .ok i) :
    ∃ f, (family d.opcode)[selectIndex sel (family d.opcode).length d.param - 1]? = some f ∧ f d.param d.turn = i := by
  unfold decode at h
  split at h
  · simp at h
  · split at h
    · next f hf => exact ⟨f, hf, Except.ok.inj h⟩
    · simp at h

/-- The table's own places: the entry `j` of the family `k` gives an instruction with opcode `k` and selector `j + 1` (R101). -/
theorem familyTable_places (p : Nat) (t : Bool) :
    familyTable.map (fun fam => fam.map fun f => ((f p t).opcode, (f p t).selector)) =
      familyTable.zipIdx.map fun e => e.1.zipIdx.map fun x => (BitVec.ofNat 4 e.2, x.2 + 1) := rfl

theorem family_place {op : Opcode} {j : Nat} {f : Nat → Bool → Instr} (hf : (family op)[j]? = some f) (p : Nat) (t : Bool) :
    (f p t).opcode = op ∧ (f p t).selector = j + 1 := by
  obtain ⟨fam, hfam⟩ : ∃ fam, familyTable[op.toNat]? = some fam :=
    ⟨_, List.getElem?_eq_getElem (show op.toNat < 16 from op.isLt)⟩
  rw [family, List.getD_eq_getElem?_getD, hfam, Option.getD_some] at hf
  have h := congrArg (·[op.toNat]?.map (·[j]?)) (familyTable_places p t)
  simpa [hfam, hf] using h

/-- A parameter below the count of a family selects its own place, so the fifth of five needs at least 5 (R102). -/
theorem five_le_of_selectIndex_eq {p : Nat} (h : selectIndex .saturate 5 p = 5) : 5 ≤ p := by
  unfold selectIndex at h
  split_ifs at h <;> omega

theorem five_le_of_decode_logbase {d : Decoded} {n : Nat} (h : decode .saturate d = .ok (.logbase n)) : 5 ≤ n := by
  obtain ⟨op, p, t⟩ := d
  obtain ⟨f, hf, hn⟩ := decode_ok h
  obtain ⟨hop, hsel⟩ := hn ▸ family_place hf p t
  obtain rfl : 0xC = op := hop
  have hindex : selectIndex .saturate 5 p = 5 := by
    have hplace : 5 = selectIndex .saturate 5 p - 1 + 1 := hsel
    omega
  obtain rfl : (fun n _ => Instr.logbase n) = f := by
    have hfifth : (family 0xC)[selectIndex .saturate 5 p - 1]? = some f := hf
    rw [hindex] at hfifth
    exact Option.some.inj hfifth
  obtain rfl : p = n := Instr.logbase.inj hn
  exact five_le_of_selectIndex_eq hindex

namespace Machine

/-- Settles O17: only LOGBASE writes the log factor, and its parameter is one that selected it. -/
theorem logFactorStaysALogarithm : Obligations.LogFactorStaysALogarithm := by
  intro s t hsel hok h
  obtain ⟨g, -, ⟨-, rfl⟩ | ⟨-, i, u, hi, hu, rfl⟩⟩ := step_cases h
  · exact hok
  cases hf : u.fault with
  | some k => rwa [s.finish_of_fault u k hf]
  | none =>
    rw [s.finish_of_none u hf]
    by_cases hlog : ∃ n, i = .logbase n
    · obtain ⟨n, rfl⟩ := hlog
      obtain rfl := Host.Outcome.next.inj hu
      rw [fetchInstr, hsel] at hi
      exact .inr ⟨n, five_le_of_decode_logbase hi, rfl⟩
    · have hkept := (exec_effect hu).logFactor_eq (not_exists.1 hlog)
      exact show LogFactorOk u.logFactor from hkept ▸ hok

end Machine

end Sys2Proof
end

section
/-! PROOFS. The contents of the scratch map a fetch leaves (R31, R90 to R93): several writes into a sparse array, the flood and
the visiting order without repetition, and the ranks that the order gives. -/

namespace Sys2Proof

/-! ## Several writes -/

namespace CellMap

variable {α : Type} [DecidableEq α] {blank : α} {k : Nat × Nat} {es : List ((Nat × Nat) × α)} {m : CellMap α}

theorem find_putAll_other (hk : ∀ e ∈ es, e.1 ≠ k) : find blank k (putAll blank es m) = find blank k m := by
  induction es generalizing m with
  | nil => rfl
  | cons e r ih =>
    rw [List.forall_mem_cons] at hk
    rw [putAll, ih hk.2, find_put_other hk.1.symm]

/-- Where all the writes write one value, the last write of a key does not matter. -/
theorem find_putAll_const {w h : Nat} {v : α} (hm : wf blank w h m = true)
    (hes : ∀ e ∈ es, (e.1.1 < h ∧ e.1.2 < w) ∧ e.2 = v) (hk : ∃ e ∈ es, e.1 = k) :
    find blank k (putAll blank es m) = v := by
  induction es generalizing m with
  | nil => simp at hk
  | cons e r ih =>
    obtain ⟨k', v'⟩ := e
    obtain ⟨⟨hin, rfl⟩, hr⟩ := List.forall_mem_cons.1 hes
    by_cases hlater : ∃ e ∈ r, e.1 = k
    · exact ih (wf_put hm hin) hr hlater
    · obtain rfl : k' = k := by simpa [hlater] using hk
      rw [putAll, find_putAll_other fun e he hek => hlater ⟨e, he, hek⟩, find_put_same hm]

end CellMap

namespace Machine

/-! ## The visited cells, without repetition -/

theorem cellKey_inj {g : Grid} {p q : Pos} (hp : g.inRange p = true) (hq : g.inRange q = true) (h : cellKey p = cellKey q) :
    p = q := by
  rw [inRange_iff] at hp hq
  obtain ⟨px, py⟩ := p
  obtain ⟨qx, qy⟩ := q
  simp only [cellKey, Prod.mk.injEq, Pos.mk.injEq] at *
  omega

/-- The flood takes no cell twice. -/
theorem flood_nodup (ok : Pos → Bool) (n : Nat) (work vis : List Pos) (h : vis.Nodup) : (flood ok n work vis).Nodup := by
  fun_induction flood ok n work vis with
  | case1 => exact h
  | case2 => exact h
  | case3 vis n q work hq ih => exact ih (List.nodup_cons.2 ⟨by simp_all, h⟩)
  | case4 vis n q work hq ih => exact ih h

theorem region_nodup (prm : Params) (g : Grid) (P : Pos) (dir : Dir) : (region prm g P dir).Nodup := by
  unfold region
  split
  · exact List.nodup_nil
  · exact flood_nodup _ _ _ _ List.nodup_nil

/-- Taking out as many elements as there are leaves none. -/
theorem rearrange_perm {α : Type} (choice : Nat → Nat) : ∀ xs : List α, (rearrange choice xs.length xs).Perm xs := by
  suffices h : ∀ n (xs : List α), xs.length = n → (rearrange choice n xs).Perm xs from fun xs => h _ xs rfl
  intro n
  induction n with
  | zero => exact fun xs hxs => List.length_eq_zero_iff.1 hxs ▸ .nil
  | succ n ih =>
    intro xs hxs
    have hlt : choice n % xs.length < xs.length := Nat.mod_lt _ (by omega)
    rw [rearrange, List.getElem?_eq_getElem hlt]
    exact ((ih _ (by rw [List.length_eraseIdx_of_lt hlt]; omega)).cons _).trans (List.getElem_cons_eraseIdx_perm hlt)

theorem visitOrder_perm (draw : Nat) (cells : List Pos) : (visitOrder draw cells).Perm cells := rearrange_perm _ cells

/-! ## Ranks -/

/-- A ranked cell holds its place in the order, counted from `r`. -/
theorem find_putAll_ranked {g : Grid} {q : Pos} {qs : List Pos} {r : Nat} {m : CellMap Int}
    (hm : CellMap.wf 0 g.w g.h m = true) (hqs : ∀ p ∈ qs, g.inRange p = true) (hnodup : qs.Nodup) (hq : q ∈ qs) :
    CellMap.find 0 (cellKey q) (CellMap.putAll 0 (ranked r qs) m) = (r + qs.idxOf q : Nat) := by
  induction qs generalizing r m with
  | nil => simp at hq
  | cons p ps ih =>
    obtain ⟨hp, hps⟩ := List.forall_mem_cons.1 hqs
    obtain ⟨hnot, hnodup⟩ := List.nodup_cons.1 hnodup
    rw [ranked, CellMap.putAll]
    by_cases hpq : p = q
    · subst hpq
      have hlater : ∀ e ∈ ranked (r + 1) ps, e.1 ≠ cellKey p := by
        intro e he hkey
        obtain ⟨p', hp', hkey'⟩ := mem_ranked he
        exact hnot (cellKey_inj (hps p' hp') hp (hkey' ▸ hkey) ▸ hp')
      rw [CellMap.find_putAll_other hlater, CellMap.find_put_same hm, List.idxOf_cons_self, Nat.add_zero]
    · rw [ih (CellMap.wf_put hm (cellKey_inRange hp)) hps hnodup ((List.mem_cons.1 hq).resolve_left (Ne.symm hpq)),
        List.idxOf_cons_ne _ hpq]
      omega

/-! ## The map of a fetch -/

section
variable {prm : Params} {g : Grid} {P q : Pos} {dir : Dir} {n : Nat}

theorem excluded_inRange (h : q ∈ excluded prm g P dir) : g.inRange q = true := by
  obtain ⟨h0, hq⟩ := excluded_colour h
  exact inRange_of_read (hq ▸ h0)

theorem mem_visitOrder : q ∈ visitOrder n (region prm g P dir) ↔ q ∈ region prm g P dir := (visitOrder_perm n _).mem_iff

/-- What the fetch writes before the ranks: −1 at every excluded cell. -/
theorem excludedEntries_spec :
    ∀ e ∈ (excluded prm g P dir).map (fun q => (cellKey q, (-1 : Int))), (e.1.1 < g.h ∧ e.1.2 < g.w) ∧ e.2 = -1 := by
  intro e he
  obtain ⟨q, hq, rfl⟩ := List.mem_map.1 he
  exact ⟨cellKey_inRange (excluded_inRange hq), rfl⟩

theorem find_scratchOf_visited (hq : q ∈ region prm g P dir) : CellMap.find 0 (cellKey q) (scratchOf prm g P dir n) =
    (1 + (visitOrder n (region prm g P dir)).idxOf q : Nat) :=
  find_putAll_ranked (CellMap.wf_putAll rfl fun e he => (excludedEntries_spec e he).1)
    (fun _ hp => (region_mem (mem_visitOrder.1 hp)).1) ((visitOrder_perm n _).nodup_iff.2 (region_nodup ..))
    (mem_visitOrder.2 hq)

/-- The ranks leave every cell alone that the flood did not visit. -/
theorem find_scratchOf_not_visited (hin : g.inRange q = true) (hq : q ∉ region prm g P dir) :
    CellMap.find 0 (cellKey q) (scratchOf prm g P dir n) =
      CellMap.find 0 (cellKey q) (CellMap.putAll 0 ((excluded prm g P dir).map fun q => (cellKey q, (-1 : Int))) []) := by
  refine CellMap.find_putAll_other fun e he hkey => hq ?_
  obtain ⟨p, hp, hkey'⟩ := mem_ranked he
  have hp := mem_visitOrder.1 hp
  exact cellKey_inj (region_mem hp).1 hin (hkey' ▸ hkey) ▸ hp

theorem find_scratchOf_excluded (hq : q ∈ excluded prm g P dir) :
    CellMap.find 0 (cellKey q) (scratchOf prm g P dir n) = -1 := by
  rw [find_scratchOf_not_visited (excluded_inRange hq) fun hr => (region_mem hr).2.2 hq]
  exact CellMap.find_putAll_const (w := g.w) (h := g.h) rfl excludedEntries_spec ⟨_, List.mem_map_of_mem hq, rfl⟩

theorem find_scratchOf_other (hin : g.inRange q = true) (hex : q ∉ excluded prm g P dir) (hq : q ∉ region prm g P dir) :
    CellMap.find 0 (cellKey q) (scratchOf prm g P dir n) = 0 := by
  rw [find_scratchOf_not_visited hin hq, CellMap.find_putAll_other, CellMap.find]
  intro e he hkey
  obtain ⟨p, hp, rfl⟩ := List.mem_map.1 he
  exact hex (cellKey_inj (excluded_inRange hp) hin hkey ▸ hp)

end

/-- Settles O30: a visited cell holds 1 plus its place in the visiting order, which rearranges the region. -/
theorem scratchMapHoldsRanksAndExclusions : Obligations.ScratchMapHoldsRanksAndExclusions := by
  intro prm g P dir n
  refine ⟨scratchOf_wf .., fun q => find_scratchOf_excluded, fun q hq => ?_, fun q hq r hr h => ?_,
    fun q => find_scratchOf_other⟩
  · have hlt := List.idxOf_lt_length_of_mem (mem_visitOrder (n := n).2 hq)
    rw [(visitOrder_perm n _).length_eq] at hlt
    rw [find_scratchOf_visited hq]
    omega
  · rw [find_scratchOf_visited hq, find_scratchOf_visited hr] at h
    exact (List.idxOf_inj (mem_visitOrder (n := n).2 hq)).1 (by omega)

end Machine

end Sys2Proof
end

section
/-! PROOFS. The stack primitives (R61 to R65), with the stack, which is stored top first, read from the bottom. -/

namespace Sys2Proof.Machine

/-! ## Push and pop -/

theorem pop_of_nil {s : State} (h : s.stk = []) : s.pop = (F64.zero false, s) := by simp [State.pop, h]

theorem pop_of_cons {s : State} {v : F64} {rest : List F64} (h : s.stk = v :: rest) :
    s.pop = (v, { s with stk := rest }) := by simp [State.pop, h]

/-- Settles O33: one lemma for each stack that a pop and a push can meet. -/
theorem stackIsLastInFirstOut : Obligations.StackIsLastInFirstOut := by
  intro s v
  refine ⟨fun h => ⟨pop_of_nil h, by simp [State.sp, h]⟩, fun w rest h => ?_, fun hfits => ?_, push_error v⟩
  · exact ⟨pop_of_cons h, by simp [pop_of_cons h, State.sp, h]⟩
  · exact ⟨_, push_ok v hfits, rfl, pop_of_cons rfl, by simp [State.sp]⟩

/-! ## Positional access -/

section
variable {s : State} {i j : Int}

theorem stackIndex_of_nonneg (off : Int) (h : 0 ≤ i) : s.stackIndex off i = i := if_neg (by omega)

theorem stackGet_inside (hj : s.stackIndex s.params.negOffsetGet i = j) (h0 : 0 ≤ j) (hsp : j ≤ s.sp) :
    s.stackGet i = s.stk.getD (s.sp - j).toNat (F64.zero false) := by
  subst hj
  exact if_pos ⟨h0, hsp⟩

theorem stackGet_outside (hj : s.stackIndex s.params.negOffsetGet i = j) (h : ¬(0 ≤ j ∧ j ≤ s.sp)) :
    s.stackGet i = F64.zero false := by
  subst hj
  exact if_neg h

theorem stackSet_inside (v : F64) (hj : s.stackIndex s.params.negOffsetSet i = j) (h0 : 0 ≤ j) (hsp : j ≤ s.sp) :
    s.stackSet i v = { s with stk := s.stk.set (s.sp - j).toNat v } := by
  subst hj
  exact if_pos ⟨h0, hsp⟩

theorem stackSet_outside (v : F64) (hj : s.stackIndex s.params.negOffsetSet i = j) (h : ¬(0 ≤ j ∧ j ≤ s.sp)) :
    s.stackSet i v = s := by
  subst hj
  exact if_neg h

@[simp] theorem sp_stackSet (v : F64) : (s.stackSet i v).sp = s.sp := by simp [State.sp]

/-- R65: a get after a set at an allocated address. -/
theorem stackGet_stackSet_same (v : F64) (h0 : 0 ≤ i) (hsp : i ≤ s.sp) : (s.stackSet i v).stackGet i = v := by
  have hlt : (s.sp - i).toNat < s.stk.length := by unfold State.sp at *; omega
  rw [stackGet_inside (stackIndex_of_nonneg _ h0) h0 (by rwa [sp_stackSet]), sp_stackSet,
    stackSet_inside v (stackIndex_of_nonneg _ h0) h0 hsp]
  simp [List.getD_eq_getElem?_getD, hlt]

end

/-- The cell `j` from the bottom is `sp - j` from the top. -/
theorem getElem?_reverse_stk {s : State} {j : Int} (h0 : 0 ≤ j) (hj : j ≤ s.sp) :
    s.stk.reverse[j.toNat]? = some (s.stk.getD (s.sp - j).toNat (F64.zero false)) := by
  unfold State.sp at hj ⊢
  have hlt : ((s.stk.length : Int) - 1 - j).toNat < s.stk.length := by omega
  rw [List.getElem?_reverse (by omega), List.getD_eq_getElem _ _ hlt, ← List.getElem?_eq_getElem]
  congr 1
  omega

theorem set_reverse_stk {s : State} {j : Int} (v : F64) (h0 : 0 ≤ j) (hsp : j ≤ s.sp) :
    (s.stk.reverse.set j.toNat v).reverse = s.stk.set (s.sp - j).toNat v := by
  unfold State.sp at hsp ⊢
  refine List.ext_getElem (by simp) fun m _ hm => ?_
  rw [List.length_set] at hm
  have hswap : j.toNat = s.stk.length - 1 - m ↔ ((s.stk.length : Int) - 1 - j).toNat = m := by omega
  simp only [List.getElem_reverse, List.getElem_set, List.length_set, List.length_reverse, hswap]
  split
  · rfl
  · congr 1
    omega

/-- Settles O34: the address names a cell from the bottom, which the model finds from the top. -/
theorem stackGetAndSetByAddress : Obligations.StackGetAndSetByAddress := by
  intro s i j v
  refine ⟨fun hj => ⟨fun h0 hsp => ?_, stackGet_outside hj.symm⟩,
    fun hj => ⟨fun h0 hsp => ?_, stackSet_outside v hj.symm⟩, stackGet_stackSet_same v⟩
  · rw [getElem?_reverse_stk h0 hsp, stackGet_inside hj.symm h0 hsp]
  · rw [stackSet_inside v hj.symm h0 hsp, set_reverse_stk v h0 hsp]

end Sys2Proof.Machine
end

section
/-! PROOFS. The growth function and a grid write (R52 to R55), and that the next fetch sees the written codel (R74, R286). -/

namespace Sys2Proof.Machine

/-! ## The growth function -/

theorem bigger_of_lt {x : Nat} (h : x < 6) : Grid.bigger x = x + 1 := if_pos h

theorem bigger_of_le {x : Nat} (h : 6 ≤ x) : Grid.bigger x = x + 2 ^ (x / 6).log2 := if_neg (by omega)

theorem bigger_strictMono : StrictMono Grid.bigger := by
  intro x y hxy
  rcases Nat.lt_or_ge y 6 with hy | hy
  · rw [bigger_of_lt (by omega), bigger_of_lt hy]
    omega
  rcases Nat.lt_or_ge x 6 with hx | hx
  · have := lt_bigger y
    rw [bigger_of_lt hx]
    omega
  · have hlog : (x / 6).log2 ≤ (y / 6).log2 :=
      (Nat.le_log2 (by omega)).2 ((Nat.log2_self_le (by omega)).trans (Nat.div_le_div_right hxy.le))
    rw [bigger_of_le hx, bigger_of_le hy]
    exact Nat.add_lt_add_of_lt_of_le hxy (Nat.pow_le_pow_right (by omega) hlog)

/-- Settles O32: the binary logarithm is the largest exponent of a power of two not above its argument. -/
theorem biggerAddsThePowerOfTwo : Obligations.BiggerAddsThePowerOfTwo := by
  refine ⟨fun x hx => ?_, fun _ => bigger_of_lt, fun _ _ h => bigger_strictMono h⟩
  have hne : x / 6 ≠ 0 := by omega
  exact ⟨_, bigger_of_le hx, Nat.log2_self_le hne, fun j => (Nat.le_log2 hne).2⟩

/-! ## Growth by iteration -/

/-- Bounded growth iterates `bigger` while the dimension is insufficient. -/
theorem growTo_eq_iterate (n x w : Nat) :
    ∃ j, Grid.growTo n x w = Grid.bigger^[j] w ∧ ∀ i < j, Grid.bigger^[i] w ≤ x := by
  induction n generalizing w with
  | zero => exact ⟨0, rfl, by simp⟩
  | succ n ih =>
    by_cases hw : w ≤ x
    · obtain ⟨j, hj, hlt⟩ := ih (Grid.bigger w)
      refine ⟨j + 1, by rw [Grid.growTo, if_pos hw, hj, Function.iterate_succ_apply], fun i hi => ?_⟩
      cases i with
      | zero => exact hw
      | succ i => exact hlt i (by omega)
    · exact ⟨0, by rw [Grid.growTo, if_neg hw]; rfl, by simp⟩

/-- The grown size of a dimension is the first iterate of `bigger` above the coordinate. -/
theorem grown_eq_iterate {z : Int} (hz : 0 ≤ z) (w : Nat) :
    ∃ j, Grid.grown z.toNat w = Grid.bigger^[j] w ∧ z < (Grid.bigger^[j] w : Nat) ∧
      ∀ i < j, (Grid.bigger^[i] w : Nat) ≤ z := by
  obtain ⟨j, hj, hlt⟩ := growTo_eq_iterate (z.toNat + 1) z.toNat w
  have hgrown := (grown_spec z.toNat w).1
  change Grid.grown z.toNat w = _ at hj
  exact ⟨j, hj, by omega, fun i hi => by have := hlt i hi; omega⟩

/-! ## A grid write -/

section
variable {prm : Params} {g g' : Grid} {p : Pos} {c : Colour}

theorem Grid.ok_iff : g.ok prm = true ↔ g.wf = true ∧ fits prm.gridMaxW g.w = true ∧ fits prm.gridMaxH g.h = true := by
  simp only [Grid.ok, Bool.and_eq_true, and_assoc]

theorem write_of_neg (h : p.x < 0 ∨ p.y < 0) : g.write prm p c = .ok g := if_pos h

/-- A written coordinate of the grid reads as the colour written. -/
theorem read_write_same (hg : g.wf = true) (h : g.write prm p c = .ok g') (hp : g'.inRange p = true) :
    g'.read p = c := by
  rw [inRange_iff] at hp
  obtain ⟨hx, hxw, hy, hyh⟩ := hp
  rcases write_cases prm g p c with ⟨hneg, -⟩ | ⟨-, -, -, -, hw⟩ | ⟨-, -, -, hw⟩
  · omega
  · obtain rfl := Except.ok.inj (hw.symm.trans h)
    exact read_put_same hg hx hy hxw hyh
  · simp [hw] at h

end

/-- Settles O31: the grown dimensions are the iterates of `bigger`, and a write puts one cell into the grown grid. -/
theorem gridWriteGrowsThenWrites : Obligations.GridWriteGrowsThenWrites := by
  intro prm g p c hg
  refine ⟨read_out, write_of_neg, fun hx hy => ?_⟩
  obtain ⟨j, hj, hxj, hleast⟩ := grown_eq_iterate hx g.w
  obtain ⟨k, hk, hyk, hleast'⟩ := grown_eq_iterate hy g.h
  refine ⟨j, k, hxj, hleast, hyk, hleast', ?_⟩
  rw [← hj, ← hk]
  rcases write_cases prm g p c with ⟨hneg, -⟩ | ⟨-, -, hfw, hfh, hw⟩ | ⟨-, -, hfits, hw⟩
  · omega
  · have hgw := (grown_spec p.x.toNat g.w).2
    have hgh := (grown_spec p.y.toNat g.h).2
    have hok : g.ok prm = true := Grid.ok_iff.2 ⟨hg, fits_mono hfw hgw, fits_mono hfh hgh⟩
    have hwf := (Grid.ok_iff.1 (write_keeps_ok hok hw)).1
    refine ⟨fun _ _ => ⟨_, hw, hwf, rfl, rfl, hgw, hgh, ?_, fun q => read_put_other hg hx hy hgw hgh⟩, ?_⟩
    · exact read_put_same hg hx hy (hj ▸ hxj) (hk ▸ hyk)
    · simp [hfw, hfh]
  · exact ⟨fun hfw hfh => absurd ⟨hfw, hfh⟩ hfits, fun _ => hw⟩

/-! ## The fetch after SET_PIXEL -/

/-- Everything SET_PIXEL can answer: its grid written, or the fault. -/
theorem exec_setPixel_next {s t : State} (h : exec .setPixel s = .next t) :
    t = s.takeFault .grid ∨ ∃ g g', s.grid = some g ∧ t = State.withGrid { s with stk := s.below 3 } g g' ∧
      g.write s.params (pixelPos (s.operand 1) (s.operand 0)) (encodePixel s.gfxMode (s.operand 2)) = .ok g' := by
  rw [exec_setPixel, pop_pop_pop_value, pop_pop_value, pop_value, pop_pop_pop_state] at h
  obtain ⟨g, hg, ⟨g', hw, rfl⟩ | ⟨-, rfl⟩⟩ := writeCell_next h
  · exact .inr ⟨g, g', hg, rfl, hw⟩
  · exact .inl rfl

/-- Settles O18: the invariant puts the pointer of a block that is not halted inside the written grid, where the write is read
back. -/
theorem nextFetchSeesTheWrittenCodel : Obligations.NextFetchSeesTheWrittenCodel := by
  intro s t g hinv hlive hfetch hstep hfault hrun hptr
  have hinside := (stepKeepsInvariant s t hinv hstep).inside
  obtain ⟨hg, hsrun, hsfault⟩ := hlive
  rw [step_of_fetch hg ((stopped_eq_false_iff s).2 ⟨hsrun, hsfault⟩) hfetch] at hstep
  obtain ⟨u, hu, rfl⟩ := settle_eq_next hstep
  rcases exec_setPixel_next hu with hfaulted | ⟨g₀, g', hg₀, hwritten, hw⟩
  · rw [hfaulted, State.finish_of_fault _ _ .grid rfl] at hfault
    simp at hfault
  · obtain rfl := Option.some.inj (hg.symm.trans hg₀)
    have hgrid : (s.finish u).grid = some g' := by
      rw [hwritten, State.finish_of_none _ _ (by simpa using hsfault)]
      exact State.withGrid_grid ..
    have hread := read_write_same (Grid.ok_iff.1 (hinv.gridOk g hg)).1 hw (hptr ▸ hinside g' hgrid hrun)
    exact ⟨g', hgrid, hptr ▸ hread, congrArg decodeOpcode (hptr ▸ hread)⟩

end Sys2Proof.Machine
end

section
/-! PROOFS. The colour decoder (R81 to R87): a level depends on the top three bits of its channel alone. -/

namespace Sys2Proof

/-! ## The channels as bits of the colour -/

theorem redOf_eq (c : Colour) : redOf c = (c.extractLsb 23 16).toNat := by
  rw [BitVec.extractLsb_toNat, redOf, Nat.shiftRight_eq_div_pow]; omega

theorem greenOf_eq (c : Colour) : greenOf c = (c.extractLsb 15 8).toNat := by
  rw [BitVec.extractLsb_toNat, greenOf, Nat.shiftRight_eq_div_pow]

theorem blueOf_eq (c : Colour) : blueOf c = (c.extractLsb 7 0).toNat := by
  rw [BitVec.extractLsb_toNat, blueOf, Nat.shiftRight_zero]

theorem redOf_div (c : Colour) : redOf c / 32 = (c.extractLsb 23 21).toNat := by
  rw [BitVec.extractLsb_toNat, redOf, Nat.shiftRight_eq_div_pow]; omega

theorem greenOf_div (c : Colour) : greenOf c / 32 = (c.extractLsb 15 13).toNat := by
  rw [BitVec.extractLsb_toNat, greenOf, Nat.shiftRight_eq_div_pow]; omega

theorem blueOf_div (c : Colour) : blueOf c / 32 = (c.extractLsb 7 5).toNat := by
  rw [BitVec.extractLsb_toNat, blueOf, Nat.shiftRight_eq_div_pow]; omega

/-! ## Levels and opcodes -/

theorem level_congr {a b : Nat} (h : a / 32 = b / 32) : level a = level b := by rw [level, level, h]

theorem decodeOpcode_palette (op : Opcode) : decodeOpcode (palette op.toNat) = op := by
  revert op; decide

/-- Settles O19: a level is a function of the channel's top three bits, and each palette colour is decoded. -/
theorem colourLevelsAndPaletteRoundTrip : Obligations.ColourLevelsAndPaletteRoundTrip := by
  refine ⟨fun c hc => ?_, rfl, fun i hi => congrArg BitVec.toNat (decodeOpcode_palette (BitVec.ofNatLT i hi))⟩
  have htable : ∀ k < 8, level (32 * k) = [0, 0, 1, 1, 1, 2, 2, 3].getD k 9 := by decide
  rw [level_congr (by omega : c / 32 = 32 * (c / 32) / 32)]
  exact htable _ (by omega)

/-- Settles O20: equal top bits of the three channels are equal levels, and so one index of the reverse palette. -/
theorem opcodeFromTopThreeBitsOfEachChannel : Obligations.OpcodeFromTopThreeBitsOfEachChannel := by
  intro c d hr hg hb
  have hred : level (redOf c) = level (redOf d) := level_congr (by rw [redOf_div, redOf_div, hr])
  have hgreen : level (greenOf c) = level (greenOf d) := level_congr (by rw [greenOf_div, greenOf_div, hg])
  have hblue : level (blueOf c) = level (blueOf d) := level_congr (by rw [blueOf_div, blueOf_div, hb])
  simp only [decodeOpcode, colourIndex, hred, hgreen, hblue]

/-- Settles O25: the index named by the statement is `colourIndex`, so R87's rows are rows of the reverse palette. -/
theorem writtenOutCodelsDecode : Obligations.WrittenOutCodelsDecode := by
  refine ⟨fun row hrow idx hidx c hc => ?_, by decide, rfl, rfl, rfl, rfl⟩
  rw [← redOf_eq, ← greenOf_eq, ← blueOf_eq] at hc
  rw [decodeOpcode, colourIndex, hc]
  clear c hc
  revert idx row
  decide

end Sys2Proof
end

section
/-! PROOFS. The selection of a mnemonic (R101 to R104): a triple that a fetch can deliver selects an entry of its family, which
is given the parameter and the turn bit; and the encoding of a well-formed instruction selects the instruction (R106). -/

namespace Sys2Proof

/-! ## The index -/

section
variable {sel : SelOverflow} {n p : Nat}

theorem selectIndex_one : selectIndex sel 1 p = 1 := rfl

theorem selectIndex_of_le (h : p ≤ n) (hp : 1 ≤ p ∨ 1 < n) : selectIndex sel n p = p := by
  unfold selectIndex
  split_ifs <;> omega

theorem selectIndex_saturate_of_lt (h : n < p) (hn : 1 < n) : selectIndex .saturate n p = n := by
  rw [selectIndex, if_neg (by omega), if_neg (by omega)]

theorem selectIndex_wrap_of_lt (h : n < p) (hn : 1 < n) : selectIndex .wrap n p = (p - 1) % n + 1 := by
  rw [selectIndex, if_neg (by omega), if_neg (by omega)]

/-- A parameter of at least 1 selects one of the places of a family, and so does any parameter of a family of one. -/
theorem selectIndex_mem (hn : 1 ≤ n) (h : 1 ≤ p ∨ n = 1) : 1 ≤ selectIndex sel n p ∧ selectIndex sel n p ≤ n := by
  obtain rfl | hn : n = 1 ∨ 1 < n := by omega
  · exact ⟨le_rfl, le_rfl⟩
  rcases Nat.lt_or_ge n p with hlt | hle
  · cases sel with
    | saturate => rw [selectIndex_saturate_of_lt hlt hn]; omega
    | wrap => rw [selectIndex_wrap_of_lt hlt hn]; have := Nat.mod_lt (p - 1) (by omega : 0 < n); omega
  · rw [selectIndex_of_le hle (.inr hn)]; omega

theorem selectIndex_saturate (hn : 1 ≤ n) (h : 1 ≤ p ∨ n = 1) : selectIndex .saturate n p = min (max 1 p) n := by
  obtain rfl | hn : n = 1 ∨ 1 < n := by omega
  · rw [selectIndex_one]; omega
  rcases Nat.lt_or_ge n p with hlt | hle
  · rw [selectIndex_saturate_of_lt hlt hn]; omega
  · rw [selectIndex_of_le hle (.inr hn)]; omega

/-- A parameter selects the fifth of five exactly if LOGBASE and ANGBASE are well-formed with it. -/
theorem selectIndex_five_iff : selectIndex sel 5 p = 5 ↔ lastOfFive sel p = true := by
  rcases Nat.lt_or_ge 5 p with hlt | hle
  · cases sel with
    | saturate => simp [selectIndex_saturate_of_lt hlt, lastOfFive, hlt.le]
    | wrap =>
      simp only [selectIndex_wrap_of_lt hlt (by omega : 1 < 5), lastOfFive, Bool.and_eq_true, decide_eq_true_eq]
      omega
  · rw [selectIndex_of_le hle (by omega)]
    cases sel <;> simp only [lastOfFive, Bool.and_eq_true, decide_eq_true_eq] <;> omega

end

/-! ## The family -/

theorem family_length (op : Opcode) :
    (family op).length = [1, 1, 2, 2, 1, 4, 4, 3, 3, 3, 4, 4, 5, 5, 1, 2].getD op.toNat 0 := by
  revert op; decide

theorem family_length_pos (op : Opcode) : 1 ≤ (family op).length := by revert op; decide

/-- Opcode 0, the only one that a fetch delivers with parameter 0, has a family of one. -/
theorem one_le_or_family_length {op : Opcode} {p : Nat} (h : op = 0 ∨ 1 ≤ p) : 1 ≤ p ∨ (family op).length = 1 :=
  h.symm.imp_right fun h0 => by rw [h0]; rfl

theorem family_eq_getElem (op : Opcode) : family op = familyTable[op.toNat]'op.isLt := List.getD_eq_getElem _ _ op.isLt

/-- The parameter `p` and the turn bit `t` are the operands of the instruction where it has one (R103). -/
def Instr.OperandsFrom (p : Nat) (t : Bool) (i : Instr) : Prop :=
  (∀ n, i = .push n ∨ i = .logbase n ∨ i = .angbase n → n = p) ∧ ∀ b, i = .deflect b → b = t

theorem family_operandsFrom {op : Opcode} {f : Nat → Bool → Instr} (hf : f ∈ family op) (p : Nat) (t : Bool) :
    (f p t).OperandsFrom p t := by
  have htable : ∀ fam ∈ familyTable, ∀ f ∈ fam, (f p t).OperandsFrom p t := by
    simp [familyTable, Instr.OperandsFrom]
  exact htable _ (family_eq_getElem op ▸ List.getElem_mem op.isLt) f hf

/-- Outside opcode F the turn bit is no operand (R95). -/
theorem family_turn {op : Opcode} (hop : op ≠ 0xF) {f : Nat → Bool → Instr} (hf : f ∈ family op) (p : Nat) (t u : Bool) :
    f p t = f p u := by
  have htable : ∀ fam ∈ familyTable.take 15, ∀ f ∈ fam, f p t = f p u := by simp [familyTable]
  have hlt : op.toNat < 15 := by
    have hne : op.toNat ≠ 15 := BitVec.toNat_ne.1 hop
    have := op.isLt
    omega
  refine htable _ ?_ f hf
  rw [family_eq_getElem]
  exact List.mem_take_iff_getElem.2 ⟨_, by simp [familyTable]; omega, rfl⟩

/-! ## The decoder -/

theorem decode_of_entry {sel : SelOverflow} {d : Decoded} {f : Nat → Bool → Instr} (h : d.opcode = 0 ∨ 1 ≤ d.param)
    (hf : (family d.opcode)[selectIndex sel (family d.opcode).length d.param - 1]? = some f) :
    decode sel d = .ok (f d.param d.turn) := by
  rw [decode, if_neg fun ⟨hp, hop⟩ => h.elim hop (by omega), hf]

/-- A triple that a fetch can deliver selects an entry of its family. -/
theorem exists_entry (sel : SelOverflow) {op : Opcode} {p : Nat} (h : op = 0 ∨ 1 ≤ p) :
    1 ≤ selectIndex sel (family op).length p ∧
      ∃ f ∈ family op, (family op)[selectIndex sel (family op).length p - 1]? = some f := by
  obtain ⟨hpos, hle⟩ := selectIndex_mem (sel := sel) (family_length_pos op) (one_le_or_family_length h)
  have hlt : selectIndex sel (family op).length p - 1 < (family op).length := by omega
  exact ⟨hpos, _, List.getElem_mem hlt, List.getElem?_eq_getElem hlt⟩

/-- A triple that a fetch can deliver decodes to an instruction of its opcode, at the place in the family that the parameter
selects. -/
theorem exists_decode (sel : SelOverflow) (d : Decoded) (h : d.opcode = 0 ∨ 1 ≤ d.param) :
    ∃ i, decode sel d = .ok i ∧ i.opcode = d.opcode ∧ i.selector = selectIndex sel (family d.opcode).length d.param ∧
      i.OperandsFrom d.param d.turn := by
  obtain ⟨hpos, f, hmem, hf⟩ := exists_entry sel h
  obtain ⟨hop, hplace⟩ := family_place hf d.param d.turn
  exact ⟨_, decode_of_entry h hf, hop, by omega, family_operandsFrom hmem _ _⟩

theorem decode_turn_congr {sel : SelOverflow} {op : Opcode} {p : Nat} (hop : op ≠ 0xF) (t u : Bool) :
    decode sel ⟨op, p, t⟩ = decode sel ⟨op, p, u⟩ := by
  by_cases h : op = 0 ∨ 1 ≤ p
  · obtain ⟨-, f, hmem, hf⟩ := exists_entry sel h
    rw [decode_of_entry h hf, decode_of_entry h hf, family_turn hop hmem p t u]
  · have hzero : p = 0 ∧ op ≠ 0 := by rw [not_or] at h; exact ⟨by omega, h.1⟩
    rw [decode, decode, if_pos hzero, if_pos hzero]

/-- Settles O21: the selected index is the statement's minimum, with the counts of R101. -/
theorem parameterSelectsMnemonic : Obligations.ParameterSelectsMnemonic := by
  intro d h
  obtain ⟨i, hi, hop, hsel, hoperands⟩ := exists_decode .saturate d h.symm
  refine ⟨i, hi, hop, ?_, hoperands⟩
  rw [hsel, selectIndex_saturate (family_length_pos _) (one_le_or_family_length h.symm), family_length]

/-- A triple that a fetch can deliver decodes to a well-formed instruction. -/
theorem exists_decode_wellFormed (sel : SelOverflow) (d : Decoded) (h : d.opcode = 0 ∨ 1 ≤ d.param) :
    ∃ i, decode sel d = .ok i ∧ i.wellFormed sel = true := by
  obtain ⟨i, hi, hop, hsel, hparam, -⟩ := exists_decode sel d h
  refine ⟨i, hi, ?_⟩
  cases i
  case push n =>
    obtain rfl := hparam n (by simp)
    exact decide_eq_true (h.resolve_left (hop ▸ show (0x1 : Opcode) ≠ 0 by decide))
  case logbase n =>
    obtain rfl := hparam n (by simp)
    rw [← hop] at hsel
    exact selectIndex_five_iff.1 hsel.symm
  case angbase n =>
    obtain rfl := hparam n (by simp)
    rw [← hop] at hsel
    exact selectIndex_five_iff.1 hsel.symm
  all_goals rfl

/-! ## The encoder -/

open Laws in
/-- The model's facts about each instruction's place in its family, for all 45. -/
theorem encodeFields : ∀ i : Instr, EncodeFields.Statement i
  | .nop => EncodeFields.nop | .push n => EncodeFields.push n | .dup => EncodeFields.dup
  | .swap => EncodeFields.swap | .get => EncodeFields.get | .set => EncodeFields.set
  | .pause => EncodeFields.pause | .not => EncodeFields.not | .and => EncodeFields.and
  | .or => EncodeFields.or | .xor => EncodeFields.xor | .eq => EncodeFields.eq
  | .lt => EncodeFields.lt | .gt => EncodeFields.gt | .sign => EncodeFields.sign
  | .print => EncodeFields.print | .input => EncodeFields.input | .iomode => EncodeFields.iomode
  | .setPixel => EncodeFields.setPixel | .getPixel => EncodeFields.getPixel | .gfxmode => EncodeFields.gfxmode
  | .rnd => EncodeFields.rnd | .pushIp => EncodeFields.pushIp | .pushSp => EncodeFields.pushSp
  | .round => EncodeFields.round | .floor => EncodeFields.floor | .ceil => EncodeFields.ceil
  | .trunc => EncodeFields.trunc | .add => EncodeFields.add | .sub => EncodeFields.sub
  | .mul => EncodeFields.mul | .div => EncodeFields.div | .sqrt => EncodeFields.sqrt
  | .pow => EncodeFields.pow | .exp => EncodeFields.exp | .log => EncodeFields.log
  | .logbase n => EncodeFields.logbase n | .sin => EncodeFields.sin | .cos => EncodeFields.cos
  | .tan => EncodeFields.tan | .atn => EncodeFields.atn | .angbase n => EncodeFields.angbase n
  | .reserved => EncodeFields.reserved | .forward => EncodeFields.forward | .deflect t => EncodeFields.deflect t

theorem selectIndex_encode {sel : SelOverflow} {i : Instr} (h : i.wellFormed sel = true) :
    selectIndex sel (family i.opcode).length i.param = i.selector := by
  obtain ⟨hpos, hle, -, -⟩ := encodeFields i
  cases i
  case nop => exact selectIndex_one
  case push n => exact selectIndex_one
  case logbase n => exact selectIndex_five_iff.2 h
  case angbase n => exact selectIndex_five_iff.2 h
  all_goals exact selectIndex_of_le hle (.inl hpos)

/-- Settles O22: the parameter of the encoding selects the instruction's own place in its family. -/
theorem decodeOfEncodeIsIdentity : Obligations.DecodeOfEncodeIsIdentity := by
  intro sel i h
  obtain ⟨-, -, ⟨f, hf, hi⟩, hparam⟩ := encodeFields i
  rw [decode_of_entry (f := f) (hparam sel h) (by rw [encode, selectIndex_encode h, hf])]
  exact congrArg _ hi

end Sys2Proof
end

section
/-! PROOFS. The flood (R92, R93): its rounds are enough to empty the worklist, so it visits exactly the pointer's component. -/

namespace Sys2Proof.Machine

/-! ## What the loop keeps true -/

section
variable {ok : Pos → Bool} {N n : Nat} {P q r : Pos} {work vis : List Pos}

/-- Every admitted neighbour of a visited cell is visited or on the worklist. -/
def Frontier (ok : Pos → Bool) (work vis : List Pos) : Prop :=
  ∀ p ∈ vis, ∀ r ∈ neighbours p, ok r = true → r ∈ vis ∨ r ∈ work

theorem Frontier.visit (h : Frontier ok (q :: work) vis) : Frontier ok (neighbours q ++ work) (q :: vis) := by
  intro p hp r hr hok
  rcases List.mem_cons.1 hp with rfl | hp
  · exact .inr (List.mem_append_left _ hr)
  · rcases h p hp r hr hok with hvis | hwork
    · exact .inl (.tail _ hvis)
    · rcases List.mem_cons.1 hwork with rfl | hwork
      · exact .inl (.head _)
      · exact .inr (List.mem_append_right _ hwork)

theorem Frontier.skip (h : Frontier ok (q :: work) vis) (hq : ok q = true → q ∈ vis) : Frontier ok work vis := by
  intro p hp r hr hok
  rcases h p hp r hr hok with hvis | hwork
  · exact .inl hvis
  · rcases List.mem_cons.1 hwork with rfl | hwork
    · exact .inl (hq hok)
    · exact .inr hwork

/-- At most `N` cells can be visited, and the rounds left are enough for the worklist and four neighbours of each cell that
is not visited yet. -/
structure EnoughRounds (ok : Pos → Bool) (N n : Nat) (work vis : List Pos) : Prop where
  bound : ∀ l : List Pos, l.Nodup → (∀ p ∈ l, ok p = true) → l.length ≤ N
  nodup : vis.Nodup
  admitted : ∀ p ∈ vis, ok p = true
  rounds : work.length + 4 * N ≤ n + 4 * vis.length

theorem EnoughRounds.visit (h : EnoughRounds ok N (n + 1) (q :: work) vis) (hq : ok q = true) (hnew : q ∉ vis) :
    EnoughRounds ok N n (neighbours q ++ work) (q :: vis) where
  bound := h.bound
  nodup := List.nodup_cons.2 ⟨hnew, h.nodup⟩
  admitted := List.forall_mem_cons.2 ⟨hq, h.admitted⟩
  rounds := by
    have := h.rounds
    simp only [List.length_append, List.length_cons, neighbours, List.length_nil] at *
    omega

theorem EnoughRounds.skip (h : EnoughRounds ok N (n + 1) (q :: work) vis) : EnoughRounds ok N n work vis where
  bound := h.bound
  nodup := h.nodup
  admitted := h.admitted
  rounds := by
    have := h.rounds
    simp only [List.length_cons] at this
    omega

/-! ## The visited cells -/

/-- The cells visited in the end are closed under admitted neighbours. -/
theorem flood_frontier (h : EnoughRounds ok N n work vis) (hf : Frontier ok work vis) :
    Frontier ok [] (flood ok n work vis) := by
  fun_induction flood ok n work vis with
  | case1 work vis =>
    have hle := h.bound vis h.nodup h.admitted
    have hrounds := h.rounds
    obtain rfl : work = [] := List.length_eq_zero_iff.1 (by omega)
    exact hf
  | case2 => exact hf
  | case3 n q work vis hq ih =>
    obtain ⟨hok, hnew⟩ : ok q = true ∧ q ∉ vis := by simpa using hq
    exact ih (h.visit hok hnew) hf.visit
  | case4 n q work vis hq ih => exact ih h.skip (hf.skip (by simpa using hq))

theorem subset_flood (ok : Pos → Bool) (n : Nat) (work vis : List Pos) : vis ⊆ flood ok n work vis := by
  fun_induction flood ok n work vis with
  | case1 => exact List.Subset.refl _
  | case2 => exact List.Subset.refl _
  | case3 vis n q work hq ih => exact fun _ h => ih (.tail _ h)
  | case4 vis n q work hq ih => exact ih

/-- Every cell the flood visits was visited before or is reachable, where the admitted cells of the worklist are. -/
theorem flood_reaches (h : ∀ p ∈ work, ok p = true → Reaches ok P p) (hq : q ∈ flood ok n work vis) :
    q ∈ vis ∨ Reaches ok P q := by
  fun_induction flood ok n work vis with
  | case1 => exact .inl hq
  | case2 => exact .inl hq
  | case3 n p work vis hp ih =>
    rw [Bool.and_eq_true] at hp
    obtain ⟨hreach, hwork⟩ := List.forall_mem_cons.1 h
    have hnext : ∀ r ∈ neighbours p ++ work, ok r = true → Reaches ok P r := fun r hr hok =>
      (List.mem_append.1 hr).elim (fun hr => .next r (hreach hp.1) hr hok) (fun hr => hwork r hr hok)
    rcases ih hnext hq with hvis | hreach'
    · exact (List.mem_cons.1 hvis).symm.imp_right fun (e : q = p) => e ▸ hreach hp.1
    · exact .inr hreach'
  | case4 n p work vis hp ih => exact ih (List.forall_mem_cons.1 h).2 hq

/-- With enough rounds the flood from `P` visits what is reachable from `P`. -/
theorem mem_flood_iff (hN : ∀ l : List Pos, l.Nodup → (∀ p ∈ l, ok p = true) → l.length ≤ N) :
    q ∈ flood ok (4 * N + 1) [P] [] ↔ Reaches ok P q := by
  constructor
  · exact fun hq => (flood_reaches (by simpa using Reaches.start) hq).resolve_left List.not_mem_nil
  · intro hq
    induction hq with
    | start hP =>
      rw [flood, if_pos (by simp [hP])]
      exact subset_flood _ _ _ _ (.head _)
    | next r hq hr hok ih =>
      have hclosed := flood_frontier (n := 4 * N + 1) (work := [P]) (vis := [])
        ⟨hN, List.nodup_nil, by simp, by simp; omega⟩ (by simp [Frontier])
      exact (hclosed _ ih r hr hok).resolve_right List.not_mem_nil

end

/-! ## The region -/

section
variable {prm : Params} {g : Grid} {P q : Pos} {dir : Dir}

theorem floodable_iff {c : Colour} {ex : List Pos} :
    floodable g c ex q = true ↔ g.inRange q = true ∧ g.read q = c ∧ q ∉ ex := by
  simp [floodable, and_assoc]

/-- A grid has W·H cells. -/
theorem length_le_of_inRange {l : List Pos} (hnodup : l.Nodup) (hl : ∀ p ∈ l, g.inRange p = true) :
    l.length ≤ g.w * g.h := by
  have hkeys : (l.map cellKey).Nodup := hnodup.map_on fun p hp q hq => cellKey_inj (hl p hp) (hl q hq)
  have hsub : (l.map cellKey).toFinset ⊆ Finset.range g.h ×ˢ Finset.range g.w := by
    intro k hk
    obtain ⟨p, hp, rfl⟩ := List.mem_map.1 (List.mem_toFinset.1 hk)
    simpa using cellKey_inRange (hl p hp)
  have hcard := Finset.card_le_card hsub
  rw [List.toFinset_card_of_nodup hkeys, List.length_map, Finset.card_product, Finset.card_range, Finset.card_range] at hcard
  rwa [Nat.mul_comm]

theorem mem_region_iff (hP : g.read P ≠ 0) :
    q ∈ region prm g P dir ↔ Reaches (floodable g (g.read P) (excluded prm g P dir)) P q := by
  rw [region, if_neg hP]
  exact mem_flood_iff fun l hnodup hl => length_le_of_inRange hnodup fun p hp => (floodable_iff.1 (hl p hp)).1

/-- Settles O26: the flood's list is the component, which it visits without repetition. -/
theorem floodVisitsTheComponent : Obligations.FloodVisitsTheComponent :=
  fun _ _ _ _ hP => ⟨region_nodup .., fun _ => mem_region_iff hP, rfl⟩

end

end Sys2Proof.Machine
end

section
/-! PROOFS. The exclusion rule (R91): the bounded walks mark what the rule's walks reach, since a walk over cells of a colour
other than the background stays in the grid; no walk comes back to the pointer. -/

namespace Sys2Proof.Machine

section
variable {prm : Params} {g : Grid} {c : Colour} {P E l o q : Pos} {dir : Dir} {n k : Nat}

theorem aheadOffset_eq (prm : Params) (d : Pos) :
    aheadOffset prm d = if prm.aheadTraceOffset = .plusD then d else d.neg := by
  unfold aheadOffset; split <;> simp [*]

/-! ## The walks -/

/-- The cells of a bounded walk are those up to which every cell on the way matches. -/
theorem mem_walk_iff : q ∈ walk g c E l o n k ↔
    ∃ j, k ≤ j ∧ j < k + n ∧
      (∀ i, k ≤ i → i ≤ j → g.read (E.add (l.scale i)) = c ∧ g.read ((E.add (l.scale i)).add o) = c) ∧
      q = E.add (l.scale j) := by
  induction n generalizing k with
  | zero => simp only [walk, List.not_mem_nil, false_iff]; rintro ⟨j, hkj, hjk, -⟩; omega
  | succ n ih =>
    rw [walk]
    split
    · next hk =>
      rw [List.mem_cons, ih]
      constructor
      · rintro (rfl | ⟨j, hkj, hjn, hmatch, rfl⟩)
        · exact ⟨k, le_rfl, by omega, fun i hki hik => le_antisymm hik hki ▸ hk, rfl⟩
        · exact ⟨j, by omega, by omega,
            fun i hki hij => hki.eq_or_lt.elim (fun e => e ▸ hk) (fun hlt => hmatch i hlt hij), rfl⟩
      · rintro ⟨j, hkj, hjn, hmatch, rfl⟩
        rcases hkj.eq_or_lt with rfl | hlt
        · exact .inl rfl
        · exact .inr ⟨j, hlt, by omega, fun i hki => hmatch i (by omega), rfl⟩
    · next hk =>
      simp only [List.not_mem_nil, false_iff]
      rintro ⟨j, hkj, -, hmatch, -⟩
      exact hk (hmatch k le_rfl hkj)

theorem lat_unit (hl : l ∈ lat (mv dir)) : l = ⟨1, 0⟩ ∨ l = ⟨-1, 0⟩ ∨ l = ⟨0, 1⟩ ∨ l = ⟨0, -1⟩ := by
  cases dir <;> simp [lat, mv] at hl <;> tauto

/-- A lateral vector has no part in the direction of travel. -/
theorem lat_across (hl : l ∈ lat (mv dir)) : (l.x = 0 ∧ (mv dir).x ≠ 0) ∨ (l.y = 0 ∧ (mv dir).y ≠ 0) := by
  cases dir <;> simp [lat, mv] at hl <;> rcases hl with rfl | rfl <;> simp [mv]

/-- A walk over cells of a colour other than the background is no longer than the grid is wide or high. -/
theorem WalkReaches.le_size (h : WalkReaches g c E l o k) (hc : c ≠ 0) (hE : g.read E = c) (hl : l ∈ lat (mv dir)) :
    k ≤ g.w + g.h := by
  obtain ⟨hpos, hmatch⟩ := h
  have hstart := (inRange_iff g E).1 (inRange_of_read (hE ▸ hc))
  have hend := (inRange_iff g _).1 (inRange_of_read ((hmatch k hpos le_rfl).1 ▸ hc))
  rcases lat_unit hl with rfl | rfl | rfl | rfl <;> simp only [Pos.add, Pos.scale] at hend <;> omega

theorem mem_walk_from_one_iff (hc : c ≠ 0) (hE : g.read E = c) (hl : l ∈ lat (mv dir)) :
    q ∈ walk g c E l o (g.w + g.h) 1 ↔ ∃ k, WalkReaches g c E l o k ∧ q = E.add (l.scale k) := by
  rw [mem_walk_iff]
  constructor
  · rintro ⟨j, hpos, -, hmatch, rfl⟩
    exact ⟨j, ⟨hpos, hmatch⟩, rfl⟩
  · rintro ⟨k, hk, rfl⟩
    have hsize := hk.le_size hc hE hl
    exact ⟨k, hk.1, by omega, hk.2, rfl⟩

/-! ## The excluded cells -/

/-- One of the two cells of the rule, if it has the colour, or a cell that a lateral walk from it reaches. -/
def MarkedFrom (g : Grid) (c : Colour) (d E o q : Pos) : Prop :=
  g.read E = c ∧ (q = E ∨ ∃ l ∈ lat d, ∃ k, WalkReaches g c E l o k ∧ q = E.add (l.scale k))

theorem mem_excludedFrom_iff (hc : c ≠ 0) : q ∈ excludedFrom g c (mv dir) E o ↔ MarkedFrom g c (mv dir) E o q := by
  unfold excludedFrom MarkedFrom
  split
  · next hE =>
    simp only [List.mem_cons, List.mem_flatMap, hE, true_and]
    exact or_congr_right (exists_congr fun l => and_congr_right fun hl => mem_walk_from_one_iff hc hE hl)
  · next hE => simp [hE]

theorem mem_excluded_iff (hP : g.read P ≠ 0) : q ∈ excluded prm g P dir ↔
    MarkedFrom g (g.read P) (mv dir) (P.add (mv dir).neg) (mv dir) q ∨
      MarkedFrom g (g.read P) (mv dir) (P.add (mv dir)) (aheadOffset prm (mv dir)) q := by
  rw [excluded, if_neg hP, List.mem_append, mem_excludedFrom_iff hP, mem_excludedFrom_iff hP]

/-- A cell of the line behind or ahead is not the pointer's. -/
theorem add_scale_lat_ne (hE : E = P.add (mv dir).neg ∨ E = P.add (mv dir)) (hl : l ∈ lat (mv dir)) :
    E.add (l.scale k) ≠ P := by
  intro h
  rcases lat_across hl with ⟨h0, hd⟩ | ⟨h0, hd⟩
  · have hx : E.x + k * l.x = P.x := congrArg Pos.x h
    have hEx : E.x = P.x + -(mv dir).x ∨ E.x = P.x + (mv dir).x := hE.imp (congrArg Pos.x) (congrArg Pos.x)
    rw [h0] at hx
    omega
  · have hy : E.y + k * l.y = P.y := congrArg Pos.y h
    have hEy : E.y = P.y + -(mv dir).y ∨ E.y = P.y + (mv dir).y := hE.imp (congrArg Pos.y) (congrArg Pos.y)
    rw [h0] at hy
    omega

theorem MarkedFrom.ne (h : MarkedFrom g c (mv dir) E o q) (hE : E = P.add (mv dir).neg ∨ E = P.add (mv dir)) : q ≠ P := by
  obtain ⟨-, rfl | ⟨l, hl, k, -, rfl⟩⟩ := h
  · have := add_scale_lat_ne (k := 0) hE (List.mem_cons_self ..)
    simpa [Pos.add, Pos.scale] using this
  · exact add_scale_lat_ne hE hl

theorem not_mem_excluded : P ∉ excluded prm g P dir := by
  intro h
  rcases (mem_excluded_iff (excluded_colour h).1).1 h with h | h
  · exact h.ne (.inl rfl) rfl
  · exact h.ne (.inr rfl) rfl

/-- Settles O28: the two cells of the rule, each with its trace offset. -/
theorem exclusionRuleMarksTheWalks : Obligations.ExclusionRuleMarksTheWalks := by
  intro prm g P dir q hP
  refine ⟨?_, fun h => ⟨excluded_inRange h, fun e => not_mem_excluded (e ▸ h)⟩⟩
  rw [mem_excluded_iff hP, aheadOffset_eq]
  constructor
  · rintro (h | h)
    · exact ⟨_, _, .inl ⟨rfl, rfl⟩, h⟩
    · exact ⟨_, _, .inr ⟨rfl, rfl⟩, h⟩
  · rintro ⟨E, o, ⟨rfl, rfl⟩ | ⟨rfl, rfl⟩, h⟩
    · exact .inl h
    · exact .inr h

end

end Sys2Proof.Machine
end

section
/-! PROOFS. The fetch (R94, R95, R100, R104): the bounds of the parameter and what the turn bit probes, so that every codel
decodes and no step is refused once a grid is installed. -/

namespace Sys2Proof.Machine

section
variable {prm : Params} {g : Grid} {P q r : Pos} {dir : Dir}

/-! ## The parameter -/

theorem mem_neighbours_iff : r ∈ neighbours q ↔ ∃ e, r = q.add (mv e) := by
  simp only [neighbours, List.mem_cons, List.not_mem_nil, or_false]
  constructor
  · rintro (h | h | h | h) <;> exact ⟨_, h⟩
  · rintro ⟨e, rfl⟩
    cases e <;> simp

theorem fetch_param : (fetch prm g P dir).param = (region prm g P dir).length := rfl

theorem region_of_background (hP : g.read P = 0) : region prm g P dir = [] := if_pos hP

theorem mem_region_self (hP : g.read P ≠ 0) : P ∈ region prm g P dir :=
  (mem_region_iff hP).2 (.start (floodable_iff.2 ⟨inRange_of_read hP, rfl, not_mem_excluded⟩))

theorem fetch_param_eq_zero_iff : (fetch prm g P dir).param = 0 ↔ g.read P = 0 := by
  rw [fetch_param, List.length_eq_zero_iff]
  refine ⟨fun h => ?_, region_of_background⟩
  by_contra hP
  exact List.not_mem_nil (h ▸ mem_region_self (prm := prm) (dir := dir) hP)

theorem region_length_le : (region prm g P dir).length ≤ g.w * g.h :=
  length_le_of_inRange (region_nodup ..) fun _ hp => (region_mem hp).1

/-- Where no neighbour has the pointer's colour, nothing but the pointer's cell is reached. -/
theorem eq_of_reaches_isolated {ex : List Pos} (h : ∀ e : Dir, g.read (P.add (mv e)) ≠ g.read P)
    (hq : Reaches (floodable g (g.read P) ex) P q) : q = P := by
  induction hq with
  | start => rfl
  | next r _ hr hok ih =>
    subst ih
    obtain ⟨e, rfl⟩ := mem_neighbours_iff.1 hr
    exact absurd (floodable_iff.1 hok).2.1 (h e)

theorem region_isolated (hP : g.read P ≠ 0) (h : ∀ e : Dir, g.read (P.add (mv e)) ≠ g.read P) :
    (region prm g P dir).Perm [P] := by
  refine (List.perm_ext_iff_of_nodup (region_nodup ..) (List.nodup_singleton P)).2 fun q => ?_
  rw [List.mem_singleton]
  exact ⟨fun hq => eq_of_reaches_isolated h ((mem_region_iff hP).1 hq), by rintro rfl; exact mem_region_self hP⟩

/-- Settles O27: the flood visits the pointer's cell first, and no cell outside the grid or twice. -/
theorem parameterBoundsAndIsolatedCodel : Obligations.ParameterBoundsAndIsolatedCodel :=
  fun _ _ _ _ => ⟨fetch_param_eq_zero_iff, region_length_le, fun hP h => (region_isolated hP h).length_eq⟩

/-! ## The turn bit -/

theorem fetch_turn_iff : (fetch prm g P dir).turn = true ↔ g.read (P.add (rh dir)) = g.read P := decide_eq_true_iff

/-- Settles O29: the probe offsets written out, and a decoder in which the turn bit is an operand of opcode F alone. -/
theorem turnBitProbesTheRightHandNeighbour : Obligations.TurnBitProbesTheRightHandNeighbour := by
  refine fun prm g x y dir => ⟨?_, fun d t hop => decode_turn_congr hop t d.turn⟩
  rw [fetch_turn_iff]
  cases dir <;> simp [Pos.add, rh, sub_eq_add_neg]

/-! ## Every codel decodes -/

/-- No fetch yields parameter 0 with an opcode other than 0 (R94). -/
theorem fetch_deliverable : (fetch prm g P dir).opcode = 0 ∨ 1 ≤ (fetch prm g P dir).param := by
  by_cases hP : g.read P = 0
  · exact .inl (show decodeOpcode (g.read P) = 0 from hP ▸ rfl)
  · exact .inr (Nat.one_le_iff_ne_zero.2 (mt fetch_param_eq_zero_iff.1 hP))

/-- Settles O23: a fetch delivers a triple that the selection accepts. -/
theorem everyCodelDecodes : Obligations.EveryCodelDecodes :=
  fun _ _ _ _ => exists_decode_wellFormed _ _ fetch_deliverable

end

/-! ## No step is refused -/

theorem exists_commit (s : State) (r : Except CapacityKind State) : ∃ t, commit s r = .next t := by
  cases r with
  | ok t => exact ⟨t, commit_ok s t⟩
  | error k => exact ⟨_, commit_error s k⟩

theorem exists_writeCell {s t : State} {g : Grid} (hg : t.grid = some g) (p : Pos) (c : Colour) :
    ∃ u, writeCell s t p c = .next u := by
  unfold writeCell
  rw [hg]
  cases hw : g.write t.params p c <;> simp [hw]

theorem exists_exec {s : State} {g : Grid} (hg : s.grid = some g) (i : Instr) : ∃ t, exec i s = .next t := by
  cases i
  case nop | reserved | forward | set | pause | print | iomode | gfxmode | logbase | angbase | deflect => exact ⟨_, rfl⟩
  case setPixel => exact exists_writeCell (by simpa using hg) _ _
  all_goals exact exists_commit _ _

/-- Settles O9: every codel decodes, and every instruction answers a next state where a grid is installed. -/
theorem stepAlwaysAnswersNext : Obligations.StepAlwaysAnswersNext := by
  intro s g hg
  cases hs : s.stopped with
  | true => exact ⟨s, step_of_stopped hg hs⟩
  | false =>
    obtain ⟨i, hi, -⟩ := everyCodelDecodes s.params g s.ptr s.dir
    obtain ⟨t, ht⟩ := exists_exec (s := s.afterFetch g) hg i
    exact ⟨s.finish t, by rw [step_of_fetch hg hs hi, ht, settle_next]⟩

end Sys2Proof.Machine
end

section
/-! PROOFS. The program of a table word (log entries 7 and 8): a line of codels away from the right-hand probe is a region of
its length, whose turn bit is false, so the word's instruction is fetched. -/

namespace Sys2Proof

/-! ## The fields of a table word -/

section
variable {i : Instr} {nbits : Nat}

theorem param_of_opcode_zero (h : i.opcode = 0) : i.param = 0 := by
  cases i <;> simp [Instr.opcode] at h
  rfl

theorem tableOpcode_tableWord (hw : tableWord i < 2 ^ nbits) : tableOpcode nbits (tableWord i) = i.opcode.toNat := by
  rw [tableOpcode, Nat.mod_eq_of_lt hw, tableWord]
  have := i.opcode.isLt
  omega

theorem tableParam_tableWord (hwf : i.wellFormed .saturate = true) (hw : tableWord i < 2 ^ nbits) :
    tableParam nbits (tableWord i) = i.param := by
  rw [tableParam, tableOpcode_tableWord hw, Nat.mod_eq_of_lt hw, tableWord]
  obtain ⟨-, -, -, hparam⟩ := encodeFields i
  split
  · next h => rw [param_of_opcode_zero (BitVec.eq_of_toNat_eq h)]
  · next h =>
    have hpos := (hparam _ hwf).resolve_left fun h0 => h (h0 ▸ rfl)
    have := i.opcode.isLt
    omega

theorem encode_of_turn_false (ht : i.turn = false) : encode i = ⟨i.opcode, i.param, false⟩ := by rw [encode, ht]

theorem decodeTableWord_tableWord (hwf : i.wellFormed .saturate = true) (ht : i.turn = false)
    (hw : tableWord i < 2 ^ nbits) : decodeTableWord nbits (tableWord i) = some i := by
  rw [decodeTableWord, tableOpcode_tableWord hw, decodeOpcode_palette, tableParam_tableWord hwf hw,
    ← encode_of_turn_false ht, decodeOfEncodeIsIdentity _ i hwf]

end

/-! ## A line of cells in a sparse array -/

/-- An array whose entries all hold `v` reads as `v` exactly at its keys, where `v` is not blank. -/
theorem CellMap.find_eq_iff_of_forall_eq {α : Type} {blank v : α} {k : Nat × Nat} {m : CellMap α} (hv : v ≠ blank)
    (h : ∀ e ∈ m, e.2 = v) : CellMap.find blank k m = v ↔ ∃ e ∈ m, e.1 = k := by
  induction m with
  | nil => simpa [CellMap.find] using hv.symm
  | cons e r ih =>
    obtain ⟨k', v'⟩ := e
    obtain ⟨rfl, hr⟩ := List.forall_mem_cons.1 h
    by_cases hk : k = k'
    · simp [CellMap.find, hk]
    · simpa [CellMap.find, hk, Ne.symm hk] using ih hr

namespace Machine

/-- The unit vector along which `lineCells` lists its cells. -/
def axis (alongX : Bool) : Pos := if alongX then ⟨1, 0⟩ else ⟨0, 1⟩

section
variable {g : Grid} {c : Colour} {P q S u : Pos} {dir : Dir} {n j k : Nat} {alongX : Bool}

theorem add_scale_zero : P.add (u.scale 0) = P := by simp [Pos.add, Pos.scale]

theorem scale_one : u.scale 1 = u := by simp [Pos.scale]

theorem add_scale_add : P.add (u.scale (j + k)) = (P.add (u.scale j)).add (u.scale k) := by
  simp only [Pos.add, Pos.scale, Pos.mk.injEq]
  push_cast
  constructor <;> ring

theorem add_neg_scale_cancel : (P.add (u.neg.scale k)).add (u.scale k) = P := by simp [Pos.add, Pos.scale, Pos.neg]

theorem add_scale_succ : P.add (u.scale (k + 1)) = (P.add u).add (u.scale k) := by
  rw [Nat.add_comm, add_scale_add, scale_one]

theorem mem_lineCells_iff {e : (Nat × Nat) × Colour} : e ∈ lineCells c S alongX n ↔
    ∃ k < n, e = (cellKey (S.add ((axis alongX).scale k)), c) := by
  induction n generalizing S with
  | zero => simp [lineCells]
  | succ n ih =>
    rw [lineCells, List.mem_cons, ih]
    constructor
    · rintro (rfl | ⟨k, hk, rfl⟩)
      · exact ⟨0, by omega, by rw [add_scale_zero]⟩
      · exact ⟨k + 1, by omega, by rw [add_scale_succ, axis]⟩
    · rintro ⟨k, hk, rfl⟩
      cases k with
      | zero => exact .inl (by rw [add_scale_zero])
      | succ k => exact .inr ⟨k, by omega, by rw [add_scale_succ, axis]⟩

/-! ## The grid of a line -/

/-- The cells of a line of `n` cells from `P` on, away from the right-hand probe of `P`. -/
def OnLine (P : Pos) (dir : Dir) (n : Nat) (q : Pos) : Prop := ∃ k < n, q = P.add ((rh dir).neg.scale k)

/-- The same line from its other end. -/
theorem onLine_iff_reverse : OnLine P dir n q ↔
    ∃ k < n, q = (P.add ((rh dir).neg.scale (n - 1))).add ((rh dir).scale k) := by
  have hback (j k : Nat) : P.add ((rh dir).neg.scale j) = (P.add ((rh dir).neg.scale (j + k))).add ((rh dir).scale k) := by
    rw [add_scale_add, add_neg_scale_cancel]
  constructor
  · rintro ⟨k, hk, rfl⟩
    exact ⟨n - 1 - k, by omega, by rw [hback k (n - 1 - k), Nat.add_sub_cancel' (by omega)]⟩
  · rintro ⟨k, hk, rfl⟩
    exact ⟨n - 1 - k, by omega, by rw [hback (n - 1 - k) k, Nat.sub_add_cancel (by omega)]⟩

/-- The line is listed from `P` on, or, where it runs against its axis, from its other end. -/
theorem exists_lineCells (hc : c ≠ 0) : ∃ S alongX, (lineGrid c P dir n).cells = lineCells c S alongX n ∧
    ∀ q, OnLine P dir n q ↔ ∃ k < n, q = S.add ((axis alongX).scale k) := by
  cases dir with
  | down => exact ⟨P, true, if_neg hc, fun q => Iff.rfl⟩
  | left => exact ⟨P, false, if_neg hc, fun q => Iff.rfl⟩
  | right =>
    refine ⟨_, false, (if_neg hc).trans ?_, fun q => onLine_iff_reverse⟩
    simp [Pos.add, Pos.scale, Pos.neg, rh, sub_eq_add_neg]
  | up =>
    refine ⟨_, true, (if_neg hc).trans ?_, fun q => onLine_iff_reverse⟩
    simp [Pos.add, Pos.scale, Pos.neg, rh, sub_eq_add_neg]

theorem linePtr_inRange : (lineGrid c (linePtr P dir n) dir n).inRange (linePtr P dir n) = true := by
  rw [inRange_iff]
  cases dir <;> simp [linePtr, lineGrid]

theorem OnLine.inRange (h : OnLine (linePtr P dir n) dir n q) : (lineGrid c (linePtr P dir n) dir n).inRange q = true := by
  obtain ⟨k, hk, rfl⟩ := h
  rw [inRange_iff]
  cases dir <;> simp [linePtr, lineGrid, rh, Pos.add, Pos.neg, Pos.scale] <;> omega

theorem read_lineGrid_iff (hc : c ≠ 0) :
    (lineGrid c (linePtr P dir n) dir n).read q = c ↔ OnLine (linePtr P dir n) dir n q := by
  obtain ⟨S, alongX, hcells, hline⟩ := exists_lineCells (P := linePtr P dir n) (dir := dir) (n := n) hc
  have hconst : ∀ e ∈ lineCells c S alongX n, e.2 = c := fun e he => by
    obtain ⟨k, -, rfl⟩ := mem_lineCells_iff.1 he
    rfl
  by_cases hq : (lineGrid c (linePtr P dir n) dir n).inRange q = true
  · rw [Grid.read, if_pos hq, hcells, CellMap.find_eq_iff_of_forall_eq hc hconst]
    constructor
    · rintro ⟨e, he, hkey⟩
      obtain ⟨k, hk, rfl⟩ := mem_lineCells_iff.1 he
      have hon := (hline _).2 ⟨k, hk, rfl⟩
      exact cellKey_inj hon.inRange hq hkey ▸ hon
    · intro hon
      obtain ⟨k, hk, rfl⟩ := (hline q).1 hon
      exact ⟨_, mem_lineCells_iff.2 ⟨k, hk, rfl⟩, rfl⟩
  · rw [Grid.read, if_neg hq]
    exact ⟨fun h => absurd h.symm hc, fun hon => absurd hon.inRange hq⟩

theorem read_lineGrid_background : (lineGrid 0 P dir n).read q = 0 := by
  cases dir <;> simp [Grid.read, lineGrid, CellMap.find]

/-! ## The fetch on a line -/

theorem fetch_background (prm : Params) (hP : g.read P = 0) : fetch prm g P dir = ⟨0, 0, turnBit g P dir⟩ := by
  rw [fetch, hP, regionParam, region_of_background hP]
  rfl

/-- The line runs away from the probe and across the direction of travel. -/
theorem not_onLine {v : Pos} (hv : v = rh dir ∨ v = mv dir ∨ v = (mv dir).neg) : ¬OnLine P dir n (P.add v) := by
  rintro ⟨k, -, hk⟩
  have hx : P.x + v.x = P.x + k * -(rh dir).x := congrArg Pos.x hk
  have hy : P.y + v.y = P.y + k * -(rh dir).y := congrArg Pos.y hk
  cases dir <;> rcases hv with rfl | rfl | rfl <;> simp only [rh, mv, Pos.neg] at hx hy <;> omega

theorem rh_neg_eq_mv (dir : Dir) : ∃ e, (rh dir).neg = mv e := by
  cases dir
  · exact ⟨.right, rfl⟩
  · exact ⟨.up, rfl⟩
  · exact ⟨.left, rfl⟩
  · exact ⟨.down, rfl⟩

theorem line_injective (P : Pos) (dir : Dir) : Function.Injective fun k : Nat => P.add ((rh dir).neg.scale k) := by
  intro j k h
  cases dir <;> simpa [Pos.add, Pos.neg, Pos.scale, rh] using h

section
variable (hread : ∀ q, g.read q = c ↔ OnLine P dir n q)
include hread

theorem read_line_start (hn : 1 ≤ n) : g.read P = c := (hread P).2 ⟨0, hn, add_scale_zero.symm⟩

theorem excluded_line (prm : Params) (hn : 1 ≤ n) : excluded prm g P dir = [] := by
  have hbehind : g.read (P.add (mv dir).neg) ≠ c := fun h => not_onLine (.inr (.inr rfl)) ((hread _).1 h)
  have hahead : g.read (P.add (mv dir)) ≠ c := fun h => not_onLine (.inr (.inl rfl)) ((hread _).1 h)
  simp [excluded, excludedFrom, read_line_start hread hn, hbehind, hahead]

/-- Every cell of the line is reached from the first one, cell by cell. -/
theorem mem_region_line_iff (prm : Params) (hc : c ≠ 0) (hn : 1 ≤ n) : q ∈ region prm g P dir ↔ OnLine P dir n q := by
  have hP := read_line_start hread hn
  refine ⟨fun hq => (hread q).1 (hP ▸ (region_mem hq).2.1), ?_⟩
  rintro ⟨k, hk, rfl⟩
  rw [mem_region_iff (hP ▸ hc), excluded_line hread prm hn, hP]
  have hok : ∀ j < n, floodable g c [] (P.add ((rh dir).neg.scale j)) = true := fun j hj => by
    have hj := (hread _).2 ⟨j, hj, rfl⟩
    exact floodable_iff.2 ⟨inRange_of_read (hj ▸ hc), hj, List.not_mem_nil⟩
  induction k with
  | zero =>
    have hstart := hok 0 hk
    rw [add_scale_zero] at hstart ⊢
    exact .start hstart
  | succ k ih =>
    obtain ⟨e, he⟩ := rh_neg_eq_mv dir
    refine .next _ (ih (by omega)) (mem_neighbours_iff.2 ⟨e, ?_⟩) (hok _ hk)
    rw [← he, add_scale_add, scale_one]

theorem region_line_length (prm : Params) (hc : c ≠ 0) (hn : 1 ≤ n) : (region prm g P dir).length = n := by
  have hperm : (region prm g P dir).Perm ((List.range n).map fun k => P.add ((rh dir).neg.scale k)) := by
    refine (List.perm_ext_iff_of_nodup (region_nodup ..) (List.nodup_range.map (line_injective P dir))).2 fun q => ?_
    simp [mem_region_line_iff hread prm hc hn, OnLine, eq_comm]
  rw [hperm.length_eq, List.length_map, List.length_range]

theorem fetch_line (prm : Params) (hc : c ≠ 0) (hn : 1 ≤ n) : fetch prm g P dir = ⟨decodeOpcode c, n, false⟩ := by
  have hP := read_line_start hread hn
  have hturn : turnBit g P dir = false := decide_eq_false fun h => not_onLine (.inl rfl) ((hread _).1 (h.trans hP))
  rw [fetch, hP, hturn, regionParam, region_line_length hread prm hc hn]

end

end

/-! ## The program -/

theorem palette_ne_zero {op : Opcode} (h : op ≠ 0) : palette op.toNat ≠ 0 :=
  fun h0 => h (by rw [← decodeOpcode_palette op, h0]; rfl)

/-- The fetch on the line of an instruction's colour and parameter gives the instruction. -/
theorem fetchInstr_lineGrid {prm : Params} {i : Instr} (P : Pos) (dir : Dir) (hsel : prm.selOverflow = .saturate)
    (hwf : i.wellFormed .saturate = true) (ht : i.turn = false) :
    fetchInstr prm (lineGrid (palette i.opcode.toNat) (linePtr P dir i.param) dir i.param) (linePtr P dir i.param) dir =
      .ok i := by
  rw [fetchInstr, hsel, ← decodeOfEncodeIsIdentity _ i hwf, encode_of_turn_false ht]
  obtain ⟨-, -, -, hparam⟩ := encodeFields i
  by_cases h0 : i.opcode = 0
  · rw [h0, param_of_opcode_zero h0, show palette (BitVec.toNat (0 : Opcode)) = 0 from rfl,
      fetch_background prm read_lineGrid_background]
    exact decode_turn_congr (by decide) _ _
  · have hc := palette_ne_zero h0
    rw [fetch_line (fun _ => read_lineGrid_iff hc) prm hc ((hparam _ hwf).resolve_left h0), decodeOpcode_palette]

theorem withFetchWord_live (s : State) (nbits w : Nat) : (s.withFetchWord nbits w).Live
    (lineGrid (palette (tableOpcode nbits w)) (linePtr s.ptr s.dir (tableParam nbits w)) s.dir (tableParam nbits w)) := by
  refine ⟨rfl, ?_, rfl⟩
  rw [State.withFetchWord_run]
  split <;> simp [*]

/-- Settles O24: the word's fields are the encoding's, and the fetch on the line of codels gives the encoding back. -/
theorem tableWordProgramIsFetched : Obligations.TableWordProgramIsFetched := by
  intro s i nbits hsel hwf ht hw
  refine ⟨decodeTableWord_tableWord hwf ht hw, _, withFetchWord_live .., linePtr_inRange, ?_⟩
  rw [State.withFetchWord_ptr, tableOpcode_tableWord hw, tableParam_tableWord hwf hw]
  exact fetchInstr_lineGrid s.ptr s.dir hsel hwf ht

end Machine

end Sys2Proof
end

section
/-! PROOFS. The host's commands (R126 to R128, R133): the reset, the grid that an INSTALL gives, read cell by cell, and that
INSTALL, RESET and RESUME keep the invariant. -/

namespace Sys2Proof

/-! ## The canonical form, entry by entry -/

theorem CellMap.wf_iff {α : Type} [DecidableEq α] {blank : α} {w h : Nat} {m : CellMap α} :
    CellMap.wf blank w h m = true ↔
      (∀ e ∈ m, (e.1.1 < h ∧ e.1.2 < w) ∧ e.2 ≠ blank) ∧ m.Pairwise fun a b => CellMap.keyLt a.1 b.1 = true := by
  induction m with
  | nil => simp [CellMap.wf]
  | cons e r ih =>
    rw [CellMap.wf_cons, ih, List.forall_mem_cons, List.pairwise_cons, List.all_eq_true]
    tauto

/-- A listed entry is what its key reads as. -/
theorem CellMap.find_of_mem {α : Type} [DecidableEq α] {blank v : α} {k : Nat × Nat} {w h : Nat} {m : CellMap α}
    (hm : CellMap.wf blank w h m = true) (hk : (k, v) ∈ m) : CellMap.find blank k m = v := by
  induction m with
  | nil => simp at hk
  | cons e r ih =>
    obtain ⟨-, -, hlt, hr⟩ := CellMap.wf_cons.1 hm
    rcases List.mem_cons.1 hk with rfl | hk
    · exact if_pos rfl
    · have hne : k ≠ e.1 := by
        rintro rfl
        simpa [CellMap.keyLt_irrefl] using List.all_eq_true.1 hlt _ hk
      rw [CellMap.find, if_neg hne, ih hr hk]

theorem CellMap.find_of_not_mem {α : Type} {blank : α} {k : Nat × Nat} {m : CellMap α} (hk : ∀ e ∈ m, e.1 ≠ k) :
    CellMap.find blank k m = blank := by
  induction m with
  | nil => rfl
  | cons e r ih =>
    rw [List.forall_mem_cons] at hk
    rw [CellMap.find, if_neg hk.1.symm, ih hk.2]

/-! ## The reset -/

@[simp] theorem F64.val_one : F64.val F64.one = 1 := by
  rw [F64.val_of_unpack (s := false) (m := 2 ^ 52) (e := -52) (by decide)]
  norm_num [F64.signed]

namespace Machine

theorem registersReset_resetRegisters (s : State) (g : Grid) : s.RegistersReset (s.resetRegisters g) := by
  simp [State.RegistersReset]

theorem command_reset {s : State} {g : Grid} (hg : s.grid = some g) :
    command .reset s = .next (s.resetRegisters g) := by simp [command, hg]

/-- Settles O2: the answer is the state with its registers reset. -/
theorem resetRestoresRegistersAndKeepsGrid : Obligations.ResetRestoresRegistersAndKeepsGrid :=
  fun s g hg => ⟨_, command_reset hg, registersReset_resetRegisters s g, rfl⟩

/-! ## RESUME, and the commands before the first INSTALL -/

theorem command_resume {s : State} {g : Grid} (hg : s.grid = some g) :
    command .resume s = .next (if s.run = .paused then { s with run := .running } else s) := by simp [command, hg]

theorem step_not_installed {s : State} (hg : s.grid = none) : step s = .refused .notInstalled := by simp [step, hg]

/-- Settles O4: each command looks at the grid first, and RESUME then at the run state. -/
theorem resumeAndCommandsBeforeInstall : Obligations.ResumeAndCommandsBeforeInstall := by
  intro s
  refine ⟨fun hg hp => ?_, fun hg hp => ?_, fun hg => ?_⟩
  · obtain ⟨g, hg⟩ := Option.ne_none_iff_exists'.1 hg
    rw [command_resume hg, if_pos hp]
  · obtain ⟨g, hg⟩ := Option.ne_none_iff_exists'.1 hg
    rw [command_resume hg, if_neg hp]
  · exact ⟨step_not_installed hg, step_not_installed hg, by simp [command, hg], by simp [command, hg]⟩

/-! ## The grid of an INSTALL -/

/-- The number that the rows of a request give for the cell in row `y` and column `x`; 0 where there is none. -/
def requested (rows : List (List Nat)) (y x : Nat) : Nat := (rows.getD y []).getD x 0

/-- The entries of a row are its numbers that are not 0. -/
theorem mem_rowCells_iff {y x : Nat} {row : List Nat} {e : (Nat × Nat) × Colour} : e ∈ rowCells y x row ↔
    ∃ j, row.getD j 0 ≠ 0 ∧ e = ((y, x + j), BitVec.ofNat 24 (row.getD j 0)) := by
  induction row generalizing x with
  | nil => simp [rowCells]
  | cons c row ih =>
    have hrest : (∃ j, (c :: row).getD (j + 1) 0 ≠ 0 ∧
        e = ((y, x + (j + 1)), BitVec.ofNat 24 ((c :: row).getD (j + 1) 0))) ↔ e ∈ rowCells y (x + 1) row := by
      simp only [ih, List.getD_cons_succ, Nat.add_assoc, Nat.add_comm 1]
    rw [← Nat.or_exists_add_one, hrest, rowCells]
    split
    · next hc => simp [hc]
    · next hc => simp [hc]

/-- The entries of all rows are the numbers that are not 0. -/
theorem mem_rowsCells_iff {y : Nat} {rows : List (List Nat)} {e : (Nat × Nat) × Colour} : e ∈ rowsCells y rows ↔
    ∃ i j, requested rows i j ≠ 0 ∧ e = ((y + i, j), BitVec.ofNat 24 (requested rows i j)) := by
  induction rows generalizing y with
  | nil => simp [rowsCells, requested]
  | cons row rows ih =>
    have hrest : (∃ i j, requested (row :: rows) (i + 1) j ≠ 0 ∧
        e = ((y + (i + 1), j), BitVec.ofNat 24 (requested (row :: rows) (i + 1) j))) ↔ e ∈ rowsCells (y + 1) rows := by
      simp only [ih, requested, List.getD_cons_succ, Nat.add_assoc, Nat.add_comm 1]
    rw [← Nat.or_exists_add_one, hrest, rowsCells, List.mem_append, mem_rowCells_iff]
    simp [requested]

theorem rowCells_sorted (y x : Nat) (row : List Nat) :
    (rowCells y x row).Pairwise fun a b => CellMap.keyLt a.1 b.1 = true := by
  induction row generalizing x with
  | nil => exact .nil
  | cons c row ih =>
    rw [rowCells]
    split
    · exact ih _
    · refine List.pairwise_cons.2 ⟨fun e he => ?_, ih _⟩
      obtain ⟨j, -, rfl⟩ := mem_rowCells_iff.1 he
      exact (CellMap.keyLt_iff _ _).2 (.inr ⟨rfl, by simp only; omega⟩)

theorem rowsCells_sorted (y : Nat) (rows : List (List Nat)) :
    (rowsCells y rows).Pairwise fun a b => CellMap.keyLt a.1 b.1 = true := by
  induction rows generalizing y with
  | nil => exact .nil
  | cons row rows ih =>
    refine List.pairwise_append.2 ⟨rowCells_sorted _ _ _, ih _, fun a ha b hb => ?_⟩
    obtain ⟨j, -, rfl⟩ := mem_rowCells_iff.1 ha
    obtain ⟨i, k, -, rfl⟩ := mem_rowsCells_iff.1 hb
    exact (CellMap.keyLt_iff _ _).2 (.inl (by simp only; omega))

section
variable {prm : Params} {w h x y : Nat} {rows : List (List Nat)}

theorem installOk_iff : installOk prm w h rows = true ↔ InstallInOrder prm w h rows := by
  simp only [installOk, InstallInOrder, Bool.and_eq_true, decide_eq_true_eq, List.all_eq_true, and_assoc]

namespace InstallInOrder

/-- Only cells of the grid have a number that is not 0, and it is one of 24 bits. -/
theorem requested_spec (hr : InstallInOrder prm w h rows) (hn : requested rows y x ≠ 0) :
    (y < h ∧ x < w) ∧ requested rows y x < 2 ^ 24 := by
  obtain ⟨-, -, -, -, rfl, hrows⟩ := hr
  unfold requested at hn ⊢
  have hy : y < rows.length := by
    by_contra hy
    rw [List.getD_eq_default _ _ (not_lt.1 hy)] at hn
    exact hn rfl
  rw [List.getD_eq_getElem _ _ hy] at hn ⊢
  obtain ⟨rfl, hcells⟩ := hrows _ (List.getElem_mem hy)
  have hx : x < rows[y].length := by
    by_contra hx
    exact hn (List.getD_eq_default _ _ (not_lt.1 hx))
  rw [List.getD_eq_getElem _ _ hx]
  exact ⟨⟨hy, hx⟩, hcells _ (List.getElem_mem hx)⟩

theorem requested_lt (hr : InstallInOrder prm w h rows) (y x : Nat) : requested rows y x < 2 ^ 24 := by
  by_cases hn : requested rows y x = 0
  · simp [hn]
  · exact (hr.requested_spec hn).2

theorem toNat_requested (hr : InstallInOrder prm w h rows) (y x : Nat) :
    (BitVec.ofNat 24 (requested rows y x)).toNat = requested rows y x :=
  (BitVec.toNat_ofNat _ _).trans (Nat.mod_eq_of_lt (hr.requested_lt y x))

theorem cells_wf (hr : InstallInOrder prm w h rows) : CellMap.wf 0 w h (rowsCells 0 rows) = true := by
  refine CellMap.wf_iff.2 ⟨fun e he => ?_, rowsCells_sorted 0 rows⟩
  obtain ⟨y, x, hn, rfl⟩ := mem_rowsCells_iff.1 he
  exact ⟨by simpa using (hr.requested_spec hn).1,
    fun h0 => hn ((hr.toNat_requested y x).symm.trans (congrArg BitVec.toNat h0))⟩

theorem grid_ok (hr : InstallInOrder prm w h rows) : (installedGrid w h rows).ok prm = true := by
  have hwf := hr.cells_wf
  obtain ⟨hw, hh, hfw, hfh, -⟩ := hr
  simp only [Grid.ok_iff, Grid.wf, installedGrid, Bool.and_eq_true, decide_eq_true_eq]
  exact ⟨⟨⟨hw, hh⟩, hwf⟩, hfw, hfh⟩

theorem find_cells (hr : InstallInOrder prm w h rows) (y x : Nat) :
    CellMap.find 0 (y, x) (rowsCells 0 rows) = BitVec.ofNat 24 (requested rows y x) := by
  by_cases hn : requested rows y x = 0
  · rw [hn]
    refine CellMap.find_of_not_mem fun e he hkey => ?_
    obtain ⟨i, j, hij, rfl⟩ := mem_rowsCells_iff.1 he
    simp only [Nat.zero_add, Prod.mk.injEq] at hkey
    obtain ⟨rfl, rfl⟩ := hkey
    exact hij hn
  · exact CellMap.find_of_mem hr.cells_wf (mem_rowsCells_iff.2 ⟨y, x, hn, by rw [Nat.zero_add]⟩)

theorem read (hr : InstallInOrder prm w h rows) (hx : x < w) (hy : y < h) :
    ((installedGrid w h rows).read ⟨x, y⟩).toNat = requested rows y x := by
  have hin : (installedGrid w h rows).inRange ⟨x, y⟩ = true := by simp [inRange_iff, installedGrid, hx, hy]
  rw [Grid.read, if_pos hin]
  exact (congrArg BitVec.toNat (hr.find_cells y x)).trans (hr.toNat_requested y x)

end InstallInOrder

end

theorem command_install {s : State} {w h : Nat} {rows : List (List Nat)} (hr : InstallInOrder s.params w h rows) :
    command (.install w h rows) s = .next (s.resetRegisters (installedGrid w h rows)) := if_pos (installOk_iff.2 hr)

theorem command_install_refused {s : State} {w h : Nat} {rows : List (List Nat)}
    (hr : ¬InstallInOrder s.params w h rows) : command (.install w h rows) s = .refused .badInstall :=
  if_neg (mt installOk_iff.1 hr)

/-- Settles O3: the sparse grid lists exactly the numbers that are not 0, in the order of their keys. -/
theorem installReplacesGridAndResets : Obligations.InstallReplacesGridAndResets :=
  fun s _ _ _ => ⟨fun hr => ⟨_, _, command_install hr, registersReset_resetRegisters s _, rfl, rfl, rfl, hr.grid_ok,
    fun _ _ => hr.read⟩, command_install_refused⟩

/-! ## The invariant -/

namespace State.Inv

variable {s : State} {g : Grid}

theorem resetRegisters (h : s.Inv) (hg : g.ok s.params = true) : (s.resetRegisters g).Inv where
  stackOk := ⟨fits_mono h.stackOk.2 (Nat.zero_le 1), h.stackOk.2⟩
  gridOk := by simpa using hg
  inside := by
    have hwf := (Grid.ok_iff.1 hg).1
    simp only [Grid.wf, Bool.and_eq_true, decide_eq_true_eq] at hwf
    obtain ⟨⟨hw, hh⟩, -⟩ := hwf
    simpa [inRange_iff] using ⟨hw, hh⟩
  outside := by simp
  faultOk := by simp
  scratchOk := by simpa using scratchFree_wf g s.draws
  noGrid := by simp

theorem resume (h : s.Inv) (hp : s.run = .paused) : State.Inv { s with run := .running } :=
  { h with
    inside := fun g hg _ => h.inside g hg (by simp [hp])
    outside := nofun
    faultOk := fun hf => ⟨(h.faultOk hf).1, nofun⟩ }

end State.Inv

/-- Settles O16: the grids that a reset starts from are in order, and RESUME changes the run state of a paused block alone. -/
theorem hostCommandsKeepInvariant : Obligations.HostCommandsKeepInvariant := by
  intro c s t hstep hinv h
  cases c with
  | install w h₀ rows =>
    by_cases hr : InstallInOrder s.params w h₀ rows
    · obtain rfl := Host.Outcome.next.inj ((command_install hr).symm.trans h)
      exact hinv.resetRegisters hr.grid_ok
    · simp [command_install_refused hr] at h
  | reset =>
    cases hg : s.grid with
    | none => simp [command, hg] at h
    | some g =>
      obtain rfl := Host.Outcome.next.inj ((command_reset hg).symm.trans h)
      exact hinv.resetRegisters (hinv.gridOk g hg)
  | resume =>
    obtain rfl | ⟨hp, rfl⟩ := command_resume_cases h
    · exact hinv
    · exact hinv.resume hp
  | step => exact absurd rfl hstep

end Machine

end Sys2Proof
end

section
/-! PROOFS. The step as a whole (R120, R123 to R125): without effect on a stopped block, else the decoded instruction and then
the rollback or the advance, and while Paused the same as while Running. -/

namespace Sys2Proof.Machine

/-! ## A step without effect -/

theorem stopped_iff (s : State) : s.stopped = true ↔ s.run = .halted ∨ s.fault ≠ none := by
  simp [State.stopped, Option.isSome_iff_ne_none]

/-- Settles O5: Halted or a recorded fault is what stops the block. -/
theorem stoppedStepChangesNothing : Obligations.StoppedStepChangesNothing :=
  fun s _ hg h => step_of_stopped hg ((stopped_iff s).2 h)

/-! ## A step that takes effect -/

section
variable {s t u : State} {g : Grid}

theorem State.Live.not_stopped (h : s.Live g) : s.stopped = false := (stopped_eq_false_iff s).2 h.2

/-- What a step that takes effect answers: the end of the step after what the execute left. -/
theorem State.Live.step_next (h : s.Live g) (hstep : step s = .next t) :
    ∃ i u, fetchInstr s.params g s.ptr s.dir = .ok i ∧ exec i (s.afterFetch g) = .next u ∧ t = s.finish u := by
  obtain ⟨g', hg, ⟨hs, -⟩ | ⟨-, hrest⟩⟩ := step_cases hstep
  · simp [h.not_stopped] at hs
  · obtain rfl := Option.some.inj (h.1.symm.trans hg)
    exact hrest

theorem ptrInside_of_grid (hg : s.grid = some g) (p : Pos) : s.ptrInside p = g.inRange p := by
  simp [State.ptrInside, hg]

/-- The advance written out, for a step that left the grid `g`. -/
theorem finish_of_grid (hfault : u.fault = none) (hg : u.grid = some g) : s.finish u =
    { u with
      ptr := u.ptr.add (mv u.dir)
      run := if g.inRange (u.ptr.add (mv u.dir)) then u.run else .halted
      draws := u.draws + 1 } := by
  rw [s.finish_of_none u hfault, State.advance, ptrInside_of_grid hg]

theorem fault_of_finish (h : (s.finish u).fault = none) : u.fault = none := by
  cases hu : u.fault with
  | none => rfl
  | some k => simp [s.finish_of_fault u k hu] at h

end

/-- Settles O7: the end of the step, by what the execute left in the fault record. -/
theorem stepRunsDecodedInstruction : Obligations.StepRunsDecodedInstruction := by
  intro s g i t hlive hi ht
  obtain ⟨g', hg'⟩ := (exec_effect ht).exists_grid hlive.1
  have hstep : step s = .next (s.finish t) := by
    rw [step_of_fetch hlive.1 hlive.not_stopped hi, State.afterFetch, ht, settle_next]
  exact ⟨fun k hk => by rw [hstep, s.finish_of_fault t k hk, State.takeFault],
    fun hfault => ⟨g', hg', by rw [hstep, finish_of_grid hfault hg']⟩⟩

/-- Settles O8: no instruction moves the pointer or halts, so the advance alone does. -/
theorem stepAdvancesAndHaltsOutside : Obligations.StepAdvancesAndHaltsOutside := by
  intro s t g hlive hstep hfault
  obtain ⟨i, u, -, hu, rfl⟩ := hlive.step_next hstep
  have e := exec_effect hu
  have hptr : u.ptr = s.ptr := e.ptr_eq
  have hrun := e.run_ne_halted hlive.2.1
  obtain ⟨g', hg'⟩ := e.exists_grid hlive.1
  rw [finish_of_grid (fault_of_finish hfault) hg', hptr]
  refine ⟨g', hg', rfl, ?_⟩
  by_cases hin : g'.inRange (s.ptr.add (mv u.dir)) = true <;> simp [hin, hrun]

/-! ## A step while Paused -/

/-- The state with the run state Paused. -/
def State.paused (s : State) : State := { s with run := .paused }

/-- An answer with the run state Paused. -/
def pausedOutcome (r : Host.Outcome State Fault Refusal) : Host.Outcome State Fault Refusal :=
  match r with
  | .next t => .next t.paused
  | .fault f => .fault f
  | .refused e => .refused e

/-! No operation on the state reads the run state, so each commutes with pausing. -/

section
variable (s : State)

@[simp] theorem paused_ptr : s.paused.ptr = s.ptr := rfl
@[simp] theorem paused_gfxMode : s.paused.gfxMode = s.gfxMode := rfl
@[simp] theorem paused_logFactor : s.paused.logFactor = s.logFactor := rfl
@[simp] theorem paused_angFactor : s.paused.angFactor = s.angFactor := rfl
@[simp] theorem paused_grid : s.paused.grid = s.grid := rfl
@[simp] theorem paused_params : s.paused.params = s.params := rfl
@[simp] theorem freeNaN_paused : s.paused.freeNaN = s.freeNaN := rfl
@[simp] theorem gridRead_paused (p : Pos) : s.paused.gridRead p = s.gridRead p := rfl
@[simp] theorem stackGet_paused (i : Int) : s.paused.stackGet i = s.stackGet i := rfl

@[simp] theorem pop_fst_paused : s.paused.pop.1 = s.pop.1 := by rw [State.pop_fst, State.pop_fst]; rfl

@[simp] theorem pop_snd_paused : s.paused.pop.2 = s.pop.2.paused := by rw [State.pop_snd, State.pop_snd]; rfl

@[simp] theorem push_paused (v : F64) : s.paused.push v = (s.push v).map State.paused := by
  cases hf : fits s.params.stackMax (s.stk.length + 1) with
  | true => rw [push_ok v hf]; exact push_ok v hf
  | false => rw [push_error v hf]; exact push_error v hf

@[simp] theorem pushTwo_paused (v w : F64) : pushTwo v w s.paused = (pushTwo v w s).map State.paused := by
  rw [pushTwo, push_paused, pushTwo]
  cases s.push v with
  | ok t => exact push_paused t w
  | error k => rfl

@[simp] theorem stackSet_paused (i : Int) (v : F64) : s.paused.stackSet i v = (s.stackSet i v).paused := by
  by_cases hj : 0 ≤ s.stackIndex s.params.negOffsetSet i ∧ s.stackIndex s.params.negOffsetSet i ≤ s.sp
  · rw [stackSet_inside v rfl hj.1 hj.2]
    exact stackSet_inside v rfl hj.1 hj.2
  · rw [stackSet_outside v rfl hj]
    exact stackSet_outside v rfl hj

@[simp] theorem withGrid_paused (old g : Grid) : s.paused.withGrid old g = (s.withGrid old g).paused := by
  unfold State.withGrid
  split <;> rfl

@[simp] theorem commit_paused (r : Except CapacityKind State) :
    commit s.paused (r.map State.paused) = pausedOutcome (commit s r) := by
  cases r <;> rfl

@[simp] theorem writeCell_paused (t : State) (p : Pos) (c : Colour) :
    writeCell s.paused t.paused p c = pausedOutcome (writeCell s t p c) := by
  rw [writeCell, paused_grid, paused_params, writeCell]
  cases t.grid with
  | none => rfl
  | some g =>
    cases hw : g.write t.params p c with
    | ok g' => simp only [hw, withGrid_paused, pausedOutcome]
    | error k => simp only [hw, pausedOutcome]; rfl

@[simp] theorem unary_paused (f : F64 → F64) : unary f s.paused = pausedOutcome (unary f s) := by simp [unary]

@[simp] theorem binary_paused (f : F64 → F64 → F64) : binary f s.paused = pausedOutcome (binary f s) := by simp [binary]

@[simp] theorem pushValue_paused (v : F64) : pushValue v s.paused = pausedOutcome (pushValue v s) := by simp [pushValue]

/-- No instruction reads the run state, and PAUSE writes the one that is there. -/
theorem exec_paused (i : Instr) : exec i s.paused = pausedOutcome (exec i s) := by
  cases i
  case nop | reserved | forward | pause | logbase | angbase | deflect => rfl
  case push | input | rnd | pushSp => exact pushValue_paused s _
  case pushIp | dup | swap | get => simp [exec_pushIp, exec_dup, exec_swap, exec_get]
  case set => simp [exec_set, pausedOutcome]
  case print | iomode | gfxmode => simp only [exec_print, exec_iomode, exec_gfxmode, pop_snd_paused, pop_fst_paused]; rfl
  case getPixel => simp [exec_getPixel]
  case setPixel => simp [exec_setPixel]
  case and | or | xor | add | sub | mul | div | pow =>
    simp [exec_and, exec_or, exec_xor, exec_add, exec_sub, exec_mul, exec_div, exec_pow]
  case not | eq | lt | gt | sign => simp [exec_not, exec_eq, exec_lt, exec_gt, exec_sign]
  case round | floor | ceil | trunc => simp [exec_round, exec_floor, exec_ceil, exec_trunc]
  case sqrt | exp | log => simp [exec_sqrt, exec_exp, exec_log]
  case sin | cos | tan | atn => simp [exec_sin, exec_cos, exec_tan, exec_atn]

end

/-- The end of a step taken as Paused: the rollback restores Paused, and the advance keeps it unless it halts. -/
theorem finish_paused {s u : State} {g : Grid} (hs : s.run ≠ .halted) (hu : u.run ≠ .halted) (hg : u.grid = some g) :
    s.paused.finish u.paused =
      { s.finish u with run := if (s.finish u).run = .halted then .halted else .paused } := by
  cases hfault : u.fault with
  | some k =>
    rw [s.finish_of_fault u k hfault, State.finish_of_fault _ u.paused k hfault, State.takeFault_run, if_neg hs]
    rfl
  | none =>
    rw [finish_of_grid (u := u) hfault hg, finish_of_grid (u := u.paused) hfault hg]
    by_cases hin : g.inRange (u.ptr.add (mv u.dir)) = true
    · simp [State.paused, hin, hu]
    · simp [State.paused, hin]

theorem State.Live.paused {s : State} {g : Grid} (h : s.Live g) : s.paused.Live g := ⟨h.1, nofun, h.2.2⟩

theorem step_paused {s t : State} {g : Grid} (h : s.Live g) (hstep : step s = .next t) :
    step s.paused = .next { t with run := if t.run = .halted then .halted else .paused } := by
  obtain ⟨i, u, hi, hu, rfl⟩ := h.step_next hstep
  have hstopped := h.paused.not_stopped
  obtain ⟨hg, hrun, -⟩ := h
  have e := exec_effect hu
  obtain ⟨g', hg'⟩ := e.exists_grid hg
  have hexec : exec i (s.paused.afterFetch g) = .next u.paused := (exec_paused _ i).trans (congrArg pausedOutcome hu)
  rw [step_of_fetch (s := s.paused) hg hstopped hi, hexec, settle_next,
    finish_paused hrun (e.run_ne_halted hrun) hg']

/-- Settles O12: a paused block fetches and executes like a running one, and its step ends like the other's. -/
theorem pausedStepsLikeRunning : Obligations.PausedStepsLikeRunning := by
  intro s t g hlive hp hstep
  have hs : s = State.paused { s with run := .running } := by rw [State.paused, ← hp]
  rw [hs]
  exact step_paused ⟨hlive.1, nofun, hlive.2.2⟩ hstep

end Sys2Proof.Machine
end

section
/-! PROOFS. Which parameters select an instruction (R101, R102), by its place in its family: its own place alone, or, for the last
of a family, every parameter from there on. -/

namespace Sys2Proof

/-- With saturation the parameter selects the place of its own number, at most the last one (R102). -/
theorem decode_saturate_of_place {op : Opcode} {p k : Nat} {f : Nat → Bool → Instr} (t : Bool) (hp : op = 0 ∨ 1 ≤ p)
    (hf : (family op)[k]? = some f) (hk : min (max 1 p) (family op).length = k + 1) :
    decode .saturate ⟨op, p, t⟩ = .ok (f p t) := by
  refine decode_of_entry hp ?_
  rw [selectIndex_saturate (family_length_pos op) (one_le_or_family_length hp), hk]
  exact hf

/-- The only mnemonic of a family is selected by every parameter that a fetch can deliver. -/
theorem decode_of_family_singleton {sel : SelOverflow} {op : Opcode} {p : Nat} {f : Nat → Bool → Instr} (t : Bool)
    (hp : op = 0 ∨ 1 ≤ p) (hf : family op = [f]) : decode sel ⟨op, p, t⟩ = .ok (f p t) :=
  decode_of_entry hp (by rw [hf]; rfl)

section
variable {op : Opcode} {k : Nat} {i : Instr}

/-- A place of the family is selected by its own number. -/
theorem selectedBy_place (hf : (family op)[k]? = some fun _ _ => i) : SelectedBy i op (k + 1) (some (k + 1)) := by
  intro p t hlo hhi
  have hle : p ≤ k + 1 := hhi _ rfl
  have hlt : k < (family op).length := (List.getElem?_eq_some_iff.1 hf).1
  exact decode_saturate_of_place t (.inr (by omega)) hf (by omega)

/-- The last place of the family is selected by every parameter from its own number on. -/
theorem selectedBy_last (hf : (family op)[k]? = some fun _ _ => i) (hlast : (family op).length = k + 1) :
    SelectedBy i op (k + 1) none :=
  fun p t hlo _ => decode_saturate_of_place t (.inr (by omega)) hf (by omega)

end

/-- Opcode 0 is NOP with every parameter, 0 included. -/
theorem selectedBy_nop : SelectedBy .nop 0 0 none := fun _ t _ _ => decode_of_family_singleton t (.inl rfl) rfl

end Sys2Proof
end

section
/-! PROOFS. The stack instructions and the no-ops (R141 to R147, R250, R251): what pushes after `k` pops answer, then each
instruction with the parameters that select it. -/

namespace Sys2Proof.Machine

/-! ## Pushes after pops -/

section
variable {s : State} {k : Nat}

/-- One value takes the place of at least one popped value. -/
theorem commit_push_below (v : F64) (h : s.StackOk) (hk : 1 ≤ k) :
    commit s (State.push v { s with stk := s.below k }) = .next { s with stk := v :: s.below k } := by
  rw [push_ok v (fits_below h hk), commit_ok]

theorem commit_pushTwo_below (v w : F64) (h : fits s.params.stackMax ((s.below k).length + 2) = true) :
    commit s (pushTwo v w { s with stk := s.below k }) = .next { s with stk := w :: v :: s.below k } := by
  rw [pushTwo_ok v w h, commit_ok]

theorem commit_pushTwo_below_full (v w : F64) (h : fits s.params.stackMax ((s.below k).length + 2) = false) :
    commit s (pushTwo v w { s with stk := s.below k }) = .next (s.takeFault .stack) := by
  rw [pushTwo_error v w h, commit_error]

end

/-! ## The meanings with their pops carried out -/

section
variable (s : State)

theorem exec_dup_below : exec .dup s = commit s (pushTwo (s.operand 0) (s.operand 0) { s with stk := s.below 1 }) := by
  rw [exec_dup, pop_value, pop_state]

theorem exec_swap_below : exec .swap s = commit s (pushTwo (s.operand 0) (s.operand 1) { s with stk := s.below 2 }) := by
  rw [exec_swap, pop_pop_value, pop_value, pop_pop_state]

theorem exec_get_below : exec .get s =
    commit s (State.push ({ s with stk := s.below 1 }.stackGet (F64.rnd (s.operand 0) - 1)) { s with stk := s.below 1 }) := by
  rw [exec_get, pop_value, pop_state, stackAddress]

theorem exec_set_below : exec .set s =
    .next ({ s with stk := s.below 2 }.stackSet (F64.rnd (s.operand 0) - 1) (s.operand 1)) := by
  rw [exec_set, pop_pop_value, pop_value, pop_pop_state, stackAddress]

end

/-! ## The statements -/

/-- Settles O43: RESERVED is alone in its family, FORWARD has the first of two places, and neither they nor NOP do anything. -/
theorem nopReservedForwardChangeNothing : Obligations.NopReservedForwardChangeNothing :=
  ⟨selectedBy_nop, selectedBy_last (k := 0) rfl rfl, selectedBy_place (k := 0) rfl,
    fun s => ⟨exec_nop s, exec_reserved s, exec_forward s⟩⟩

/-- Settles O44: PUSH is alone in its family and keeps the parameter; it is one push. -/
theorem pushPushesItsParameter : Obligations.PushPushesItsParameter := by
  refine ⟨fun n t hn => decode_of_family_singleton (f := fun p _ => .push p) t (.inr hn) rfl,
    fun s n => ⟨fun h => ?_, fun h => ?_⟩⟩
  · rw [exec_push, pushValue_spec _ h]
  · rw [exec_push, pushValue_full _ h, State.takeFault]

/-- Settles O45: both push two values, DUP after one pop and SWAP after two, so each fits or faults as those pushes do. -/
theorem dupAndSwap : Obligations.DupAndSwap := by
  refine ⟨selectedBy_place (k := 0) rfl, selectedBy_last (k := 1) rfl rfl, fun s => ?_⟩
  rw [exec_dup_below, exec_swap_below]
  exact ⟨commit_pushTwo_below _ _, commit_pushTwo_below_full _ _, commit_pushTwo_below _ _, commit_pushTwo_below_full _ _⟩

/-- Settles O46: the pops come first, so the address is one of the stack that they leave. -/
theorem getAndSetAddressTheStack : Obligations.GetAndSetAddressTheStack := by
  refine ⟨selectedBy_place (k := 0) rfl, selectedBy_last (k := 1) rfl rfl, fun s => ⟨fun h => ?_, exec_set_below s⟩⟩
  rw [exec_get_below]
  exact commit_push_below _ h le_rfl

end Sys2Proof.Machine
end

section
/-! PROOFS. The comparisons with 0 and the 64-bit integer view, by what a value unpacks to (R10, R161, R166): an infinity, a NaN,
or a number with the sign of its significand. -/

namespace Sys2Proof.F64

section
variable {a : F64} {s : Bool} {m : Nat} {e : Int}

/-! ## The kinds of value -/

theorem isFinite_iff_unpack : isFinite a = true ↔ ∃ s m e, unpack a = .fin s m e := by
  refine ⟨fun h => ?_, fun ⟨s, m, e, hu⟩ => ?_⟩
  · obtain ⟨s, m, e, hu, -⟩ := unpack_of_isFinite h
    exact ⟨s, m, e, hu⟩
  · refine decide_eq_true fun hexp => ?_
    rw [unpack, if_pos hexp] at hu
    split at hu <;> cases hu

/-- The two infinities are the only values that unpack to one. -/
theorem eq_inf_iff_unpack : a = inf s ↔ unpack a = .inf s := by
  refine ⟨fun h => ?_, fun hu => ?_⟩
  · subst h; cases s <;> decide
  · have ha : a.toNat < 2 ^ 64 := a.isLt
    unfold unpack at hu
    split_ifs at hu with hexp hfrac
    cases hu
    unfold expField at hexp
    unfold fracField at hfrac
    refine BitVec.eq_of_toNat_eq ?_
    rw [inf, toNat_ofParts (by decide), neg, infMag]
    simp only [decide_eq_true_eq]
    split <;> omega

/-! ## The sign of a number -/

theorem val_eq_zero_iff (h : unpack a = .fin s m e) : val a = 0 ↔ m = 0 := by
  have hpow : (2 : ℚ) ^ e ≠ 0 := (zpow_pos two_pos e).ne'
  rw [val_of_unpack h, mul_eq_zero_iff_right hpow, Int.cast_eq_zero]
  cases s <;> simp [signed]

theorem val_neg_iff (h : unpack a = .fin s m e) : val a < 0 ↔ s = true ∧ m ≠ 0 := by
  have hpow : (0 : ℚ) < 2 ^ e := zpow_pos two_pos e
  rw [val_of_unpack h, ← not_le, mul_nonneg_iff_of_pos_right hpow, Int.cast_nonneg_iff]
  cases s <;> simp [signed]

theorem val_pos_iff (h : unpack a = .fin s m e) : 0 < val a ↔ s = false ∧ m ≠ 0 := by
  rw [val_of_unpack h, mul_pos_iff_of_pos_right (zpow_pos two_pos e), Int.cast_pos]
  cases s <;> simp [signed, Nat.pos_iff_ne_zero]

/-! ## The comparisons -/

theorem eqZero_iff : eqZero a = true ↔ IsZero a := by
  rw [IsZero, isFinite_iff_unpack, eqZero]
  cases hu : unpack a with
  | nan | inf s => simp
  | fin s m e => simp [val_eq_zero_iff hu]

theorem ltZero_iff : ltZero a = true ↔ Negative a := by
  rw [Negative, eq_inf_iff_unpack, isFinite_iff_unpack, ltZero]
  cases hu : unpack a with
  | nan | inf s => simp
  | fin s m e => simp [val_neg_iff hu]

theorem gtZero_iff : gtZero a = true ↔ Positive a := by
  rw [Positive, eq_inf_iff_unpack, isFinite_iff_unpack, gtZero]
  cases hu : unpack a with
  | nan | inf s => simp
  | fin s m e => simp [val_pos_iff hu]

/-- Why SIGN may test for a positive value first (R170). -/
theorem Negative.not_positive (h : Negative a) : ¬Positive a := by
  rw [← ltZero_iff, ltZero] at h
  rw [← gtZero_iff, gtZero]
  cases hu : unpack a with
  | nan => simp
  | inf s =>
    rw [hu] at h
    obtain rfl : s = true := h
    simp
  | fin s m e =>
    rw [hu] at h
    have hs : s = true := (Bool.and_eq_true_iff.1 h).1
    simp [hs]

/-! ## The integers of rnd -/

/-- The saturation of rnd keeps it a 64-bit two's-complement integer (R10). -/
theorem rnd_bounds (a : F64) : -2 ^ 63 ≤ rnd a ∧ rnd a < 2 ^ 63 := by
  unfold rnd
  cases unpack a with
  | nan => norm_num
  | inf s => cases s <;> norm_num
  | fin s m e => dsimp only; omega

end

end Sys2Proof.F64
end

section
/-! PROOFS. PAUSE, the bitwise instructions and the comparisons against 0 (R160 to R170): each pops its operands and pushes one
value, so what is left to say is the value. -/

namespace Sys2Proof.Machine

/-! ## The values pushed -/

theorem toInt_intView (a : F64) : (intView a).toInt = F64.rnd a :=
  BitVec.toInt_ofInt_eq_self (by decide) (F64.rnd_bounds a).1 (F64.rnd_bounds a).2

/-- The complement of n is −n − 1 (R162). -/
theorem toInt_complement (n : BitVec 64) : (~~~n).toInt = -n.toInt - 1 := by
  have hn : n.toNat < 2 ^ 64 := n.isLt
  rw [BitVec.toInt_eq_toNat_cond, BitVec.toInt_eq_toNat_cond, BitVec.toNat_not]
  split <;> split <;> omega

theorem ofIntView_not (a : F64) : ofIntView (~~~intView a) = F64.ofInt (-F64.rnd a - 1) := by
  rw [ofIntView, toInt_complement, toInt_intView]

/-- A comparison that decides P pushes true where P holds and false where it does not (R166). -/
theorem boolValue_spec {b : Bool} {P : Prop} (h : b = true ↔ P) :
    (P → boolValue b = F64.ofInt (-1)) ∧ (¬P → boolValue b = F64.zero false) := by
  refine ⟨fun hP => ?_, fun hP => if_neg (h.not.2 hP)⟩
  rw [boolValue, if_pos (h.2 hP)]; decide

section
variable {a : F64}

theorem signResult_of_positive (h : F64.Positive a) : signResult a = F64.ofInt 1 := by
  rw [signResult, if_pos (F64.gtZero_iff.2 h)]; decide

theorem signResult_of_negative (h : F64.Negative a) : signResult a = F64.ofInt (-1) := by
  rw [signResult, if_neg (F64.gtZero_iff.not.2 h.not_positive), if_pos (F64.ltZero_iff.2 h)]; decide

theorem signResult_of_neither (hp : ¬F64.Positive a) (hn : ¬F64.Negative a) : signResult a = a := by
  rw [signResult, if_neg (F64.gtZero_iff.not.2 hp), if_neg (F64.ltZero_iff.not.2 hn)]

end

/-! ## The statements -/

/-- Settles O47: PAUSE is alone in its family and writes the run state. -/
theorem pauseSetsPaused : Obligations.PauseSetsPaused :=
  ⟨selectedBy_last (k := 0) rfl rfl, exec_pause⟩

/-- Settles O48: the bit vectors are the integer views of the operands; the complement of n is −n − 1. -/
theorem bitwiseInstructionsOnRoundedIntegers : Obligations.BitwiseInstructionsOnRoundedIntegers := by
  refine ⟨selectedBy_place (k := 0) rfl, selectedBy_place (k := 1) rfl, selectedBy_place (k := 2) rfl,
    selectedBy_last (k := 3) rfl rfl, fun s h => ⟨?_, intView (s.operand 1), intView (s.operand 0), toInt_intView _,
      toInt_intView _, (exec_and s).trans (binary_spec _ h), (exec_or s).trans (binary_spec _ h),
      (exec_xor s).trans (binary_spec _ h)⟩⟩
  rw [exec_not, unary_spec _ h, ofIntView_not]

/-- Settles O49: each comparison of the model is IEEE-754's, and a positive value is not negative. -/
theorem comparisonsAgainstZero : Obligations.ComparisonsAgainstZero := by
  refine ⟨selectedBy_place (k := 0) rfl, selectedBy_place (k := 1) rfl, selectedBy_place (k := 2) rfl,
    selectedBy_last (k := 3) rfl rfl, fun s h => ⟨_, _, _, _,
      (exec_eq s).trans (unary_spec _ h), (exec_lt s).trans (unary_spec _ h), (exec_gt s).trans (unary_spec _ h),
      (exec_sign s).trans (unary_spec _ h), ?_⟩⟩
  obtain ⟨heq, hne⟩ := boolValue_spec (F64.eqZero_iff (a := s.operand 0))
  obtain ⟨hlt, hge⟩ := boolValue_spec (F64.ltZero_iff (a := s.operand 0))
  obtain ⟨hgt, hle⟩ := boolValue_spec (F64.gtZero_iff (a := s.operand 0))
  exact ⟨heq, hne, hlt, hge, hgt, hle, signResult_of_positive, signResult_of_negative, signResult_of_neither⟩

end Sys2Proof.Machine
end

section
/-! PROOFS. The I/O instructions and the mode selections (R180 to R182, R188): the event PRINT appends, the kinds of value INPUT
can push, the modes by number. -/

namespace Sys2Proof.Machine

/-! ## The modes by number -/

theorem ioModeOf_natCast : ∀ k < 3, ioModeOf (k : Nat) = some ([.character, .integer, .float].getD k .character) := by
  decide

theorem ioModeOf_eq_none {r : Int} (h : ¬(0 ≤ r ∧ r ≤ 2)) : ioModeOf r = none := by
  rw [ioModeOf, if_neg (by omega), if_neg (by omega), if_neg (by omega)]

theorem gfxModeOf_natCast : ∀ k < 6, gfxModeOf (k : Nat) =
    some ([.palette16, .grayscale, .bpp6, .bpp12, .bpp18, .bpp24].getD k .palette16) := by
  decide

theorem gfxModeOf_eq_none {r : Int} (h : ¬(0 ≤ r ∧ r ≤ 5)) : gfxModeOf r = none := by
  rw [gfxModeOf, if_neg (by omega), if_neg (by omega), if_neg (by omega), if_neg (by omega), if_neg (by omega),
    if_neg (by omega)]

section
variable (s : State)

/-! ## The answer of the input source -/

/-- An answer that is there has the kind of the current mode. -/
theorem answerValue_inputDraw : answerValue s.inputDraw = F64.zero false ∨
    (s.ioMode = .character ∧ ∃ n : Nat, answerValue s.inputDraw = F64.ofInt n) ∨
    (s.ioMode = .integer ∧ ∃ z : Int, answerValue s.inputDraw = F64.ofInt z) ∨ s.ioMode = .float := by
  unfold State.inputDraw
  split
  · right
    cases s.ioMode with
    | character => exact .inl ⟨rfl, _, rfl⟩
    | integer => exact .inr (.inl ⟨rfl, _, rfl⟩)
    | float => exact .inr (.inr rfl)
  · exact .inl rfl

/-! ## The meanings with their pops carried out -/

theorem exec_print_below : exec .print s = .next
    { s with stk := s.below 1, output := s.output ++ [printEvent s.freeNaN s.ioMode (s.operand 0)] } := by
  rw [exec_print, pop_value, pop_state]

theorem exec_iomode_below : exec .iomode s = .next
    { s with
      stk := s.below 1
      ioMode := (ioModeOf (F64.rnd (s.operand 0) - s.params.modeBase)).getD s.ioMode } := by
  rw [exec_iomode, pop_value, pop_state]

theorem exec_gfxmode_below : exec .gfxmode s = .next
    { s with
      stk := s.below 1
      gfxMode := (gfxModeOf (F64.rnd (s.operand 0) - s.params.modeBase)).getD s.gfxMode } := by
  rw [exec_gfxmode, pop_value, pop_state]

theorem exec_input_eq : exec .input s = pushValue (answerValue s.inputDraw) s := by rw [exec_input, inputWith]

end

/-! ## The statements -/

/-- Settles O50: the NaN that PRINT emits for a NaN is the free one of the step. -/
theorem printAppendsOneEvent : Obligations.PrintAppendsOneEvent :=
  ⟨selectedBy_place (k := 0) rfl, fun s => ⟨s.freeNaN, freeNaN_isNaN s, exec_print_below s⟩⟩

/-- Settles O51: INPUT is one push, of a value whose kind the mode decides. -/
theorem inputPushesAnAnswer : Obligations.InputPushesAnAnswer := by
  refine ⟨selectedBy_place (k := 1) rfl, fun s => ?_⟩
  rw [exec_input_eq]
  exact ⟨fun h => ⟨_, pushValue_spec _ h, answerValue_inputDraw s⟩, pushValue_full _⟩

/-- Settles O52: a number of the table selects its entry, and another one selects nothing, which leaves the mode. -/
theorem modeInstructionsSelectByNumber : Obligations.ModeInstructionsSelectByNumber := by
  refine ⟨selectedBy_last (k := 2) rfl rfl, selectedBy_last (k := 2) rfl rfl, fun s r hr => ?_⟩
  rw [exec_iomode_below, exec_gfxmode_below, ← hr]
  refine ⟨fun k hk hrk => ?_, fun hout => ?_, fun k hk hrk => ?_, fun hout => ?_⟩
  · rw [hrk, ioModeOf_natCast k hk, Option.getD_some]
  · rw [ioModeOf_eq_none hout, Option.getD_none]
  · rw [hrk, gfxModeOf_natCast k hk, Option.getD_some]
  · rw [gfxModeOf_eq_none hout, Option.getD_none]

end Sys2Proof.Machine
end

section
/-! PROOFS. The pixel instructions and the Palette16 codec (R183 to R186, R190, R191): a grid write, by whether the coordinates
are negative and the grown size fits, and what it makes of the state. -/

namespace Sys2Proof.Machine

/-! ## A grid write -/

section
variable {prm : Params} {g : Grid} {p : Pos} {c : Colour}

/-- The grid grown to contain the coordinate, with the cell written (R55). -/
def Grid.grownWith (g : Grid) (p : Pos) (c : Colour) : Grid :=
  ⟨Grid.grown p.x.toNat g.w, Grid.grown p.y.toNat g.h, CellMap.put 0 (cellKey p) c g.cells⟩

theorem write_of_fits (hx : 0 ≤ p.x) (hy : 0 ≤ p.y) (hw : fits prm.gridMaxW (Grid.grown p.x.toNat g.w) = true)
    (hh : fits prm.gridMaxH (Grid.grown p.y.toNat g.h) = true) : g.write prm p c = .ok (g.grownWith p c) := by
  rcases write_cases prm g p c with ⟨hneg, -⟩ | ⟨-, -, -, -, hwrite⟩ | ⟨-, -, hfits, -⟩
  · omega
  · exact hwrite
  · exact absurd ⟨hw, hh⟩ hfits

theorem write_of_not_fits (hx : 0 ≤ p.x) (hy : 0 ≤ p.y)
    (h : fits prm.gridMaxW (Grid.grown p.x.toNat g.w) = false ∨ fits prm.gridMaxH (Grid.grown p.y.toNat g.h) = false) :
    g.write prm p c = .error .grid := by
  rcases write_cases prm g p c with ⟨hneg, -⟩ | ⟨-, -, hw, hh, -⟩ | ⟨-, -, -, hwrite⟩
  · omega
  · simp [hw, hh] at h
  · exact hwrite

theorem lt_grownWith (hx : 0 ≤ p.x) (hy : 0 ≤ p.y) : p.x < (g.grownWith p c).w ∧ p.y < (g.grownWith p c).h := by
  have hw := (grown_spec p.x.toNat g.w).1
  have hh := (grown_spec p.y.toNat g.h).1
  dsimp only [Grid.grownWith]
  omega

end

/-! ## What it makes of the state -/

section
variable {s t : State} {g g' : Grid} {p : Pos} {c : Colour} {k : CapacityKind}

theorem writeCell_of_ok (hg : t.grid = some g) (hw : g.write t.params p c = .ok g') :
    writeCell s t p c = .next (t.withGrid g g') := by
  simp only [writeCell, hg, hw]

theorem writeCell_of_error (hg : t.grid = some g) (hw : g.write t.params p c = .error k) :
    writeCell s t p c = .next (s.takeFault k) := by
  simp only [writeCell, hg, hw]

theorem withGrid_self (hg : s.grid = some g) : s.withGrid g g = s := by
  rw [State.withGrid, if_pos ⟨rfl, rfl⟩, ← hg]

/-- A written grid changes the grid and the scratch map alone. -/
theorem withGrid_eq_update (s : State) (g g' : Grid) :
    s.withGrid g g' = { s with grid := some g', scratch := (s.withGrid g g').scratch } := by
  unfold State.withGrid
  split <;> rfl

theorem withGrid_scratch_of_size (hw : g'.w = g.w) (hh : g'.h = g.h) : (s.withGrid g g').scratch = s.scratch := by
  rw [State.withGrid_scratch, if_pos ⟨hw.symm, hh.symm⟩]

theorem gridRead_of_grid (hg : s.grid = some g) (p : Pos) : s.gridRead p = g.read p := by simp only [State.gridRead, hg]

end

/-! ## The meanings with their pops carried out -/

theorem exec_setPixel_below (s : State) : exec .setPixel s = writeCell s { s with stk := s.below 3 }
    ⟨F64.rnd (s.operand 1) - 1, F64.rnd (s.operand 0) - 1⟩ (encodePixel s.gfxMode (s.operand 2)) := by
  rw [exec_setPixel, pop_pop_pop_value, pop_pop_value, pop_value, pop_pop_pop_state, pixelPos]

theorem exec_getPixel_below (s : State) : exec .getPixel s =
    commit s (State.push (decodePixel s.gfxMode (s.gridRead ⟨F64.rnd (s.operand 1) - 1, F64.rnd (s.operand 0) - 1⟩))
      { s with stk := s.below 2 }) := by
  rw [exec_getPixel, pop_pop_value, pop_value, pop_pop_state, pixelPos]

/-! ## The Palette16 codec -/

theorem encodePixel_palette16 (v : F64) : encodePixel .palette16 v = palette (F64.rnd v % 16).toNat := rfl

theorem decodePixel_palette16 (c : Colour) : decodePixel .palette16 c = F64.ofInt (decodeOpcode c).toNat := rfl

theorem decodePixel_palette {k : Nat} (hk : k < 16) : decodePixel .palette16 (palette k) = F64.ofInt k := by
  have hop : decodeOpcode (palette k) = BitVec.ofNatLT k hk := decodeOpcode_palette (BitVec.ofNatLT k hk)
  rw [decodePixel_palette16, hop, BitVec.toNat_ofNatLT]

/-! ## The statements -/

/-- Settles O53: a negative coordinate leaves the grid as it is, a size that fits gives the grown grid with the cell written,
and another one the fault. -/
theorem setPixelWritesOneCell : Obligations.SetPixelWritesOneCell := by
  refine ⟨selectedBy_place (k := 0) rfl, fun s g p c hg hwf hp hc => ?_⟩
  have hgrid : State.grid { s with stk := s.below 3 } = some g := hg
  rw [exec_setPixel_below, ← hp, ← hc]
  refine ⟨fun hneg => ?_, fun hx hy => ⟨fun hw hh => ?_, fun hbeyond => ?_⟩⟩
  · rw [writeCell_of_ok hgrid (write_of_neg hneg), withGrid_self hgrid]
  · obtain ⟨hxw, hyh⟩ := lt_grownWith (g := g) (c := c) hx hy
    exact ⟨_, g.grownWith p c, writeCell_of_ok hgrid (write_of_fits hx hy hw hh), withGrid_eq_update _ _ _,
      withGrid_scratch_of_size, rfl, rfl, hxw, hyh, read_put_same hwf hx hy hxw hyh,
      fun q => read_put_other hwf hx hy (grown_spec _ _).2 (grown_spec _ _).2⟩
  · rw [writeCell_of_error hgrid (write_of_not_fits hx hy hbeyond), State.takeFault]

/-- Settles O54: two pops leave room for the one push. -/
theorem getPixelReadsOneCell : Obligations.GetPixelReadsOneCell := by
  refine ⟨selectedBy_place (k := 1) rfl, fun s g p hg hok hp => ⟨?_, read_out⟩⟩
  rw [exec_getPixel_below, ← hp, gridRead_of_grid hg]
  exact commit_push_below _ hok (by omega)

/-- Settles O55: the remainder is the index of a palette colour, which decodes to its index (R86). -/
theorem palette16WritesModulo16 : Obligations.Palette16WritesModulo16 := by
  intro v
  have hk : (F64.rnd v % 16).toNat < 16 := by omega
  exact ⟨_, hk, Int.toNat_of_nonneg (Int.emod_nonneg _ (by decide)), encodePixel_palette16 v,
    decodePixel_palette hk, decodePixel_palette16⟩

end Sys2Proof.Machine
end

section
/-! PROOFS. Sums, differences and products of numbers (R217 to R220): the exact result is the integer and exponent that the
model rounds, so `round_roundsTo` says that it is correctly rounded; what is left is the sign of an exact zero. -/

namespace Sys2Proof.F64

/-! ## Signs -/

theorem neg_of_unpack {a : F64} {s : Bool} {m : Nat} {e : Int} (h : unpack a = .fin s m e) : neg a = s := by
  unfold unpack at h
  split_ifs at h <;> cases h <;> rfl

theorem neg_round (s : Bool) (m : Nat) (e : Int) : neg (round s m e) = s := by
  refine neg_ofParts ?_
  have hle : roundMag m e ≤ infMag := by
    unfold roundMag
    split
    · exact Nat.zero_le _
    · exact min_le_right _ _
  unfold infMag at hle
  omega

theorem round_of_zero (s : Bool) (e : Int) : round s 0 e = zero s := rfl

theorem natAbs_signed (s : Bool) (m : Nat) : (signed s m).natAbs = m := by cases s <;> simp [signed]

theorem signed_mul_signed (s t : Bool) (m n : Nat) : signed s m * signed t n = signed (s != t) (m * n) := by
  cases s <;> cases t <;> simp [signed]

/-! ## The operand with its sign inverted -/

section
variable {a : F64}

/-- The exclusive or moves the pattern across the sign bit's place. -/
theorem toNat_negate : (negate a).toNat = if a.toNat < 2 ^ 63 then a.toNat + 2 ^ 63 else a.toNat - 2 ^ 63 := by
  have ha : a.toNat < 2 ^ 64 := a.isLt
  have hxor : (negate a).toNat = a.toNat ^^^ 2 ^ 63 := BitVec.toNat_xor ..
  have hlow : (negate a).toNat % 2 ^ 63 = a.toNat % 2 ^ 63 := by
    rw [hxor, Nat.xor_mod_two_pow, Nat.mod_self, Nat.xor_zero]
  have htop : (negate a).toNat / 2 ^ 63 = a.toNat / 2 ^ 63 ^^^ 1 := by
    rw [hxor, Nat.xor_div_two_pow, Nat.div_self (by norm_num)]
  split
  · rw [show a.toNat / 2 ^ 63 = 0 by omega, Nat.zero_xor] at htop
    omega
  · rw [show a.toNat / 2 ^ 63 = 1 by omega, Nat.xor_self] at htop
    omega

@[simp] theorem neg_negate : neg (negate a) = !neg a := by
  have ha : a.toNat < 2 ^ 64 := a.isLt
  rw [neg, neg, toNat_negate, ← decide_not, decide_eq_decide]
  split <;> omega

@[simp] theorem expField_negate : expField (negate a) = expField a := by
  rw [expField, expField, toNat_negate]
  split <;> omega

@[simp] theorem fracField_negate : fracField (negate a) = fracField a := by
  rw [fracField, fracField, toNat_negate]
  split <;> omega

@[simp] theorem isFinite_negate : isFinite (negate a) = isFinite a := by rw [isFinite, isFinite, expField_negate]

@[simp] theorem isNaN_negate : isNaN (negate a) = isNaN a := by
  simp only [isNaN, unpack, expField_negate, fracField_negate, neg_negate]
  split_ifs <;> simp

theorem negate_inf (s : Bool) : negate (inf s) = inf (!s) := by cases s <;> decide

theorem unpack_negate {s : Bool} {m : Nat} {e : Int} (h : unpack a = .fin s m e) : unpack (negate a) = .fin (!s) m e := by
  simp only [unpack, expField_negate, fracField_negate, neg_negate] at h ⊢
  split_ifs at h ⊢ <;> cases h <;> rfl

theorem val_negate (h : isFinite a = true) : val (negate a) = -val a := by
  obtain ⟨s, m, e, hu, -⟩ := unpack_of_isFinite h
  rw [val_of_unpack (unpack_negate hu), val_of_unpack hu]
  cases s <;> simp [signed]

end

/-! ## Sums -/

section
variable (s t : Bool) (m n : Nat) (e f : Int)

/-- The exact sum of two numbers, in units of the smaller of their last places. -/
def alignedSum : Int := signed s (m * 2 ^ (e - min e f).toNat) + signed t (n * 2 ^ (f - min e f).toNat)

theorem addFin_eq_round : addFin s m e t n f =
    round (if alignedSum s t m n e f = 0 then s && t else decide (alignedSum s t m n e f < 0)) (alignedSum s t m n e f).natAbs
      (min e f) := rfl

/-- A significand shifted to a smaller exponent stands for the same number. -/
theorem signed_shift_mul {g : Int} (h : g ≤ e) : (signed s (m * 2 ^ (e - g).toNat) : ℚ) * 2 ^ g = signed s m * 2 ^ e := by
  obtain ⟨k, rfl⟩ := Int.le.dest h
  rw [add_sub_cancel_left, Int.toNat_natCast, zpow_add₀ two_ne_zero, zpow_natCast]
  cases s <;> simp [signed] <;> ring

theorem alignedSum_mul : (alignedSum s t m n e f : ℚ) * 2 ^ min e f = signed s m * 2 ^ e + signed t n * 2 ^ f := by
  rw [alignedSum, Int.cast_add, add_mul, signed_shift_mul s m e (min_le_left e f), signed_shift_mul t n f (min_le_right e f)]

end

/-- An integer times a power of two, rounded with its sign; a zero may have any. -/
theorem round_natAbs_roundsTo {b : Bool} {z : Int} (hb : z ≠ 0 → b = decide (z < 0)) (g : Int) :
    RoundsTo (z * 2 ^ g) (round b z.natAbs g) := by
  have hz : signed b z.natAbs = z := by
    by_cases h0 : z = 0
    · simp [h0, signed]
    · rw [hb h0, signed_natAbs]
  simpa only [hz] using round_roundsTo b z.natAbs g

section
variable {a b : F64} (nan : F64)

theorem add_of_unpack {s t : Bool} {m n : Nat} {e f : Int} (ha : unpack a = .fin s m e) (hb : unpack b = .fin t n f) :
    add nan a b = addFin s m e t n f := by rw [add, ha, hb]

theorem add_roundsTo (ha : isFinite a = true) (hb : isFinite b = true) :
    RoundsTo ((val a : ℝ) + val b) (add nan a b) := by
  obtain ⟨s, m, e, hua, -⟩ := unpack_of_isFinite ha
  obtain ⟨t, n, f, hub, -⟩ := unpack_of_isFinite hb
  have hsum : (val a : ℝ) + val b = alignedSum s t m n e f * 2 ^ min e f := by
    rw [val_of_unpack hua, val_of_unpack hub, ← Rat.cast_add, ← alignedSum_mul]
    push_cast; rfl
  rw [hsum, add_of_unpack nan hua hub, addFin_eq_round]
  exact round_natAbs_roundsTo (fun h0 => if_neg h0) _

theorem add_eq_signed_zero (ha : isFinite a = true) (hb : isFinite b = true) (h : val a + val b = 0) :
    add nan a b = zero (neg a && neg b) := by
  obtain ⟨s, m, e, hua, -⟩ := unpack_of_isFinite ha
  obtain ⟨t, n, f, hub, -⟩ := unpack_of_isFinite hb
  have hsum : alignedSum s t m n e f = 0 := by
    rw [val_of_unpack hua, val_of_unpack hub, ← alignedSum_mul] at h
    have hpow : (2 : ℚ) ^ min e f ≠ 0 := (zpow_pos two_pos _).ne'
    exact_mod_cast (mul_eq_zero_iff_right hpow).1 h
  rw [add_of_unpack nan hua hub, addFin_eq_round, hsum, if_pos rfl, neg_of_unpack hua, neg_of_unpack hub]
  exact round_of_zero _ _

/-! ## Products -/

theorem mul_of_unpack {s t : Bool} {m n : Nat} {e f : Int} (ha : unpack a = .fin s m e) (hb : unpack b = .fin t n f) :
    mul nan a b = round (s != t) (m * n) (e + f) := by rw [mul, ha, hb]

theorem mul_roundsTo (ha : isFinite a = true) (hb : isFinite b = true) :
    RoundsTo ((val a : ℝ) * val b) (mul nan a b) := by
  obtain ⟨s, m, e, hua, -⟩ := unpack_of_isFinite ha
  obtain ⟨t, n, f, hub, -⟩ := unpack_of_isFinite hb
  have hprod : (val a : ℝ) * val b = signed (s != t) (m * n) * 2 ^ (e + f) := by
    rw [val_of_unpack hua, val_of_unpack hub, ← signed_mul_signed, zpow_add₀ two_ne_zero]
    push_cast; ring
  rw [hprod, mul_of_unpack nan hua hub]
  exact round_roundsTo _ _ _

theorem sign_mul (ha : isFinite a = true) (hb : isFinite b = true) : neg (mul nan a b) = (neg a != neg b) := by
  obtain ⟨s, m, e, hua, -⟩ := unpack_of_isFinite ha
  obtain ⟨t, n, f, hub, -⟩ := unpack_of_isFinite hb
  rw [mul_of_unpack nan hua hub, neg_round, neg_of_unpack hua, neg_of_unpack hub]

end

/-- Settles O37: the aligned sum is exact, and the model gives it the sign that is asked for when it is zero; a difference is
the sum with the second operand's sign inverted. -/
theorem additionIsCorrectlyRounded : Obligations.AdditionIsCorrectlyRounded := by
  intro nan a b ha hb
  have hb' : isFinite (negate b) = true := isFinite_negate.trans hb
  refine ⟨add_roundsTo nan ha hb, ?_, add_eq_signed_zero nan ha hb, fun h => ?_⟩
  · have hsum := add_roundsTo nan ha hb'
    rwa [val_negate hb, Rat.cast_neg, ← sub_eq_add_neg] at hsum
  · rw [sub, add_eq_signed_zero nan ha hb' (by rw [val_negate hb, ← sub_eq_add_neg, h]), neg_negate]

end Sys2Proof.F64
end

section
/-! PROOFS. Quotients (R217, R221). The model rounds a truncated value with one sticky bit below it: as long as the truncated
value has bits to spare, a value strictly between two neighbours rounds as the odd significand between them does. -/

namespace Sys2Proof.F64

/-! ## Rounding with a sticky bit -/

/-- With two bits or more cut off, an odd significand is off the halfway point, by at least the 1 that it stands for. -/
theorem shiftRound_near_of_odd {m : Nat} {k : Int} (hm : m % 2 = 1) (hk : 2 ≤ k) :
    2 * |(shiftRound m k : ℝ) * 2 ^ k - m| ≤ 2 ^ k - 2 := by
  have hnear := (shiftRound_near m k).1
  obtain ⟨i, rfl⟩ : ∃ i : Nat, k = (i + 2 : Nat) := ⟨(k - 2).toNat, by omega⟩
  have hscale : (shiftRound m (i + 2 : Nat) : ℤ) * 2 ^ (i + 2) = 4 * (shiftRound m (i + 2 : Nat) * 2 ^ i) := by ring
  have hunit : (2 : ℤ) ^ (i + 2) = 4 * 2 ^ i := by ring
  rw [zpow_natCast] at hnear ⊢
  have hint : 2 * |(shiftRound m (i + 2 : Nat) : ℤ) * 2 ^ (i + 2) - m| ≤ 2 ^ (i + 2) := by exact_mod_cast hnear
  suffices 2 * |(shiftRound m (i + 2 : Nat) : ℤ) * 2 ^ (i + 2) - m| ≤ 2 ^ (i + 2) - 2 by exact_mod_cast this
  rw [hscale, hunit] at hint ⊢
  generalize (shiftRound m (i + 2 : Nat) : ℤ) * 2 ^ i = z at *
  generalize (2 : ℤ) ^ i = p at *
  rcases abs_choice (4 * z - (m : ℤ)) with habs | habs <;> omega

/-- The magnitude found for a large odd significand is nearest for everything less than 1 away from it. -/
theorem roundMag_nearest_of_odd {m : Nat} {x : ℝ} (hm : m % 2 = 1) (hlarge : 2 ^ 54 ≤ m) (hx : |x - m| < 1) (e : Int) :
    ∃ N, NearestMag (x * 2 ^ e) N ∧ roundMag m e = min N infMag := by
  have hm0 : m ≠ 0 := by omega
  have hlog : 54 ≤ m.log2 := (Nat.le_log2 hm0).2 hlarge
  have hulp : ulpExp m e = max ((m.log2 : Int) + e - 52) (-1074) := rfl
  obtain ⟨j, hj⟩ : ∃ j : Nat, ulpExp m e = j - 1074 := ⟨(ulpExp m e + 1074).toNat, by omega⟩
  have he : (0 : ℝ) < 2 ^ e := by positivity
  have hmul (a : Nat) (b : Int) : (2 : ℝ) ^ a * 2 ^ b = 2 ^ (a + b) := by rw [zpow_add₀ two_ne_zero, zpow_natCast]
  have hscale : (2 : ℝ) ^ ((j : Int) - 1074) = 2 ^ (ulpExp m e - e) * 2 ^ e := by
    rw [← zpow_add₀ two_ne_zero, hj, sub_add_cancel]
  have hoff : 2 * |(shiftRound m (ulpExp m e - e) : ℝ) * 2 ^ (ulpExp m e - e) - x| < 2 ^ (ulpExp m e - e) := by
    have hodd := shiftRound_near_of_odd (k := ulpExp m e - e) hm (by omega)
    have htriangle := abs_sub_le ((shiftRound m (ulpExp m e - e) : ℝ) * 2 ^ (ulpExp m e - e)) m x
    rw [abs_sub_comm (m : ℝ)] at htriangle
    linarith
  have hnear : 2 * |(shiftRound m (ulpExp m e - e) : ℝ) * 2 ^ ((j : Int) - 1074) - x * 2 ^ e| < 2 ^ ((j : Int) - 1074) := by
    rw [hscale, ← mul_assoc, ← sub_mul, abs_mul, abs_of_pos he, ← mul_assoc]
    exact mul_lt_mul_of_pos_right hoff he
  obtain ⟨hbelow, habove⟩ := abs_lt.1 hx
  have hlo : (2 : ℝ) ^ m.log2 ≤ x := by
    have heven : 2 ^ m.log2 % 2 = 0 := Nat.mod_eq_zero_of_dvd (dvd_pow_self 2 (by omega))
    have hpow : 2 ^ m.log2 ≤ m := Nat.log2_self_le hm0
    have hle : (2 : ℝ) ^ m.log2 + 1 ≤ m := by exact_mod_cast (show 2 ^ m.log2 + 1 ≤ m by omega)
    linarith
  have hhi : x < 2 ^ (m.log2 + 1) := by
    have hle : (m : ℝ) + 1 ≤ 2 ^ (m.log2 + 1) := by exact_mod_cast Nat.lt_log2_self
    linarith
  refine ⟨j * 2 ^ 52 + shiftRound m (ulpExp m e - e),
    nearestMag_mul_add ?_ ?_ hnear.le fun htie => absurd htie hnear.ne, by rw [roundMag, if_neg hm0, hj]; simp⟩
  · refine or_iff_not_imp_left.2 fun hj0 => ?_
    calc (2 : ℝ) ^ 52 * 2 ^ ((j : Int) - 1074) = 2 ^ m.log2 * 2 ^ e := by rw [hmul, hmul]; congr 1; omega
      _ ≤ x * 2 ^ e := by gcongr
  · calc x * 2 ^ e < 2 ^ (m.log2 + 1) * 2 ^ e := by gcongr
      _ ≤ 2 ^ 53 * 2 ^ ((j : Int) - 1074) := by
        rw [hmul, hmul]; exact zpow_le_zpow_right₀ one_le_two (by push_cast; omega)

/-- The integer part of x with a sticky bit rounds as x does; only an inexact one needs bits to spare. -/
theorem roundMag_sticky_nearest {x : ℝ} {exact : Bool} (hx : 0 ≤ x) (hexact : exact = true ↔ (⌊x⌋₊ : ℝ) = x)
    (hlarge : exact = false → 2 ^ 53 ≤ ⌊x⌋₊) (e : Int) :
    ∃ N, NearestMag (x * 2 ^ e) N ∧ roundMag (sticky ⌊x⌋₊ exact) (e - 1) = min N infMag := by
  have hhalf : x * 2 ^ e = 2 * x * 2 ^ (e - 1) := by rw [zpow_sub_one₀ two_ne_zero]; ring
  rw [hhalf]
  cases exact with
  | true =>
    have hnear := roundMag_nearest (2 * ⌊x⌋₊) (e - 1)
    rwa [Nat.cast_mul, hexact.1 rfl] at hnear
  | false =>
    have hq := hlarge rfl
    refine roundMag_nearest_of_odd (m := 2 * ⌊x⌋₊ + 1) (by omega) (by omega) ?_ _
    have hlo : (⌊x⌋₊ : ℝ) < x := lt_of_le_of_ne (Nat.floor_le hx) fun h => by simpa using hexact.2 h
    have hhi := Nat.lt_floor_add_one x
    push_cast
    rw [abs_lt]
    constructor <;> linarith

/-- Where the magnitude of `round` is nearest to a value, the value with the sign given is rounded correctly. -/
theorem round_roundsTo_of_nearest {y : ℝ} {m : Nat} {e : Int} (hy : 0 ≤ y)
    (h : ∃ N, NearestMag y N ∧ roundMag m e = min N infMag) (s : Bool) :
    RoundsTo ((if s then -1 else 1) * y) (round s m e) := by
  obtain ⟨N, hN, hround⟩ := h
  rw [round, hround]
  refine NearestMag.roundsTo ?_ ?_ ?_
  · cases s <;> simpa [abs_of_nonneg hy] using hN
  · cases s <;> simp [hy]
  · cases s <;> simp [hy]

/-! ## Quotients -/

/-- The quotient that is truncated has at least 67 bits, unless it is 0. -/
theorem divFin_roundsTo {n : Nat} (hn0 : n ≠ 0) (hn : n < 2 ^ 53) (s : Bool) (m : Nat) (e f : Int) :
    RoundsTo ((if s then -1 else 1) * (m / n * 2 ^ (e - f))) (divFin s m e n f) := by
  have hfloor : ⌊((m * 2 ^ 120 : Nat) : ℝ) / n⌋₊ = m * 2 ^ 120 / n := Nat.floor_div_eq_div _ _
  have hvalue : (m / n * 2 ^ (e - f) : ℝ) = ((m * 2 ^ 120 : Nat) : ℝ) / n * 2 ^ (e - f - 120) := by
    rw [zpow_sub₀ two_ne_zero _ 120]
    push_cast
    field_simp
    norm_cast
  have hexact : decide (m * 2 ^ 120 % n = 0) = true ↔ ((m * 2 ^ 120 / n : Nat) : ℝ) = ((m * 2 ^ 120 : Nat) : ℝ) / n := by
    rw [decide_eq_true_eq, eq_div_iff (Nat.cast_ne_zero.2 hn0), ← Nat.cast_mul, Nat.cast_inj, ← Nat.dvd_iff_mod_eq_zero,
      Nat.dvd_iff_div_mul_eq]
  have hlarge : decide (m * 2 ^ 120 % n = 0) = false → 2 ^ 53 ≤ m * 2 ^ 120 / n := by
    intro hrem
    have hm : m ≠ 0 := by rintro rfl; simp at hrem
    rw [Nat.le_div_iff_mul_le (by omega)]
    calc 2 ^ 53 * n ≤ 2 ^ 53 * 2 ^ 53 := by gcongr
      _ ≤ 1 * 2 ^ 120 := by norm_num
      _ ≤ m * 2 ^ 120 := by gcongr; omega
  rw [← hfloor] at hexact hlarge
  have hnear := roundMag_sticky_nearest (by positivity) hexact hlarge (e - f - 120)
  rw [hfloor, ← hvalue, sub_sub] at hnear
  exact round_roundsTo_of_nearest (by positivity) hnear s

section
variable {a b : F64} (nan : F64)

theorem div_of_unpack {s t : Bool} {m n : Nat} {e f : Int} (ha : unpack a = .fin s m e) (hb : unpack b = .fin t n f)
    (hn : n ≠ 0) : div nan a b = divFin (s != t) m e n f := by rw [div, ha, hb]; exact if_neg hn

theorem div_roundsTo (ha : isFinite a = true) (hb : isFinite b = true) (h0 : val b ≠ 0) :
    RoundsTo ((val a : ℝ) / val b) (div nan a b) := by
  obtain ⟨s, m, e, hua, -⟩ := unpack_of_isFinite ha
  obtain ⟨t, n, f, hub, hn⟩ := unpack_of_isFinite hb
  have hn0 : n ≠ 0 := (val_eq_zero_iff hub).not.1 h0
  have hquot : (val a : ℝ) / val b = (if s != t then -1 else 1) * (m / n * 2 ^ (e - f)) := by
    rw [val_of_unpack hua, val_of_unpack hub, zpow_sub₀ two_ne_zero]
    cases s <;> cases t <;> simp [signed] <;> ring
  rw [hquot, div_of_unpack nan hua hub hn0]
  exact divFin_roundsTo hn0 hn _ _ _ _

theorem sign_div (ha : isFinite a = true) (hb : isFinite b = true) (h0 : val b ≠ 0) :
    neg (div nan a b) = (neg a != neg b) := by
  obtain ⟨s, m, e, hua, -⟩ := unpack_of_isFinite ha
  obtain ⟨t, n, f, hub, -⟩ := unpack_of_isFinite hb
  rw [div_of_unpack nan hua hub ((val_eq_zero_iff hub).not.1 h0), divFin, neg_round, neg_of_unpack hua, neg_of_unpack hub]

end

/-- Settles O38: a product is an integer times a power of two, a quotient is cut off with a sticky bit; both are then rounded
once, with the exclusive or of the signs. -/
theorem productAndQuotientAreCorrectlyRounded : Obligations.ProductAndQuotientAreCorrectlyRounded :=
  fun nan _ _ ha hb => ⟨mul_roundsTo nan ha hb, sign_mul nan ha hb,
    fun h0 => ⟨div_roundsTo nan ha hb h0, sign_div nan ha hb h0⟩⟩

end Sys2Proof.F64
end

section
/-! PROOFS. Arithmetic where an operand is a NaN or infinite, or the divisor zero (R217 to R221): which row of the operation's
table the operands' kinds select. -/

namespace Sys2Proof.F64

@[simp] theorem unpack_inf (s : Bool) : unpack (inf s) = .inf s := eq_inf_iff_unpack.1 rfl

@[simp] theorem unpack_zero (s : Bool) : unpack (zero s) = .fin s 0 (-1074) := by cases s <;> decide

section
variable (nan : F64)

/-! ## A NaN operand -/

section
variable {a b : F64} (h : isNaN a = true ∨ isNaN b = true)
include h

theorem unpack_nan_of_isNaN : unpack a = .nan ∨ unpack b = .nan := h.imp of_decide_eq_true of_decide_eq_true

theorem add_of_isNaN : add nan a b = nan := by
  rcases unpack_nan_of_isNaN h with ha | hb
  · rw [add, ha]
  · rw [add, hb]; cases unpack a <;> rfl

theorem sub_of_isNaN : sub nan a b = nan := add_of_isNaN nan (h.imp_right isNaN_negate.trans)

theorem mul_of_isNaN : mul nan a b = nan := by
  rcases unpack_nan_of_isNaN h with ha | hb
  · rw [mul, ha]
  · rw [mul, hb]; cases unpack a <;> rfl

theorem div_of_isNaN : div nan a b = nan := by
  rcases unpack_nan_of_isNaN h with ha | hb
  · rw [div, ha]
  · rw [div, hb]; cases unpack a <;> rfl

end

/-! ## Two infinities -/

section
variable (s t : Bool)

theorem add_inf_inf : add nan (inf s) (inf t) = if s = t then inf s else nan := by
  rw [add, unpack_inf, unpack_inf]

theorem sub_inf_inf : sub nan (inf s) (inf t) = if s = t then nan else inf s := by
  rw [sub, negate_inf, add_inf_inf]
  cases s <;> cases t <;> rfl

theorem mul_inf_inf : mul nan (inf s) (inf t) = inf (s != t) := by rw [mul, unpack_inf, unpack_inf]

theorem div_inf_inf : div nan (inf s) (inf t) = nan := by rw [div, unpack_inf, unpack_inf]

end

/-! ## An infinity and a number, or a zero divisor -/

section
variable {a : F64} (s : Bool) (h : isFinite a = true)
include h

theorem add_inf_left : add nan (inf s) a = inf s := by
  obtain ⟨t, m, e, hu, -⟩ := unpack_of_isFinite h
  rw [add, unpack_inf, hu]

theorem add_inf_right : add nan a (inf s) = inf s := by
  obtain ⟨t, m, e, hu, -⟩ := unpack_of_isFinite h
  rw [add, unpack_inf, hu]

theorem sub_inf_left : sub nan (inf s) a = inf s := add_inf_left nan s (isFinite_negate.trans h)

theorem sub_inf_right : sub nan a (inf s) = inf (!s) := by rw [sub, negate_inf, add_inf_right nan _ h]

theorem mul_inf_left : mul nan (inf s) a = if val a = 0 then nan else inf (s != neg a) := by
  obtain ⟨t, m, e, hu, -⟩ := unpack_of_isFinite h
  simp only [mul, unpack_inf, hu, val_eq_zero_iff hu, neg_of_unpack hu]

theorem mul_inf_right : mul nan a (inf s) = if val a = 0 then nan else inf (neg a != s) := by
  obtain ⟨t, m, e, hu, -⟩ := unpack_of_isFinite h
  simp only [mul, unpack_inf, hu, val_eq_zero_iff hu, neg_of_unpack hu]

theorem div_inf_left : div nan (inf s) a = inf (s != neg a) := by
  obtain ⟨t, m, e, hu, -⟩ := unpack_of_isFinite h
  rw [div, unpack_inf, hu, neg_of_unpack hu]

theorem div_inf_right : div nan a (inf s) = zero (neg a != s) := by
  obtain ⟨t, m, e, hu, -⟩ := unpack_of_isFinite h
  rw [div, unpack_inf, hu, neg_of_unpack hu]

theorem div_zero_right : div nan a (zero s) = if val a = 0 then nan else inf (neg a != s) := by
  obtain ⟨t, m, e, hu, -⟩ := unpack_of_isFinite h
  simp only [div, unpack_zero, hu, if_true, val_eq_zero_iff hu, neg_of_unpack hu]

end

end

/-- Settles O40: the kinds of the operands select the row of each operation's table. -/
theorem arithmeticOnInfinitiesAndNaN : Obligations.ArithmeticOnInfinitiesAndNaN :=
  fun nan _ _ s t =>
    ⟨fun h => ⟨add_of_isNaN nan h, sub_of_isNaN nan h, mul_of_isNaN nan h, div_of_isNaN nan h⟩,
      add_inf_inf nan s t, sub_inf_inf nan s t, mul_inf_inf nan s t, div_inf_inf nan s t,
      fun h => ⟨add_inf_left nan s h, add_inf_right nan s h, sub_inf_left nan s h, sub_inf_right nan s h,
        mul_inf_left nan s h, mul_inf_right nan s h, div_inf_left nan s h, div_inf_right nan s h, div_zero_right nan s h⟩⟩

end Sys2Proof.F64
end

section
/-! PROOFS. The roundings to an integer (R214 to R216): each picks the floor or the ceiling, so it fixes integers and keeps the
sign, and its result is small enough to be a number itself. -/

namespace Sys2Proof.F64

/-- Toward zero: the integer part. -/
def truncate (x : ℚ) : Int := if 0 ≤ x then ⌊x⌋ else ⌈x⌉

/-! ## The model's roundings of ±m / 2^k -/

section
variable (s : Bool) (m k : Nat)

theorem floorInt_eq_floor : floorInt s m k = ⌊(signed s m : ℚ) / 2 ^ k⌋ := by
  have h := Rat.floor_intCast_div_natCast (signed s m) (2 ^ k)
  push_cast at h
  exact h.symm

theorem ceilInt_eq_ceil : ceilInt s m k = ⌈(signed s m : ℚ) / 2 ^ k⌉ := by
  have h := Rat.ceil_intCast_div_natCast (signed s m) (2 ^ k)
  push_cast at h
  rw [h, ceilInt]
  cases s <;> simp [signed]

/-- Toward zero is up for a negative number and down for another one; for 0 it makes no difference. -/
theorem truncInt_eq_truncate : truncInt s m k = truncate ((signed s m : ℚ) / 2 ^ k) := by
  cases s with
  | false =>
    have hnonneg : (0 : ℚ) ≤ (signed false m : ℚ) / 2 ^ k :=
      div_nonneg (Int.cast_nonneg (Int.natCast_nonneg m)) (by positivity)
    rw [truncate, if_pos hnonneg, ← floorInt_eq_floor]
    simp [truncInt, floorInt, signed]
  | true =>
    have hnonpos : (signed true m : ℚ) / 2 ^ k ≤ 0 :=
      div_nonpos_of_nonpos_of_nonneg (Int.cast_nonpos.2 (neg_nonpos.2 (Int.natCast_nonneg m))) (by positivity)
    have hceil : truncate ((signed true m : ℚ) / 2 ^ k) = ⌈(signed true m : ℚ) / 2 ^ k⌉ := by
      unfold truncate
      split_ifs with hnonneg
      · rw [le_antisymm hnonpos hnonneg, Int.floor_zero, Int.ceil_zero]
      · rfl
    rw [hceil, ← ceilInt_eq_ceil]
    simp [truncInt, ceilInt, signed]

end

/-! ## Rounding to the floor or the ceiling -/

/-- An integer of at most 53 bits, rounded, is a number: itself. -/
theorem round_of_le {s : Bool} {n : Nat} (h : n ≤ 2 ^ 53) :
    isFinite (round s n 0) = true ∧ val (round s n 0) = signed s n := by
  have hround : RoundsTo (signed s n) (round s n 0) := by simpa using round_roundsTo s n 0
  obtain ⟨y, hy, hval⟩ := exists_val_eq_intCast ((natAbs_signed s n).trans_le h)
  have hyround : RoundsTo (val y) (round s n 0) := by rw [hval]; exact_mod_cast hround
  have hrange : |(signed s n : ℝ)| < 2 ^ (1024 : ℕ) - 2 ^ (970 : ℕ) := by
    have hn : |(signed s n : ℝ)| ≤ 2 ^ 53 := by
      rw [← Int.cast_abs, Int.abs_eq_natAbs, natAbs_signed]; exact_mod_cast h
    have hsmall : (2 : ℝ) ^ 53 < 2 ^ (970 : ℕ) := pow_lt_pow_right₀ one_lt_two (by norm_num)
    have hlarge : (2 : ℝ) ^ (970 + 1 : ℕ) ≤ 2 ^ (1024 : ℕ) := pow_le_pow_right₀ one_le_two (by norm_num)
    rw [pow_succ] at hlarge
    generalize (2 : ℝ) ^ (970 : ℕ) = u at *
    generalize (2 : ℝ) ^ (1024 : ℕ) = v at *
    linarith
  exact ⟨(hround.2 hrange).1, (RoundsTo.val_eq hy hyround).trans hval⟩

/-- What the three roundings share: each computes a function that gives the floor or the ceiling. -/
structure IsRounding (f : Bool → Nat → Nat → Int) (g : ℚ → Int) : Prop where
  eq : ∀ s m k, f s m k = g (signed s m / 2 ^ k)
  floor_le : ∀ x, ⌊x⌋ ≤ g x
  le_ceil : ∀ x, g x ≤ ⌈x⌉

namespace IsRounding

theorem floorInt : IsRounding floorInt Int.floor := ⟨floorInt_eq_floor, fun _ => le_rfl, Int.floor_le_ceil⟩

theorem ceilInt : IsRounding ceilInt Int.ceil := ⟨ceilInt_eq_ceil, Int.floor_le_ceil, fun _ => le_rfl⟩

theorem truncInt : IsRounding truncInt truncate := by
  refine ⟨truncInt_eq_truncate, fun x => ?_, fun x => ?_⟩ <;> unfold truncate <;> split
  · exact le_rfl
  · exact Int.floor_le_ceil x
  · exact Int.floor_le_ceil x
  · exact le_rfl

section
variable {f : Bool → Nat → Nat → Int} {g : ℚ → Int} (h : IsRounding f g)
include h

theorem intCast (n : Int) : g n = n :=
  le_antisymm ((h.le_ceil n).trans_eq (Int.ceil_intCast n)) ((Int.floor_intCast n).symm.trans_le (h.floor_le n))

/-- The result has the sign of the operand and is not above its significand. -/
theorem exists_signed (s : Bool) (m k : Nat) : ∃ n ≤ m, f s m k = signed s n := by
  have hquot : (m : ℚ) / 2 ^ k ≤ m := div_le_self m.cast_nonneg (one_le_pow₀ one_le_two)
  have hnonneg : (0 : ℚ) ≤ m / 2 ^ k := by positivity
  have hlo := h.floor_le (signed s m / 2 ^ k)
  have hhi := h.le_ceil (signed s m / 2 ^ k)
  rw [← h.eq] at hlo hhi
  cases s with
  | false =>
    have hfloor : 0 ≤ ⌊(signed false m : ℚ) / 2 ^ k⌋ := Int.floor_nonneg.2 hnonneg
    have hceil : ⌈(signed false m : ℚ) / 2 ^ k⌉ ≤ m := Int.ceil_le.2 hquot
    exact ⟨(f false m k).toNat, by omega, (Int.toNat_of_nonneg (by omega)).symm⟩
  | true =>
    have hval : (signed true m : ℚ) / 2 ^ k = -(m / 2 ^ k) := by simp [signed, neg_div]
    have hfloor : -(m : Int) ≤ ⌊(signed true m : ℚ) / 2 ^ k⌋ := Int.le_floor.2 (by push_cast; linarith)
    have hceil : ⌈(signed true m : ℚ) / 2 ^ k⌉ ≤ 0 := Int.ceil_le.2 (by push_cast; linarith)
    exact ⟨(-f true m k).toNat, by omega, by rw [signed, if_pos rfl]; omega⟩

/-- The value of a number is an integer, which the rounding fixes, or has a fraction, and then at most 53 bits before it. -/
theorem toIntegral_spec {a : F64} (ha : isFinite a = true) :
    isFinite (toIntegral f a) = true ∧ val (toIntegral f a) = g (val a) ∧ neg (toIntegral f a) = neg a := by
  obtain ⟨s, m, e, hu, hm⟩ := unpack_of_isFinite ha
  by_cases hint : m = 0 ∨ 0 ≤ e
  · have hsame : toIntegral f a = a := by rw [toIntegral, hu]; exact if_pos hint
    have hval : val a = (signed s m * 2 ^ e.toNat : Int) := by
      rw [val_of_unpack hu]
      rcases hint with rfl | he
      · cases s <;> simp [signed]
      · obtain ⟨k, rfl⟩ := Int.eq_ofNat_of_zero_le he
        simp
    rw [hsame, hval, h.intCast]
    exact ⟨ha, rfl, rfl⟩
  · obtain ⟨n, hn, hf⟩ := h.exists_signed s m (-e).toNat
    have hround : toIntegral f a = round s n 0 := by
      rw [toIntegral, hu, ← natAbs_signed s n, ← hf]
      exact if_neg hint
    have hval : val a = signed s m / 2 ^ (-e).toNat := by
      obtain ⟨k, rfl⟩ : ∃ k : Nat, e = -k := ⟨(-e).toNat, by omega⟩
      rw [val_of_unpack hu, neg_neg, Int.toNat_natCast, zpow_neg, zpow_natCast, div_eq_mul_inv]
    obtain ⟨hfinite, hexact⟩ := round_of_le (s := s) (hn.trans hm.le)
    rw [hround, hval, ← h.eq, hf]
    exact ⟨hfinite, hexact, by rw [neg_round, neg_of_unpack hu]⟩

end

end IsRounding

theorem toIntegral_of_not_isFinite (f : Bool → Nat → Nat → Int) {a : F64} (h : isFinite a = false) : toIntegral f a = a := by
  unfold toIntegral
  cases hu : unpack a with
  | nan | inf s => rfl
  | fin s m e => rw [isFinite_iff_unpack.2 ⟨s, m, e, hu⟩] at h; cases h

/-- Settles O41: the three are the model's rounding of a number by its floor, its ceiling and its integer part. -/
theorem roundingsToAnInteger : Obligations.RoundingsToAnInteger := by
  refine fun a => ⟨fun h => ?_, fun h => ⟨toIntegral_of_not_isFinite _ h, toIntegral_of_not_isFinite _ h,
    toIntegral_of_not_isFinite _ h⟩⟩
  obtain ⟨hffin, hfval, hfneg⟩ := IsRounding.floorInt.toIntegral_spec h
  obtain ⟨hcfin, hcval, hcneg⟩ := IsRounding.ceilInt.toIntegral_spec h
  obtain ⟨htfin, htval, htneg⟩ := IsRounding.truncInt.toIntegral_spec h
  exact ⟨hffin, hcfin, htfin, hfval, hcval, htval, hfneg, hcneg, htneg⟩

end Sys2Proof.F64
end

section
/-! PROOFS. RND, PUSH_IP and PUSH_SP, the roundings and the arithmetic (R210 to R221): a push of one or two values, or the result
of an operation in place of its operands. -/

namespace Sys2Proof

/-- A number below the exponent of 1 is less than 1. -/
theorem F64.val_lt_one {a : F64} (h : F64.expField a < 1023) : F64.val a < 1 := by
  obtain ⟨s, n, hn, rfl⟩ := F64.exists_ofParts (a := a) (decide_eq_true (by omega))
  have hlt : n < 1023 * 2 ^ 52 := by
    unfold F64.infMag at hn
    rw [F64.expField_ofParts (by omega)] at h
    omega
  have hone : F64.magVal (1023 * 2 ^ 52) = 1 := by
    rw [show 1023 * 2 ^ 52 = 1022 * 2 ^ 52 + 2 ^ 52 by norm_num, F64.magVal_mul_add (by norm_num) (.inr le_rfl)]
    norm_num
  calc F64.val (F64.ofParts s n) ≤ |F64.val (F64.ofParts s n)| := le_abs_self _
    _ = F64.magVal n := F64.abs_val_ofParts hn
    _ < F64.magVal (1023 * 2 ^ 52) := F64.magVal_strictMono hlt
    _ = 1 := hone

theorem F64.unitOf_bounds (b : BitVec 64) :
    F64.isFinite (F64.unitOf b) = true ∧ 0 ≤ F64.val (F64.unitOf b) ∧ F64.val (F64.unitOf b) < 1 := by
  unfold F64.unitOf
  split_ifs with hb
  · rw [F64.inUnit, Bool.or_eq_true, Bool.and_eq_true, decide_eq_true_eq, F64.eqZero_iff, F64.gtZero_iff] at hb
    rcases hb with ⟨hfin, hval⟩ | ⟨hinf | ⟨hfin, hpos⟩, hexp⟩
    · exact ⟨hfin, hval.ge, hval.trans_lt one_pos⟩
    · exact absurd hexp (by subst hinf; decide)
    · exact ⟨hfin, hpos.le, F64.val_lt_one hexp⟩
  · have hval : F64.val (F64.zero false) = 0 := (F64.val_eq_zero_iff (F64.unpack_zero false)).2 rfl
    exact ⟨by decide, hval.ge, hval.trans_lt one_pos⟩

namespace Machine

theorem exec_rnd_eq (s : State) : exec .rnd s = pushValue s.randomDraw s := by rw [exec_rnd, rndWith]

/-- R212's position of the top is the number of values. -/
theorem exec_pushSp_length (s : State) : exec .pushSp s = pushValue (F64.ofInt s.stk.length) s := by
  rw [exec_pushSp, State.sp, sub_add_cancel]

/-- Settles O56: RND and PUSH_SP are one push, PUSH_IP is two, x below y. -/
theorem environmentInstructionsPush : Obligations.EnvironmentInstructionsPush := by
  refine ⟨selectedBy_place (k := 0) rfl, selectedBy_place (k := 1) rfl, selectedBy_last (k := 2) rfl rfl, fun s => ?_⟩
  rw [exec_rnd_eq, exec_pushSp_length, exec_pushIp]
  refine ⟨fun h => ⟨?_, pushValue_spec _ h⟩, fun h => ⟨pushValue_full _ h, pushValue_full _ h⟩, fun h => ?_, fun h => ?_⟩
  · obtain ⟨hfin, hnonneg, hlt⟩ := F64.unitOf_bounds (Config.randomBits s.draws)
    exact ⟨s.randomDraw, hfin, hnonneg, hlt, pushValue_spec _ h⟩
  · rw [pushTwo_ok _ _ h, commit_ok]
  · rw [pushTwo_error _ _ h, commit_error, State.takeFault]

/-- Settles O57: each is a unary or a binary operation on the popped values, which leave room for the result. -/
theorem roundingAndArithmeticInstructions : Obligations.RoundingAndArithmeticInstructions :=
  ⟨selectedBy_place (k := 0) rfl, selectedBy_place (k := 1) rfl, selectedBy_place (k := 2) rfl,
    selectedBy_last (k := 3) rfl rfl, selectedBy_place (k := 0) rfl, selectedBy_place (k := 1) rfl,
    selectedBy_place (k := 2) rfl, selectedBy_last (k := 3) rfl rfl, fun s h =>
      ⟨(exec_round s).trans (unary_spec _ h), (exec_floor s).trans (unary_spec _ h), (exec_ceil s).trans (unary_spec _ h),
        (exec_trunc s).trans (unary_spec _ h), s.freeNaN, freeNaN_isNaN s, (exec_add s).trans (binary_spec _ h),
        (exec_sub s).trans (binary_spec _ h), (exec_mul s).trans (binary_spec _ h), (exec_div s).trans (binary_spec _ h)⟩⟩

end Machine

end Sys2Proof
end

section
/-! PROOFS. The square root (R230, R231): the bit by bit root is the integer root of the radicand, the floor of the real root,
so with its sticky bit it rounds as the real root does. -/

namespace Sys2Proof.F64

/-! ## The integer root -/

/-- The bits found so far and one more unit of the next place enclose the root. -/
theorem isqrt_eq_sqrt {n k acc : Nat} (hlo : acc * acc ≤ n) (hhi : n < (acc + 2 ^ k) * (acc + 2 ^ k)) :
    isqrt n k acc = Nat.sqrt n := by
  induction k generalizing acc with
  | zero => exact Nat.eq_sqrt.2 ⟨hlo, hhi⟩
  | succ k ih =>
    rw [isqrt]
    split_ifs with hbit
    · exact ih hbit (by rwa [add_assoc, ← mul_two, ← pow_succ])
    · exact ih hlo (not_le.1 hbit)

/-- The significand with the exponent made even, and with bits to spare. -/
def radicand (m : Nat) (e : Int) : Nat := m * 2 ^ (e % 2).toNat * 2 ^ 128

section
variable {m : Nat} (e : Int)

theorem radicand_lt (hm : m < 2 ^ 53) : radicand m e < 2 ^ 92 * 2 ^ 92 := by
  have hodd : (e % 2).toNat ≤ 1 := by omega
  calc radicand m e ≤ m * 2 ^ 1 * 2 ^ 128 := by unfold radicand; gcongr; exact one_le_two
    _ < 2 ^ 92 * 2 ^ 92 := by omega

theorem sqrtFin_eq_round (hm : m < 2 ^ 53) : sqrtFin m e =
    round false (sticky (radicand m e).sqrt (decide ((radicand m e).sqrt * (radicand m e).sqrt = radicand m e)))
      (e / 2 - 64 - 1) := by
  have hroot : isqrt (radicand m e) 92 0 = (radicand m e).sqrt :=
    isqrt_eq_sqrt (Nat.zero_le _) (by simpa using radicand_lt e hm)
  have hexp : (e - (e % 2).toNat) / 2 - 65 = e / 2 - 64 - 1 := by omega
  rw [← hroot, ← hexp]
  rfl

theorem sqrt_eq_sqrt_radicand_mul (m : Nat) : √((m : ℝ) * 2 ^ e) = √(radicand m e : ℝ) * 2 ^ (e / 2 - 64) := by
  have hexp : e = (e % 2).toNat + 128 + (e / 2 - 64) * 2 := by omega
  have hvalue : (m : ℝ) * 2 ^ e = radicand m e * (2 ^ (e / 2 - 64)) ^ 2 := by
    conv_lhs => rw [hexp]
    rw [zpow_add₀ two_ne_zero, zpow_add₀ two_ne_zero, zpow_mul, zpow_natCast, zpow_ofNat, zpow_ofNat, radicand]
    push_cast
    ring
  rw [hvalue, Real.sqrt_mul (Nat.cast_nonneg _), Real.sqrt_sq (by positivity)]

/-- The integer root has at least 65 bits. -/
theorem sqrtFin_roundsTo (hm0 : m ≠ 0) (hm : m < 2 ^ 53) : RoundsTo √((m : ℝ) * 2 ^ e) (sqrtFin m e) := by
  have hfloor : ⌊√(radicand m e : ℝ)⌋₊ = (radicand m e).sqrt := Real.nat_floor_real_sqrt_eq_nat_sqrt
  have hexact : decide ((radicand m e).sqrt * (radicand m e).sqrt = radicand m e) = true ↔
      ((radicand m e).sqrt : ℝ) = √(radicand m e : ℝ) := by
    rw [decide_eq_true_eq, eq_comm, eq_comm (b := √_), Real.sqrt_eq_iff_mul_self_eq (Nat.cast_nonneg _) (Nat.cast_nonneg _)]
    norm_cast
  have hlarge : 2 ^ 53 ≤ (radicand m e).sqrt := by
    rw [Nat.le_sqrt]
    calc 2 ^ 53 * 2 ^ 53 ≤ 1 * 1 * 2 ^ 128 := by norm_num
      _ ≤ radicand m e := Nat.mul_le_mul_right _ (Nat.mul_le_mul (by omega) Nat.one_le_two_pow)
  rw [← hfloor] at hexact hlarge
  have hnear := roundMag_sticky_nearest (Real.sqrt_nonneg _) hexact (fun _ => hlarge) (e / 2 - 64)
  rw [hfloor, ← sqrt_eq_sqrt_radicand_mul] at hnear
  have hround := round_roundsTo_of_nearest (Real.sqrt_nonneg _) hnear false
  rwa [if_neg Bool.false_ne_true, one_mul, ← sqrtFin_eq_round e hm] at hround

end

/-! ## The square root of each kind of value -/

section
variable {a : F64} (nan : F64)

theorem sqrt_of_val_eq_zero (hfin : isFinite a = true) (h0 : val a = 0) : sqrt nan a = a := by
  obtain ⟨s, m, e, hu, -⟩ := unpack_of_isFinite hfin
  simp only [sqrt, hu, (val_eq_zero_iff hu).1 h0, if_true]

theorem sqrt_of_unpack {m : Nat} {e : Int} (hu : unpack a = .fin false m e) (hm : m ≠ 0) : sqrt nan a = sqrtFin m e := by
  simp [sqrt, hu, hm]

theorem sqrt_inf (s : Bool) : sqrt nan (inf s) = if s then nan else inf s := by rw [sqrt, unpack_inf]

theorem sqrt_of_isNaN (h : isNaN a = true) : sqrt nan a = nan := by rw [sqrt, of_decide_eq_true h]

theorem sqrt_of_negative (h : Negative a) : sqrt nan a = nan := by
  rcases h with rfl | ⟨hfin, hneg⟩
  · exact sqrt_inf nan true
  · obtain ⟨s, m, e, hu, -⟩ := unpack_of_isFinite hfin
    obtain ⟨rfl, hm⟩ := (val_neg_iff hu).1 hneg
    simp [sqrt, hu, hm]

/-- A zero is 0 rounded, with either sign. -/
theorem roundsTo_zero (hfin : isFinite a = true) (h0 : val a = 0) : RoundsTo 0 a := by
  obtain ⟨s, n, hn, rfl⟩ := exists_ofParts hfin
  have hmag : magVal n = magVal 0 := by rw [← abs_val_ofParts hn, h0, abs_zero, magVal_zero]
  obtain rfl : n = 0 := magVal_strictMono.injective hmag
  have hround := round_roundsTo s 0 0
  rwa [round_of_zero, show signed s 0 = 0 by cases s <;> rfl, Int.cast_zero, zero_mul] at hround

theorem sqrt_roundsTo (hfin : isFinite a = true) (hnonneg : 0 ≤ val a) : RoundsTo √(val a : ℝ) (sqrt nan a) := by
  rcases hnonneg.eq_or_lt with h0 | hpos
  · rw [sqrt_of_val_eq_zero nan hfin h0.symm, ← h0, Rat.cast_zero, Real.sqrt_zero]
    exact roundsTo_zero hfin h0.symm
  · obtain ⟨s, m, e, hu, hm⟩ := unpack_of_isFinite hfin
    obtain ⟨rfl, hm0⟩ := (val_pos_iff hu).1 hpos
    have hval : (val a : ℝ) = m * 2 ^ e := by rw [val_of_unpack hu]; simp [signed]
    rw [hval, sqrt_of_unpack nan hu hm0]
    exact sqrtFin_roundsTo e hm0 hm

end

/-- Settles O39: a positive number's root is the integer root with its sticky bit, rounded once; every other kind of value has a
row of its own. -/
theorem squareRootIsCorrectlyRounded : Obligations.SquareRootIsCorrectlyRounded :=
  fun nan _ => ⟨sqrt_roundsTo nan, sqrt_of_val_eq_zero nan, sqrt_inf nan false,
    fun h => h.elim (sqrt_of_negative nan) (sqrt_of_isNaN nan)⟩

end Sys2Proof.F64
end

section
/-! PROOFS. The constant 2π (R230): twenty decimals of π place it within half a unit of the last place of the number it rounds
to. -/

namespace Sys2Proof.F64

/-- The significand of π in units of 2^−51, the last place of the numbers from 2 to 4. -/
theorem nearestMag_pi : NearestMag Real.pi (1023 * 2 ^ 52 + 0x1921FB54442D18) := by
  have hlo := Real.pi_gt_d20
  have hhi := Real.pi_lt_d20
  have hulp : (2 : ℝ) ^ ((1023 : Nat) - 1074 : Int) = 1 / 2 ^ 51 := by norm_num
  have hnear : 2 * |((0x1921FB54442D18 : Nat) : ℝ) * 2 ^ ((1023 : Nat) - 1074 : Int) - Real.pi| <
      2 ^ ((1023 : Nat) - 1074 : Int) := by
    rw [hulp, ← lt_div_iff₀' two_pos, abs_lt]
    constructor <;> norm_num <;> linarith
  refine nearestMag_mul_add (.inr ?_) ?_ hnear.le fun htie => absurd htie hnear.ne
  · rw [hulp]; linarith
  · rw [hulp]; linarith

theorem pi_roundsTo : RoundsTo Real.pi 0x400921FB54442D18 := by
  have hpos := Real.pi_pos
  have hround := NearestMag.roundsTo (s := false) (by rw [abs_of_pos hpos]; exact nearestMag_pi) (fun _ => rfl)
    fun hneg => absurd hneg hpos.not_gt
  rwa [show ofParts false (min (1023 * 2 ^ 52 + 0x1921FB54442D18) infMag) = 0x400921FB54442D18 by decide] at hround

/-- Settles O42: the two constants have one significand, and exponents that differ by one. -/
theorem twoPiIsTwiceTheNearestToPi : Obligations.TwoPiIsTwiceTheNearestToPi := by
  have hpi : unpack 0x400921FB54442D18 = .fin false 0x1921FB54442D18 (-51) := by decide
  have htwoPi : unpack twoPi = .fin false 0x1921FB54442D18 (-50) := by decide
  refine ⟨pi_roundsTo, ?_⟩
  rw [val_of_unpack htwoPi, val_of_unpack hpi, show (-50 : Int) = -51 + 1 by norm_num, zpow_add_one₀ two_ne_zero]
  ring

end Sys2Proof.F64
end

section
/-! PROOFS. Opcodes C and D (R231 to R240): the scaled functions are unary operations, and the two base instructions store their
factor; ANGBASE's divisor is a converted natural number, so never a zero from 1 on, and infinite where it is no number. -/

namespace Sys2Proof

/-! ## Converted numbers -/

@[simp] theorem F64.isFinite_inf (s : Bool) : F64.isFinite (F64.inf s) = false := by cases s <;> decide

/-- 1 is nearer to a positive number than 0 is. -/
theorem F64.val_ofInt_ne_zero {n : Nat} (hn : 1 ≤ n) (hfin : F64.isFinite (F64.ofInt n) = true) :
    F64.val (F64.ofInt n) ≠ 0 := by
  intro h0
  obtain ⟨hover, hin⟩ := F64.ofInt_roundsTo n
  have hrange : |((n : Int) : ℝ)| < 2 ^ (1024 : ℕ) - 2 ^ (970 : ℕ) := by
    by_contra! hbig
    have hinf : F64.isFinite (F64.inf (F64.neg (F64.ofInt n))) = true := (hover hbig).1 ▸ hfin
    simp at hinf
  obtain ⟨-, -, -, hnear, -⟩ := hin hrange
  obtain ⟨one, hone, hval⟩ := F64.exists_val_eq_intCast (n := 1) (by norm_num)
  have hdist := hnear one hone
  have hn' : (1 : ℝ) ≤ n := by exact_mod_cast hn
  rw [h0, hval] at hdist
  push_cast at hdist
  rw [abs_of_nonpos (by linarith), abs_of_nonpos (by linarith)] at hdist
  linarith

theorem F64.ofInt_eq_inf {n : Int} (h : F64.isFinite (F64.ofInt n) = false) : F64.ofInt n = F64.inf (decide (n < 0)) := by
  obtain ⟨hover, hin⟩ := F64.ofInt_roundsTo n
  have hbig := not_lt.1 fun hrange => Bool.false_ne_true (h.symm.trans (hin hrange).1)
  have hneg : F64.neg (F64.ofInt n) = decide (n < 0) := F64.neg_round _ _ _
  rw [← hneg]
  exact (hover hbig).1

/-- The last place of a family of five is selected by every parameter from 5 on, and may keep it as its operand. -/
theorem decode_saturate_of_fifth {op : Opcode} {f : Nat → Bool → Instr} (hlast : (family op).length = 5)
    (hf : (family op)[4]? = some f) (n : Nat) (t : Bool) (hn : 5 ≤ n) : decode .saturate ⟨op, n, t⟩ = .ok (f n t) :=
  decode_saturate_of_place t (.inr (by omega)) hf (by omega)

namespace Machine

/-- Settles O58: SQRT to LOG and SIN to ATN are unary and POW binary, on the popped values, which leave room for the result. -/
theorem powerLogarithmAndTrigonometry : Obligations.PowerLogarithmAndTrigonometry :=
  ⟨selectedBy_place (k := 0) rfl, selectedBy_place (k := 1) rfl, selectedBy_place (k := 2) rfl, selectedBy_place (k := 3) rfl,
    selectedBy_place (k := 0) rfl, selectedBy_place (k := 1) rfl, selectedBy_place (k := 2) rfl, selectedBy_place (k := 3) rfl,
    fun s h => ⟨(exec_pow s).trans (binary_spec _ h), s.freeNaN, freeNaN_isNaN s, (exec_sqrt s).trans (unary_spec _ h),
      (exec_exp s).trans (unary_spec _ h), (exec_log s).trans (unary_spec _ h), (exec_sin s).trans (unary_spec _ h),
      (exec_cos s).trans (unary_spec _ h), (exec_tan s).trans (unary_spec _ h), (exec_atn s).trans (unary_spec _ h)⟩⟩

/-- Settles O59: 2π is divided by the converted parameter, correctly rounded where that is a number and 0 where it is +∞. -/
theorem baseInstructionsWriteTheFactors : Obligations.BaseInstructionsWriteTheFactors := by
  have hfin : F64.isFinite F64.twoPi = true := by decide
  have hpos : F64.neg F64.twoPi = false := by decide
  refine ⟨decode_saturate_of_fifth (f := fun n _ => .logbase n) rfl rfl,
    decode_saturate_of_fifth (f := fun n _ => .angbase n) rfl rfl,
    fun s n => ⟨exec_logbase n s, _, exec_angbase n s, fun hn hnum => ?_, fun hinf => ?_⟩⟩
  · exact F64.div_roundsTo _ hfin hnum (F64.val_ofInt_ne_zero hn hnum)
  · have hn : ¬(n : Int) < 0 := by omega
    rw [F64.ofInt_eq_inf hinf, F64.div_inf_right _ _ hfin, hpos, decide_eq_false hn, bne_self_eq_false]

end Machine

end Sys2Proof
end

section
/-! PROOFS. DEFLECT (R252): one less in the encoding of the directions is a quarter turn clockwise, one more is one
counter-clockwise, and the turn bit and the parameter choose between the two. -/

namespace Sys2Proof.Machine

theorem dirOfNumber_pred (d : Dir) : dirOfNumber (dirNumber d + -1) = clockwise d := by cases d <;> decide

theorem dirOfNumber_succ (d : Dir) : dirOfNumber (dirNumber d + 1) = counterClockwise d := by cases d <;> decide

theorem deflected_of_minusOne {prm : Params} (h : prm.deflectTrueDelta = .minusOne) (t : Bool) (d : Dir) :
    deflected prm t d = if t then clockwise d else counterClockwise d := by
  rw [deflected, h]
  cases t with
  | false => exact dirOfNumber_succ d
  | true => exact dirOfNumber_pred d

theorem deflected_of_plusOne {prm : Params} (h : prm.deflectTrueDelta = .plusOne) (t : Bool) (d : Dir) :
    deflected prm t d = if t then counterClockwise d else clockwise d := by
  rw [deflected, h]
  cases t with
  | false => exact dirOfNumber_pred d
  | true => exact dirOfNumber_succ d

/-- DEFLECT has the last of two places, and its operand is the turn bit. -/
theorem decode_saturate_deflect (p : Nat) (t : Bool) (hp : 2 ≤ p) : decode .saturate ⟨0xF, p, t⟩ = .ok (.deflect t) := by
  have hlast : (family 0xF).length = 2 := rfl
  exact decode_saturate_of_place (k := 1) (f := fun _ t => .deflect t) t (.inr (by omega)) rfl (by omega)

/-- Settles O60: the turned direction is all that DEFLECT writes, and each sign of the parameter says which turn it is. -/
theorem deflectTurnsAQuarter : Obligations.DeflectTurnsAQuarter :=
  ⟨decode_saturate_deflect, fun s t =>
    ⟨fun h => by rw [exec_deflect, deflected_of_minusOne h], fun h => by rw [exec_deflect, deflected_of_plusOne h]⟩⟩

end Sys2Proof.Machine
end

section
/-! PROOFS. The capacity fault and the state after reset (R61, R262, R265, R280, R284): which instructions can raise which cause,
that a step which raises one is undone and is the last, and that a run starts within the invariant. -/

namespace Sys2Proof.Machine

/-! ## The room for a push -/

section
variable {s t u : State}

/-- Two values that take the places of two popped ones fit wherever two values do. -/
theorem fits_below_two (h : s.StackOk) (h2 : fits s.params.stackMax 2 = true) :
    fits s.params.stackMax ((s.below 2).length + 2) = true := by
  rw [below_length, Nat.sub_add_eq_max]
  rcases max_choice s.stk.length 2 with hmax | hmax <;> rw [hmax]
  · exact h.1
  · exact h2

/-! ## What leaves the fault record alone -/

theorem fault_eq_of_next (h : Host.Outcome.next u = (.next t : Host.Outcome State Fault Refusal)) (hu : u.fault = s.fault) :
    t.fault = s.fault := Host.Outcome.next.inj h ▸ hu

theorem fault_eq_of_unary {f : F64 → F64} (hok : s.StackOk) (h : unary f s = .next t) : t.fault = s.fault :=
  fault_eq_of_next ((unary_spec f hok).symm.trans h) rfl

theorem fault_eq_of_binary {f : F64 → F64 → F64} (hok : s.StackOk) (h : binary f s = .next t) : t.fault = s.fault :=
  fault_eq_of_next ((binary_spec f hok).symm.trans h) rfl

theorem fault_eq_of_swap (hok : s.StackOk) (h2 : fits s.params.stackMax 2 = true) (h : exec .swap s = .next t) :
    t.fault = s.fault := by
  rw [exec_swap_below, commit_pushTwo_below _ _ (fits_below_two hok h2)] at h
  exact fault_eq_of_next h rfl

theorem fault_eq_of_get (hok : s.StackOk) (h : exec .get s = .next t) : t.fault = s.fault := by
  rw [exec_get_below, commit_push_below _ hok le_rfl] at h
  exact fault_eq_of_next h rfl

theorem fault_eq_of_getPixel (hok : s.StackOk) (h : exec .getPixel s = .next t) : t.fault = s.fault := by
  rw [exec_getPixel_below, commit_push_below _ hok one_le_two] at h
  exact fault_eq_of_next h rfl

end

/-! ## Which instruction raises which fault -/

section
variable {i : Instr} {s t : State}

theorem Effect.eq_setPixel_of_gridFault (e : Effect i s t) (hs : s.fault = none) (ht : t.fault = some .grid) :
    i = .setPixel := by
  cases e with
  | gridFault hi => exact hi
  | setPixel _ _ hi => exact hi
  | stackFault => simp at ht
  | _ => simp [hs] at ht

theorem fault_ne_stack_of_setPixel (hs : s.fault = none) (h : exec .setPixel s = .next t) : t.fault ≠ some .stack := by
  rw [exec_setPixel_below] at h
  obtain ⟨g, -, ⟨g', -, rfl⟩ | ⟨-, rfl⟩⟩ := writeCell_next h
  · simp [hs]
  · simp

/-- Every other instruction pops at least as many values as it pushes, so its pushes fit. -/
theorem pushes_of_stackFault (hok : s.StackOk) (hs : s.fault = none) (h : exec i s = .next t) (ht : t.fault = some .stack) :
    (∃ n, i = .push n) ∨ i = .dup ∨ i = .input ∨ i = .rnd ∨ i = .pushIp ∨ i = .pushSp ∨
      (i = .swap ∧ fits s.params.stackMax 2 = false) := by
  have hne : t.fault ≠ s.fault := by simp [hs, ht]
  cases i
  case push | dup | input | rnd | pushIp | pushSp => simp
  case swap => simpa using fun h2 => hne (fault_eq_of_swap hok h2 h)
  case setPixel => exact absurd ht (fault_ne_stack_of_setPixel hs h)
  all_goals refine absurd ?_ hne
  case get => exact fault_eq_of_get hok h
  case getPixel => exact fault_eq_of_getPixel hok h
  case nop | reserved | forward | pause | logbase | angbase | deflect => exact fault_eq_of_next h rfl
  case set => exact fault_eq_of_next ((exec_set s).symm.trans h) (by simp)
  case print | iomode | gfxmode =>
    simp only [exec_print_below, exec_iomode_below, exec_gfxmode_below] at h
    exact fault_eq_of_next h rfl
  case and | or | xor | add | sub | mul | div | pow =>
    simp only [exec_and, exec_or, exec_xor, exec_add, exec_sub, exec_mul, exec_div, exec_pow] at h
    exact fault_eq_of_binary hok h
  case not | eq | lt | gt | sign | round | floor | ceil | trunc =>
    simp only [exec_not, exec_eq, exec_lt, exec_gt, exec_sign, exec_round, exec_floor, exec_ceil, exec_trunc] at h
    exact fault_eq_of_unary hok h
  case sqrt | exp | log | sin | cos | tan | atn =>
    simp only [exec_sqrt, exec_exp, exec_log, exec_sin, exec_cos, exec_tan, exec_atn] at h
    exact fault_eq_of_unary hok h

end

/-- Settles O11: the stack's cause by the room that the pops of each instruction leave, the grid's by the effects. -/
theorem onlyPushesAndSetPixelFault : Obligations.OnlyPushesAndSetPixelFault :=
  fun _ _ _ hok hs h => ⟨pushes_of_stackFault hok hs h, (exec_effect h).eq_setPixel_of_gridFault hs⟩

/-! ## A step that faults -/

/-- Settles O10: the end of the step goes back to the state before it, and a recorded fault stops the block. -/
theorem faultUndoesTheStepAndStops : Obligations.FaultUndoesTheStepAndStops := by
  intro s t g k hlive hstep hk
  obtain ⟨i, u, -, -, rfl⟩ := hlive.step_next hstep
  cases hu : u.fault with
  | none => simp [s.finish_of_none u hu, hu] at hk
  | some k' =>
    rw [s.finish_of_fault u k' hu] at hk ⊢
    obtain rfl := Option.some.inj hk
    exact ⟨rfl, stoppedStepChangesNothing (s.takeFault k') g hlive.1 (.inr nofun)⟩

/-! ## The state after reset -/

theorem inv_reset : State.reset.Inv where
  stackOk := ⟨rfl, rfl⟩
  gridOk := nofun
  inside := nofun
  outside := nofun
  faultOk h := absurd rfl h
  scratchOk := nofun
  noGrid _ := rfl

/-- Settles O1: without a grid the invariant speaks of the stack and the fault record alone, and a step is refused. -/
theorem resetStateMeetsInvariant : Obligations.ResetStateMeetsInvariant :=
  ⟨inv_reset, ⟨rfl, rfl, rfl, rfl, rfl, rfl, F64.val_one, F64.val_one, rfl, rfl, rfl⟩, rfl, rfl, rfl, step_not_installed rfl⟩

end Sys2Proof.Machine
end
